-- ==== Sys2Proof/Word.lean ====
section
/-!
DEFINITION. The word types of the Huffman codec core: 32-bit register and command words, stream bytes,
9-bit symbols (spec/00_scope.md R6, R8).
-/

namespace Sys2Proof

/-- A 32-bit register or command word (10_state.md R23, 30_encoding.md R100). -/
abbrev Word := BitVec 32

/-- A byte of a stream (20_memory.md R76). -/
abbrev Byte := BitVec 8

/-- A symbol as the block stores it: 9 bits, of which 0..256 name a symbol (00_scope.md R6). -/
abbrev Symbol := BitVec 9

/-- EOF_SYM, the sentinel (00_scope.md R6). -/
abbrev eofSym : Symbol := 256#9

end Sys2Proof
end

