-- ==== Sys2Proof/Syntax.lean ====
section
/-!
DEFINITION. The commands of the block: one constructor per row of spec/opcode_table.json
(spec/30_encoding.md R102), the pseudo-commands of R112 and R113, and the mnemonics of R110.
-/

namespace Sys2Proof

/-- A command (R102). Only ENC_SYM has an operand, the 9-bit SYM field (R101). -/
inductive Instr where
  /-- NOP (R220). -/
  | nop
  /-- COUNT (R130). -/
  | count
  /-- BUILD (R140). -/
  | build
  /-- GENCODES (R150). -/
  | gencodes
  /-- WR_TREE (R160). -/
  | wrTree
  /-- RD_TREE (R164). -/
  | rdTree
  /-- WR_HEADER (R180). -/
  | wrHeader
  /-- REWIND (R181). -/
  | rewind
  /-- ENC_SYM sym (R182). -/
  | encSym (sym : Symbol)
  /-- ENCODE (R186). -/
  | encode
  /-- CLOSE (R190). -/
  | close
  /-- RD_HEADER (R200). -/
  | rdHeader
  /-- DEC_SYM (R202). -/
  | decSym
  /-- DECODE (R206). -/
  | decode
  /-- CLRERR (R221). -/
  | clrerr
  /-- INIT (R222). -/
  | init
  deriving DecidableEq, Repr

/-- The pseudo-command ENC_EOF (R112). -/
def encEof : Instr := .encSym eofSym

/-- The pseudo-command COMPRESS, a host sequence (R113). -/
def compressSequence : List Instr :=
  [.count, .build, .gencodes, .wrHeader, .wrTree, .rewind, .encode, .close]

/-- The pseudo-command DECOMPRESS, a host sequence (R113). -/
def decompressSequence : List Instr := [.rdHeader, .rdTree, .decode, .close]

end Sys2Proof
end

