-- ==== Sys2Proof/WellFormed.lean ====
section
/-!
DEFINITION. Which commands are legal (spec/30_encoding.md R103). The layout of the word leaves one check
on the syntax: ENC_SYM's symbol is 0..256.
-/

namespace Sys2Proof

/-- A symbol number that names a symbol: 0..256 (R101). -/
abbrev legalSymbol (sym : Symbol) : Prop := sym.toNat ≤ 256

/-- A legal command (R103): the operand of ENC_SYM names a symbol. -/
abbrev WellFormed : Instr → Prop
  | .encSym sym => legalSymbol sym
  | .nop | .count | .build | .gencodes | .wrTree | .rdTree | .wrHeader | .rewind | .encode | .close
  | .rdHeader | .decSym | .decode | .clrerr | .init => True

end Sys2Proof
end

