-- ==== Sys2Proof/Decode.lean ====
section
/-!
DEFINITION. The decoder of command words, total on every 32-bit word and rejecting by name
(spec/30_encoding.md R100 to R104), and the encoder written from the same table.
-/

namespace Sys2Proof

/-- Why a command word is illegal (R103); the first that holds, in the order of R104. Raised as
ILLEGAL_COMMAND by the machine (60_exceptions.md R239). -/
inductive IllegalWord where
  /-- RSV0, bits [7:4], is not 0. -/
  | reservedLow
  /-- RSV1, bits [31:17], is not 0. -/
  | reservedHigh
  /-- ENC_SYM with SYM above 256. -/
  | symbolRange
  /-- SYM is not 0 on a command other than ENC_SYM. -/
  | symbolUnused
  deriving DecidableEq, Repr

/-- OP, bits [3:0] (R100). -/
def wordOp (w : Word) : BitVec 4 := w.extractLsb' 0 4

/-- RSV0, bits [7:4] (R100). -/
def wordRsv0 (w : Word) : BitVec 4 := w.extractLsb' 4 4

/-- SYM, bits [16:8] (R100, R101). -/
def wordSym (w : Word) : Symbol := w.extractLsb' 8 9

/-- RSV1, bits [31:17] (R100). -/
def wordRsv1 (w : Word) : BitVec 15 := w.extractLsb' 17 15

/-- The opcode map (R102); at 0x8, the operand given. The last line is OP 0xF. -/
def instrOfOp (op : BitVec 4) (sym : Symbol) : Instr :=
  match op.toNat with
  | 0x0 => .nop
  | 0x1 => .count
  | 0x2 => .build
  | 0x3 => .gencodes
  | 0x4 => .wrTree
  | 0x5 => .rdTree
  | 0x6 => .wrHeader
  | 0x7 => .rewind
  | 0x8 => .encSym sym
  | 0x9 => .encode
  | 0xA => .close
  | 0xB => .rdHeader
  | 0xC => .decSym
  | 0xD => .decode
  | 0xE => .clrerr
  | _ => .init

/-- The decode function (R104): a command, or the reason the word is illegal. -/
def decode (w : Word) : Except IllegalWord Instr :=
  if wordRsv0 w ≠ 0 then .error .reservedLow
  else if wordRsv1 w ≠ 0 then .error .reservedHigh
  else if wordOp w = 0x8#4 then
    if legalSymbol (wordSym w) then .ok (.encSym (wordSym w)) else .error .symbolRange
  else if wordSym w ≠ 0 then .error .symbolUnused
  else .ok (instrOfOp (wordOp w) (wordSym w))

/-- A decoded command as an Option. -/
def decoded (r : Except IllegalWord Instr) : Option Instr :=
  match r with
  | .ok i => some i
  | .error _ => none

/-- The command your decoder reads from a word numbered as the opcode table numbers it. A command is one
32-bit word (R100), so there is no byte order to choose (20_memory.md R83). -/
def decodeTableWord (nbits w : Nat) : Option Instr := decoded (decode (BitVec.ofNat 32 (w % 2 ^ nbits)))

/-- The opcode of a command (R102). -/
def opcode : Instr → BitVec 4
  | .nop => 0x0
  | .count => 0x1
  | .build => 0x2
  | .gencodes => 0x3
  | .wrTree => 0x4
  | .rdTree => 0x5
  | .wrHeader => 0x6
  | .rewind => 0x7
  | .encSym _ => 0x8
  | .encode => 0x9
  | .close => 0xA
  | .rdHeader => 0xB
  | .decSym => 0xC
  | .decode => 0xD
  | .clrerr => 0xE
  | .init => 0xF

/-- The SYM field of a command: 0 for all but ENC_SYM (R100). -/
def symOperand : Instr → Symbol
  | .encSym sym => sym
  | .nop | .count | .build | .gencodes | .wrTree | .rdTree | .wrHeader | .rewind | .encode | .close
  | .rdHeader | .decSym | .decode | .clrerr | .init => 0

/-- The command word: the opcode, and the operand shifted to bit 8 (R100, R102). -/
def encode (i : Instr) : Word := (opcode i).setWidth 32 ||| (symOperand i).setWidth 32 <<< 8

end Sys2Proof
end

