-- ==== Sys2Proof/Config.lean ====
section
/-!
DEFINITION. The implementation parameters (spec/00_scope.md R6) and the free values: every value the spec
calls unspecified, 'a draw' (spec/93_implementation_defined.md I4 to I8). An opaque constant has no body,
so no proof can see what it is.
-/

namespace Sys2Proof

/-- W_FREQ: the width of every count, weight and TOTAL, 1 to 32 (R6, D5). -/
abbrev FreqWidth := { w : Nat // 1 ≤ w ∧ w ≤ 32 }

/-- The named parameters of R6 and R80. They are constants of one machine: no step changes them.
The state carries them, so that every statement about every state holds for every P_MAGIC, W_FREQ and
P_BASE (log entry 4). -/
structure Params where
  /-- P_MAGIC (R6, D4), what register MAGIC reads (R38). -/
  magic : Word
  /-- W_FREQ (R6, D5), what register PARAM reads (R39). -/
  wFreq : FreqWidth
  /-- P_BASE, the block's base address on the host bus (R80). -/
  base : Nat
  deriving DecidableEq, Repr

/-- A value cut to W_FREQ bits: what a count, a weight or TOTAL holds of it (R36, R40, R42). -/
def Params.cut (p : Params) (v : Nat) : Word := BitVec.ofNat 32 (v % 2 ^ p.wFreq.val)

/-- The value of P_MAGIC at State.reset: open (D4); nothing is known of it. -/
opaque Config.pMagic : Word

/-- The value of P_BASE at State.reset: open (D16); nothing is known of it. -/
opaque Config.pBase : Nat

/-- The default of W_FREQ (R6). -/
def Config.wFreqDefault : FreqWidth := ⟨32, by decide⟩

/-- FREQ[s] after hardware reset (I4): the draw's index, then s. -/
opaque Config.freeFreq : Nat → Nat → BitVec 32

/-- NODE[i] after hardware reset or a failed RD_TREE (I4, I7): LEAF, SYM, WEIGHT, LEFT, RIGHT as
1 + 9 + 32 + 10 + 10 free bits. -/
opaque Config.freeNode : Nat → Nat → BitVec 62

/-- CODE[s] after hardware reset (I4): VALID, LEN, BITS as 1 + 9 + 256 free bits. -/
opaque Config.freeCode : Nat → Nat → BitVec 266

/-- ROOT and NODE_COUNT after a failed RD_TREE (I7): 10 + 10 free bits. -/
opaque Config.freeTree : Nat → BitVec 20

/-- A window word that reads unspecified (I5, I6): the draw's index, then the offset. -/
opaque Config.freeWindow : Nat → Nat → BitVec 32

/-- A host read while BUSY = 1 (I8, R87): the draw's index, then the offset. -/
opaque Config.freeBusy : Nat → Nat → BitVec 32

/-- How many of its port accesses a command had made when the reset input abandoned it (R260). -/
opaque Config.freeProgress : Nat → Nat

end Sys2Proof
end

