-- ==== Sys2Proof/Machine/State.lean ====
section
/-!
DEFINITION. The state of the block, its two ports and the host that drives it, as plain data
(spec/10_state.md, spec/20_memory.md R70, R71); the reasons a step can stop; the state after reset
(spec/70_reset_and_hazards.md R260, R261).
-/

namespace Sys2Proof.Machine

/-- The errors a command can raise (60_exceptions.md R234). -/
inductive HccError where
  | badHeader
  | malformedTree
  | truncatedStream
  | illegalCommand
  | sequence
  | countOverflow
  | noCode
  | outputClosed
  deriving DecidableEq, Repr

/-- One slot of the node memory (R42). WEIGHT is W_FREQ bits wide, held in 32. -/
structure Node where
  leaf : Bool
  sym : Symbol
  weight : Word
  left : BitVec 10
  right : BitVec 10
  deriving DecidableEq, Repr

/-- One entry of the code table (R45): bit k of `bits` is the k-th edge below the root. -/
structure CodeEntry where
  valid : Bool
  len : BitVec 9
  bits : BitVec 256
  deriving DecidableEq, Repr

/-- One action of the host (20_memory.md R78, R82; 30_encoding.md R111; 60_exceptions.md R250). -/
inductive HostAction where
  /-- MemWrite(addr, width, v) on the host bus (R82). -/
  | write (addr width : Nat) (v : Word)
  /-- MemRead(addr, width) on the host bus (R82). -/
  | read (addr width : Nat)
  /-- @wait: read STATUS until BUSY = 0 (R111). -/
  | wait
  /-- AttachInput(bytes) (R78). -/
  | attachInput (bytes : List Byte)
  /-- AttachOutput() (R78). -/
  | attachOutput
  /-- TakeOutput() (R78). -/
  | takeOutput
  /-- Assert the reset input (R260). -/
  | assertReset
  deriving DecidableEq, Repr

/-- What the host is given (R78, R251). -/
inductive Observation where
  /-- The word of a read (R82). -/
  | word (addr : Nat) (v : Word)
  /-- The bytes of an output stream: one that AttachOutput hands over, or a closed one that TakeOutput reads (R78). -/
  | bytes (bytes : List Byte)
  /-- The bits of an open output stream that TakeOutput reads (R78). -/
  | bits (bits : List Bool)
  deriving DecidableEq, Repr

/-- A fault stops the machine. -/
inductive Fault where
  /-- Raised by GENCODES, WR_TREE, DEC_SYM and DECODE when a walk of the node memory leaves its 513 slots
  or never ends. A stuck state, possible only in states that no run from reset reaches (the invariant
  Inv rules it out). Safe: the model stops where the spec says nothing (log entry 11). -/
  | brokenTree
  deriving DecidableEq, Repr

/-- A refusal: the model has no step for what the host asks. -/
inductive Refusal where
  /-- Raised by an arm of exec whose command has no meaning yet; no arm raises it. Safe. -/
  | notModelled (mnemonic : String)
  /-- Raised by a host access that is not an aligned 32-bit one (R82, I10): 'a model refuses a host program
  that makes one'. Safe. -/
  | undefinedAccess (addr width : Nat)
  /-- Raised by a host access outside the block's 32 KiB (R70): it is not an access to this block. Safe. -/
  | outsideBlock (addr : Nat)
  /-- Raised by a stream action while BUSY = 1 (R78, I12): 'allowed only while STATUS.BUSY = 0'. Safe. -/
  | streamActionWhileBusy
  deriving DecidableEq, Repr

/-- The state of the machine: the block, the two ports (R48), the host's program and observations. -/
structure State where
  /-- P_MAGIC, W_FREQ, P_BASE: constants (R6). -/
  params : Params
  /-- The accepted command word that is running; BUSY = 1 while there is one (R25, R26, R230). -/
  cmd : Option Word
  /-- STATUS.ERR (R27). -/
  err : Bool
  /-- STATUS.FREQ_VALID (R28). -/
  freqValid : Bool
  /-- STATUS.TREE_VALID (R29). -/
  treeValid : Bool
  /-- STATUS.CODES_VALID (R30). -/
  codesValid : Bool
  /-- STATUS.EOF_SEEN (R31). -/
  eofSeen : Bool
  /-- STATUS.OVR (R33). -/
  ovr : Bool
  /-- ERROR.CODE (R34). -/
  errorCode : BitVec 4
  /-- ERROR.OP (R34). -/
  errorOp : BitVec 4
  /-- RESULT.SYM (R35). -/
  resultSym : Symbol
  /-- RESULT.VALID (R35). -/
  resultValid : Bool
  /-- TOTAL (R36). -/
  total : Word
  /-- TREE.ROOT (R37). -/
  root : BitVec 10
  /-- TREE.NODE_COUNT (R37). -/
  nodeCount : BitVec 10
  /-- FREQ[0..256] (R40). -/
  freq : Vector Word 257
  /-- NODE[0..512] (R42). -/
  node : Vector Node 513
  /-- CODE[0..256] (R45). -/
  code : Vector CodeEntry 257
  /-- The input stream (R71). -/
  inBytes : List Byte
  /-- The input's bit position (R71). -/
  inPos : Nat
  /-- The output stream's bits (R71). -/
  outBits : List Bool
  /-- The output port's closed flag, read as STATUS.OUT_CLOSED (R32, R71). -/
  outClosed : Bool
  /-- The host's remaining actions (R251; log entry 2). -/
  host : List HostAction
  /-- What the host has been given, oldest first (R251; log entry 2). -/
  log : List Observation
  /-- The model's own: the index of the next free value (log entry 7). -/
  draw : Nat
  deriving DecidableEq, Repr

/-- FREQ with unspecified contents: draw d of every entry (R40, R260). -/
def freeFreqTable (p : Params) (d : Nat) : Vector Word 257 :=
  Vector.ofFn fun s => Params.cut p (Config.freeFreq d s.val).toNat

/-- A node slot with unspecified contents: draw d of slot i (R42, R260, R244). -/
def freeNodeSlot (p : Params) (d i : Nat) : Node :=
  let bits := Config.freeNode d i
  { leaf := bits.getLsbD 0
    sym := bits.extractLsb' 1 9
    weight := Params.cut p (bits.extractLsb' 10 32).toNat
    left := bits.extractLsb' 42 10
    right := bits.extractLsb' 52 10 }

/-- NODE with unspecified contents (R42, R260, R244). -/
def freeNodeTable (p : Params) (d : Nat) : Vector Node 513 :=
  Vector.ofFn fun i => freeNodeSlot p d i.val

/-- CODE with unspecified contents (R45, R260). -/
def freeCodeTable (d : Nat) : Vector CodeEntry 257 :=
  Vector.ofFn fun s =>
    let bits := Config.freeCode d s.val
    { valid := bits.getLsbD 0, len := bits.extractLsb' 1 9, bits := bits.extractLsb' 10 256 }

/-- The launch state of R261 for given parameters and input: the reset state of R260 with the input
attached at position 0 and a fresh output. -/
def State.launch (p : Params) (input : List Byte) : State where
  params := p
  cmd := none
  err := false
  freqValid := false
  treeValid := false
  codesValid := false
  eofSeen := false
  ovr := false
  errorCode := 0
  errorOp := 0
  resultSym := 0
  resultValid := false
  total := 0
  root := 0
  nodeCount := 0
  freq := freeFreqTable p 0
  node := freeNodeTable p 0
  code := freeCodeTable 0
  inBytes := input
  inPos := 0
  outBits := []
  outClosed := false
  host := []
  log := []
  draw := 1

/-- The machine right after reset (R260, R261): open parameters, W_FREQ at its default, no input yet. -/
def State.reset : State :=
  State.launch { magic := Config.pMagic, wFreq := Config.wFreqDefault, base := Config.pBase } []

end Sys2Proof.Machine
end

