-- ==== Sys2Proof/Machine/Ops.lean ====
section
/-!
DEFINITION. The named operations every command is made of: the two ports (spec/20_memory.md R72 to R76),
the tables (spec/10_state.md R40 to R45), raising an error (spec/60_exceptions.md R233), and the error-state
filter (R231).
-/

namespace Sys2Proof.Machine

/-- The outcome of a command. -/
abbrev Outcome := Host.Outcome State Fault Refusal

/-! ### Bits and fields -/

/-- The low n bits of v, most significant first: the order of OutWrite(n, v) (R74, R76). -/
def fieldBits (n v : Nat) : List Bool := (List.range n).map fun k => v.testBit (n - 1 - k)

/-- The value of bits read most significant first (R72). -/
def bitsValue (bits : List Bool) : Nat := bits.foldl (fun v b => 2 * v + b.toNat) 0

/-- The bits of a byte in stream order: bit 7 first (R76). -/
def byteBits (b : Byte) : List Bool := fieldBits 8 b.toNat

/-- The bits of a byte sequence in stream order (R76). -/
def streamBits (bytes : List Byte) : List Bool := bytes.flatMap byteBits

/-- The bytes of a bit sequence, most significant bit first (R76); bits short of a byte are dropped. They are also
the bytes that InRead(8), repeated until EOS, returns (R72, R131, R186). -/
def streamBytes : List Bool → List Byte
  | b7 :: b6 :: b5 :: b4 :: b3 :: b2 :: b1 :: b0 :: rest =>
    BitVec.ofNat 8 (bitsValue [b7, b6, b5, b4, b3, b2, b1, b0]) :: streamBytes rest
  | _ => []

/-! ### The input port -/

/-- T, the number of bits of the input stream (R72). -/
def State.inEnd (s : State) : Nat := 8 * s.inBytes.length

/-- The bits of the input from inPos to its end. -/
def State.inRest (s : State) : List Bool := (streamBits s.inBytes).drop s.inPos

/-- InRead(n) on the bits that remain: a value and the bits after it, or none for EOS (R72). -/
def inRead (n : Nat) (bits : List Bool) : Option (Nat × List Bool) :=
  if bits.length < n then none else some (bitsValue (bits.take n), bits.drop n)

/-- The input port after reads that left `rest` of the remaining bits: inPos has moved past what was
read (R72). -/
def State.inAdvance (s : State) (rest : List Bool) : State :=
  { s with inPos := s.inPos + (s.inRest.length - rest.length) }

/-- The input port after a read that returned EOS: inPos <- T, the remaining bits are consumed (R72). -/
def State.inToEnd (s : State) : State := { s with inPos := s.inEnd }

/-- InRewind(): inPos <- 0 (R73). -/
def State.inRewind (s : State) : State := { s with inPos := 0 }

/-- The input port after k reads of 8 bits that returned values (R72). -/
def State.inAdvanceBytes (s : State) (k : Nat) : State := { s with inPos := s.inPos + 8 * k }

/-! ### The output port -/

/-- Appends bits to the output stream, first bit first (R74). -/
def State.outAppend (s : State) (bits : List Bool) : State := { s with outBits := s.outBits ++ bits }

/-- OutWrite(n, v) (R74). -/
def State.outWrite (s : State) (n v : Nat) : State := s.outAppend (fieldBits n v)

/-- Zero bits up to a whole number of bytes (R75). -/
def padding (n : Nat) : List Bool := List.replicate ((8 - n % 8) % 8) false

/-- OutClose(): if open, pad with zero bits to a byte boundary and set closed (R75). -/
def State.outClose (s : State) : State :=
  if s.outClosed then s
  else { s with outBits := s.outBits ++ padding s.outBits.length, outClosed := true }

/-! ### The tables -/

/-- NODE[0 ..] <- the given nodes; the slots after them keep their contents (R140, R165). -/
def fillNodes (mem : Vector Node 513) (nodes : List Node) : Vector Node 513 :=
  Vector.ofFn fun i => (nodes[i.val]?).getD mem[i.val]

/-- An entry of CODE with VALID = 0, LEN = 0, BITS = 0 (R45, R150). -/
def CodeEntry.empty : CodeEntry := { valid := false, len := 0, bits := 0 }

/-- The number whose bit k is the k-th bit of the path (R45). -/
def pathValue : List Bool → Nat
  | [] => 0
  | b :: path => b.toNat + 2 * pathValue path

/-- The entry of CODE that holds a path: VALID, its length, and its bits followed by zeros (R45, R150). -/
def CodeEntry.ofPath (path : List Bool) : CodeEntry :=
  { valid := true, len := BitVec.ofNat 9 path.length, bits := BitVec.ofNat 256 (pathValue path) }

/-- The code of an entry: BITS[0], ..., BITS[LEN-1], root to leaf (R45, R183). -/
def CodeEntry.path (e : CodeEntry) : List Bool := (List.range e.len.toNat).map fun k => e.bits.getLsbD k

/-- CODE[sym]; a symbol above 256 has no entry (R45). -/
def State.codeOf (s : State) (sym : Nat) : CodeEntry := (s.code[sym]?).getD CodeEntry.empty

/-! ### Errors -/

/-- The number of an error in ERROR.CODE (R234). -/
def HccError.number : HccError → BitVec 4
  | .badHeader => 1
  | .malformedTree => 2
  | .truncatedStream => 3
  | .illegalCommand => 4
  | .sequence => 5
  | .countOverflow => 6
  | .noCode => 7
  | .outputClosed => 8

/-- raise Error(X) of a command with opcode `op`: ERR <- 1 and ERROR <- X, `op`, unless the block is in the
error state already (R233). The command ends there: its meaning answers this state. -/
def State.raise (s : State) (e : HccError) (op : BitVec 4) : State :=
  if s.err then s else { s with err := true, errorCode := e.number, errorOp := op }

/-- Leaving the error state, the part CLRERR and INIT share: ERR, OVR and ERROR <- 0 (R221, R222, R246). -/
def State.clearError (s : State) : State :=
  { s with err := false, ovr := false, errorCode := 0, errorOp := 0 }

/-- The registers as reset and INIT leave them (R222, R260): every flag of STATUS but OUT_CLOSED, and ERROR,
RESULT, TOTAL, TREE <- 0. -/
def State.clearRegisters (s : State) : State :=
  { s.clearError with
    freqValid := false
    treeValid := false
    codesValid := false
    eofSeen := false
    resultSym := 0
    resultValid := false
    total := 0
    root := 0
    nodeCount := 0 }

/-- The error-state filter: while ERR = 1 the command is ignored and changes nothing (R231). -/
def unlessErr (s : State) (run : Outcome) : Outcome := if s.err then .next s else run

end Sys2Proof.Machine
end

