-- ==== Sys2Proof/Machine/Flags.lean ====
section
/-!
DEFINITION. The status flags: STATUS as a word (spec/10_state.md R25 to R33), the preconditions they stand for
(spec/60_exceptions.md R232, R240), and what the commands that rewrite a table clear (spec/10_state.md R28 to R31).
-/

namespace Sys2Proof.Machine

/-- STATUS.BUSY: a command is running (R26). -/
def State.busy (s : State) : Bool := s.cmd.isSome

/-- STATUS (R25): OVR, OUT_CLOSED, EOF_SEEN, CODES_VALID, TREE_VALID, FREQ_VALID, ERR, BUSY from bit 7 down. -/
def State.status (s : State) : Word :=
  0#24 ++ BitVec.ofBool s.ovr ++ BitVec.ofBool s.outClosed ++ BitVec.ofBool s.eofSeen
    ++ BitVec.ofBool s.codesValid ++ BitVec.ofBool s.treeValid ++ BitVec.ofBool s.freqValid
    ++ BitVec.ofBool s.err ++ BitVec.ofBool s.busy

/-- The precondition of a command that reads a table: its valid flag is 1, else SEQUENCE before any effect
(R240, R235 step 4). -/
def needsValid (s : State) (flag : Bool) (op : BitVec 4) (run : Outcome) : Outcome :=
  if flag then run else .next (s.raise .sequence op)

/-- The precondition of a command that can write output: OUT_CLOSED = 0, else OUTPUT_CLOSED before any effect
(R232, R235 step 5). -/
def needsOpen (s : State) (op : BitVec 4) (run : Outcome) : Outcome :=
  if s.outClosed then .next (s.raise .outputClosed op) else run

/-- What BUILD and RD_TREE clear when they begin: TREE_VALID, CODES_VALID, EOF_SEEN (R29, R30, R31). -/
def State.dropTree (s : State) : State :=
  { s with treeValid := false, codesValid := false, eofSeen := false }

/-- A complete tree of `count` slots with its root in slot `root`: NODE is given, ROOT and NODE_COUNT are
written and TREE_VALID set (R29, R37). -/
def State.setTree (s : State) (node : Vector Node 513) (root count : BitVec 10) : State :=
  { s with node := node, root := root, nodeCount := count, treeValid := true }

/-- What DEC_SYM and DECODE clear when they begin: EOF_SEEN and RESULT.VALID (R31, R35). -/
def State.dropResult (s : State) : State := { s with eofSeen := false, resultValid := false }

/-- RESULT.SYM <- v, RESULT.VALID <- 1 (R35). -/
def State.setResult (s : State) (v : Symbol) : State := { s with resultSym := v, resultValid := true }

end Sys2Proof.Machine
end

