-- ==== Sys2Proof/Machine/Builder.lean ====
section
/-!
DEFINITION. The tree builder: BUILD (spec/41_tree_builder.md R140 to R146).
-/

namespace Sys2Proof.Machine

/-- The leaf of a symbol with its count (R140, R42). -/
def leafNode (sym : Nat) (weight : Word) : Node :=
  { leaf := true, sym := BitVec.ofNat 9 sym, weight := weight, left := 0, right := 0 }

/-- The leaves of BUILD: one for each symbol with a non-zero count, in ascending symbol order (R141). -/
def leavesFrom : Nat → List Word → List Node
  | _, [] => []
  | sym, weight :: rest =>
    if weight = 0#32 then leavesFrom (sym + 1) rest else leafNode sym weight :: leavesFrom (sym + 1) rest

/-- An entry of the active set: a node's weight and slot, its priority key (R142). -/
structure Key where
  weight : Word
  slot : Nat
  deriving DecidableEq, Repr

/-- The order of keys: weight first, then slot (R142). -/
def Key.before (a b : Key) : Bool :=
  decide (a.weight.toNat < b.weight.toNat) || (decide (a.weight = b.weight) && decide (a.slot < b.slot))

/-- Puts a key in its place in an active set kept in rising order, so that its head is the argmin of R140
(R146 allows any way of keeping the set). -/
def insertKey (k : Key) : List Key → List Key
  | [] => [k]
  | a :: rest => if k.before a then k :: a :: rest else a :: insertKey k rest

/-- The active set of the leaves: slots i, i + 1, ... (R140). -/
def leafKeys : Nat → List Node → List Key
  | _, [] => []
  | i, n :: rest => insertKey { weight := n.weight, slot := i } (leafKeys (i + 1) rest)

/-- The internal node over two keys: the first removed is LEFT, the second RIGHT, and its weight is their sum in
W_FREQ bits (R143; R145: after a COUNT the sum always fits). -/
def mergeNode (p : Params) (a b : Key) : Node :=
  { leaf := false, sym := 0, weight := p.cut (a.weight.toNat + b.weight.toNat),
    left := BitVec.ofNat 10 a.slot, right := BitVec.ofNat 10 b.slot }

/-- The merges of R140, the next free slot being `n`: the internal nodes in creation order. Each merge takes two
keys and puts one back, so as many levels of `fuel` as there are keys are never used up. -/
def mergeLoop (p : Params) : Nat → List Key → Nat → List Node
  | fuel + 1, a :: b :: rest, n =>
    let node := mergeNode p a b
    node :: mergeLoop p fuel (insertKey { weight := node.weight, slot := n } rest) (n + 1)
  | _, _, _ => []

/-- The slots BUILD fills, from slot 0 up: the leaves, then the internal nodes (R140, R144). -/
def buildNodes (p : Params) (freq : Vector Word 257) : List Node :=
  let leaves := leavesFrom 0 freq.toList
  leaves ++ mergeLoop p leaves.length (leafKeys 0 leaves) leaves.length

/-- BUILD (R140): SEQUENCE without a valid FREQ; else the tree, ROOT = n - 1, NODE_COUNT = n. -/
def execBuild (s : State) : Outcome :=
  unlessErr s <| needsValid s s.freqValid 0x2 <|
    let nodes := buildNodes s.params s.freq
    let count := BitVec.ofNat 10 nodes.length
    .next (s.dropTree.setTree (fillNodes s.node nodes) (count - 1) count)

end Sys2Proof.Machine
end

