-- ==== Sys2Proof/Machine/Tree.lean ====
section
/-!
DEFINITION. The tree the node memory holds (spec/10_state.md R22, R42, R44), its preorder encoding
(spec/30_encoding.md R105), its slots in preorder (spec/43_tree_codec.md R165), and the code paths
(spec/42_code_table.md R150, R151).
-/

namespace Sys2Proof.Machine

/-- A strict binary tree over symbols (R22): what the slots reachable from a slot stand for. -/
inductive HTree where
  | leaf (sym : Symbol)
  | node (left right : HTree)
  deriving DecidableEq, Repr

/-- The tree below slot i of the node memory; none where the walk leaves the memory or passes more than `fuel`
slots on one path. With `fuel` 513, the number of slots, that happens only if the walk never ends. -/
def readTree (mem : Vector Node 513) : Nat → Nat → Option HTree
  | 0, _ => none
  | fuel + 1, i =>
    match mem[i]? with
    | none => none
    | some n =>
      if n.leaf then some (.leaf n.sym)
      else
        match readTree mem fuel n.left.toNat, readTree mem fuel n.right.toNat with
        | some l, some r => some (.node l r)
        | _, _ => none

/-- The tree below ROOT. -/
def State.tree (s : State) : Option HTree := readTree s.node 513 s.root.toNat

/-- A command that walks the whole tree below ROOT; a memory that holds no tree there is a stuck state. -/
def withTree (s : State) (run : HTree → Outcome) : Outcome :=
  match s.tree with
  | some t => run t
  | none => .fault .brokenTree

/-- The leaves of a tree, left to right. -/
def HTree.symbols : HTree → List Symbol
  | .leaf sym => [sym]
  | .node l r => l.symbols ++ r.symbols

/-- The number of slots a tree occupies. -/
def HTree.size : HTree → Nat
  | .leaf _ => 1
  | .node l r => 1 + l.size + r.size

/-- The number of internal nodes. -/
def HTree.internals : HTree → Nat
  | .leaf _ => 0
  | .node l r => 1 + l.internals + r.internals

/-- The preorder encoding (R105): an internal node is a 0 and its two subtrees, a leaf is a 1 and its symbol in
9 bits. This is what ser of R160 writes. -/
def HTree.encoding : HTree → List Bool
  | .leaf sym => fieldBits 1 1 ++ fieldBits 9 sym.toNat
  | .node l r => fieldBits 1 0 ++ l.encoding ++ r.encoding

/-- The leaves with their paths in preorder, the order walk of R150 meets them in: 0 to the left, 1 to the right
(R151, R152). -/
def HTree.paths : HTree → List Bool → List (Symbol × List Bool)
  | .leaf sym, path => [(sym, path)]
  | .node l r, path => l.paths (path ++ [false]) ++ r.paths (path ++ [true])

/-- The slots of a tree read by RD_TREE, its root at slot i: preorder, so the left child is the next slot and the
right child follows the left subtree; WEIGHT is 0 (R164, R165). -/
def HTree.layout : HTree → Nat → List Node
  | .leaf sym, _ => [{ leaf := true, sym := sym, weight := 0, left := 0, right := 0 }]
  | .node l r, i =>
    { leaf := false, sym := 0, weight := 0, left := BitVec.ofNat 10 (i + 1),
      right := BitVec.ofNat 10 (i + 1 + l.size) } :: l.layout (i + 1) ++ r.layout (i + 1 + l.size)

/-- The answer of des() (R164): a tree, the bits after it and the internal nodes read so far; or the error, with
the bits that remain, none where the failing read was an EOS. -/
inductive ParseResult where
  | tree (t : HTree) (rest : List Bool) (internals : Nat)
  | malformed (rest : Option (List Bool))
  deriving DecidableEq, Repr

/-- des() of R164 on the bits that remain, with `k` internal nodes read so far: the tag (R169), the node limit
(R166), the leaf value and its range (R167, R169). Each level of `fuel` is one internal node on the path, so 257
levels are never used up: at that depth the node limit has struck. -/
def parseTree : Nat → Nat → List Bool → ParseResult
  | 0, _, bits => .malformed (some bits)
  | fuel + 1, k, bits =>
    match inRead 1 bits with
    | none => .malformed none
    | some (tag, bits) =>
      if tag = 0 then
        if k = 256 then .malformed (some bits)
        else
          match parseTree fuel (k + 1) bits with
          | .malformed rest => .malformed rest
          | .tree l bits k =>
            match parseTree fuel k bits with
            | .malformed rest => .malformed rest
            | .tree r bits k => .tree (.node l r) bits k
      else
        match inRead 9 bits with
        | none => .malformed none
        | some (v, bits) =>
          if v > 256 then .malformed (some bits) else .tree (.leaf (BitVec.ofNat 9 v)) bits k

/-- A root that is a leaf with a symbol other than 256 (R168). -/
def HTree.badRoot : HTree → Bool
  | .leaf sym => sym != eofSym
  | .node _ _ => false

end Sys2Proof.Machine
end

