-- ==== Sys2Proof/Machine/CodeTable.lean ====
section
/-!
DEFINITION. The code-table generator: GENCODES (spec/42_code_table.md R150 to R157).
-/

namespace Sys2Proof.Machine

/-- CODE[s] <- VALID, the path's length and bits (R150). A later leaf with the same symbol overwrites it (R155). -/
def recordCode (code : Vector CodeEntry 257) (leaf : Symbol × List Bool) : Vector CodeEntry 257 :=
  code.setIfInBounds leaf.1.toNat (CodeEntry.ofPath leaf.2)

/-- The code table of a tree: cleared, then each leaf recorded in preorder (R150, R152). -/
def codesOf (t : HTree) : Vector CodeEntry 257 :=
  (t.paths []).foldl recordCode (Vector.replicate 257 CodeEntry.empty)

/-- GENCODES (R150). -/
def execGencodes (s : State) : Outcome :=
  unlessErr s <| needsValid s s.treeValid 0x3 <| withTree s fun t =>
    .next { s with code := codesOf t, codesValid := true }

end Sys2Proof.Machine
end

