-- ==== Sys2Proof/Machine/Control.lean ====
section
/-!
DEFINITION. The control commands: NOP, CLRERR, INIT (spec/46_control.md R220 to R222).
-/

namespace Sys2Proof.Machine

/-- NOP (R220): nothing, in the error state too. -/
def execNop (s : State) : Outcome := .next s

/-- CLRERR (R221): it runs in the error state (R231) and leaves it (R246). -/
def execClrerr (s : State) : Outcome := .next s.clearError

/-- INIT (R222): the registers as after reset; tables and ports keep their contents (R262). -/
def execInit (s : State) : Outcome := .next s.clearRegisters

end Sys2Proof.Machine
end

