-- ==== Sys2Proof/Machine/Counter.lean ====
section
/-!
DEFINITION. The frequency counter: COUNT (spec/40_frequency_counter.md R130 to R133).
-/

namespace Sys2Proof.Machine

/-- FREQ as COUNT starts it: 0 everywhere but FREQ[256] = 1 (R130). -/
def freqStart : Vector Word 257 := (Vector.replicate 257 0).set 256 1

/-- FREQ[b] <- FREQ[b] + 1 (R130). -/
def bumpFreq (freq : Vector Word 257) (b : Byte) : Vector Word 257 :=
  freq.set b.toNat (freq[b.toNat]'(by have := b.isLt; omega) + 1) (by have := b.isLt; omega)

/-- The largest count of W_FREQ bits, 2^W_FREQ - 1 (R132). -/
def maxCount (p : Params) : Nat := 2 ^ p.wFreq.val - 1

/-- What the loop of COUNT leaves: the counts, TOTAL, and, where it overflowed, the bytes not read yet. -/
structure CountRun where
  freq : Vector Word 257
  total : Word
  overflow : Option (List Byte)
  deriving DecidableEq, Repr

/-- The loop of COUNT over the bytes its reads return (R130, R132). -/
def countLoop (limit : Nat) : List Byte → Vector Word 257 → Word → CountRun
  | [], freq, total => { freq := freq, total := total, overflow := none }
  | b :: bytes, freq, total =>
    if total.toNat = limit then { freq := freq, total := total, overflow := some bytes }
    else countLoop limit bytes (bumpFreq freq b) (total + 1)

/-- COUNT (R130). On overflow the byte that did not fit has been consumed and FREQ_VALID stays 0 (R132). -/
def execCount (s : State) : Outcome :=
  unlessErr s <|
    let bytes := streamBytes s.inRest
    let run := countLoop (maxCount s.params) bytes freqStart 1
    let counted := { s with freqValid := false, freq := run.freq, total := run.total }
    match run.overflow with
    | none => .next { counted.inToEnd with freqValid := true }
    | some rest => .next ((counted.inAdvanceBytes (bytes.length - rest.length)).raise .countOverflow 0x1)

end Sys2Proof.Machine
end

