-- ==== Sys2Proof/Machine/Decoder.lean ====
section
/-!
DEFINITION. The decoder: RD_HEADER, DEC_SYM, DECODE (spec/45_decoder.md R200 to R208).
-/

namespace Sys2Proof.Machine

/-- RD_HEADER (R200): 32 bits that must be P_MAGIC; too few bits, or others, raise BAD_HEADER (R236). -/
def execRdHeader (s : State) : Outcome :=
  unlessErr s <|
    match inRead 32 s.inRest with
    | none => .next (s.inToEnd.raise .badHeader 0xB)
    | some (v, rest) =>
      if v = s.params.magic.toNat then .next (s.inAdvance rest)
      else .next ((s.inAdvance rest).raise .badHeader 0xB)

/-- The answer of decodeOne() (R201): a symbol and the bits that remain, EOS before a leaf, or a walk that leaves
the node memory. -/
inductive WalkResult where
  | symbol (v : Symbol) (rest : List Bool)
  | eos
  | broken
  deriving DecidableEq, Repr

/-- The loop of decodeOne() at the internal node `cur`: read a bit, go LEFT on 0 and RIGHT on 1, stop at a leaf
(R201). -/
def descend (mem : Vector Node 513) : Node → List Bool → WalkResult
  | _, [] => .eos
  | cur, b :: bits =>
    match mem[(if b then cur.right else cur.left).toNat]? with
    | none => .broken
    | some n => if n.leaf then .symbol n.sym bits else descend mem n bits

/-- decodeOne() (R201): a root that is a leaf is returned before any bit is read. -/
def decodeOne (mem : Vector Node 513) (root : Nat) (bits : List Bool) : WalkResult :=
  match mem[root]? with
  | none => .broken
  | some n => if n.leaf then .symbol n.sym bits else descend mem n bits

/-- DEC_SYM (R202): the symbol goes to RESULT; the sentinel sets EOF_SEEN, another is written as 8 bits (R203). -/
def execDecSym (s : State) : Outcome :=
  unlessErr s <| needsValid s s.treeValid 0xC <| needsOpen s 0xC <|
    match decodeOne s.node s.root.toNat s.inRest with
    | .broken => .fault .brokenTree
    | .eos => .next (s.dropResult.inToEnd.raise .truncatedStream 0xC)
    | .symbol v rest =>
      let decoded := (s.dropResult.inAdvance rest).setResult v
      if v = eofSym then .next { decoded with eofSeen := true } else .next (decoded.outWrite 8 v.toNat)

/-- How the loop of DECODE ends: at the sentinel with the bits that remain, at EOS, or in a walk that leaves the
node memory or never ends. -/
inductive DecodeStop where
  | sentinel (rest : List Bool)
  | eos
  | broken
  deriving DecidableEq, Repr

/-- What the loop of DECODE leaves: the bits written, the last symbol decoded if any, and how it ended. -/
structure DecodeRun where
  bits : List Bool
  last : Option Symbol
  stop : DecodeStop
  deriving DecidableEq, Repr

/-- The loop of DECODE (R206), the last symbol so far being `last`. From an internal root each symbol reads at
least one bit (R208), so one more level of `fuel` than there are bits is used up only by a root that is a leaf
other than the sentinel, which would be decoded forever (R168). -/
def decodeLoop (mem : Vector Node 513) (root : Nat) : Nat → List Bool → Option Symbol → DecodeRun
  | 0, _, last => { bits := [], last := last, stop := .broken }
  | fuel + 1, bits, last =>
    match decodeOne mem root bits with
    | .broken => { bits := [], last := last, stop := .broken }
    | .eos => { bits := [], last := last, stop := .eos }
    | .symbol v rest =>
      if v = eofSym then { bits := [], last := some v, stop := .sentinel rest }
      else
        let run := decodeLoop mem root fuel rest (some v)
        { run with bits := fieldBits 8 v.toNat ++ run.bits }

/-- RESULT after a DECODE whose last symbol is `last`: unchanged but for VALID if there was none (R206). -/
def State.setLast (s : State) (last : Option Symbol) : State :=
  match last with
  | none => s
  | some v => s.setResult v

/-- DECODE (R206). -/
def execDecode (s : State) : Outcome :=
  unlessErr s <| needsValid s s.treeValid 0xD <| needsOpen s 0xD <|
    let bits := s.inRest
    let run := decodeLoop s.node s.root.toNat (bits.length + 1) bits none
    let decoded := (s.dropResult.outAppend run.bits).setLast run.last
    match run.stop with
    | .broken => .fault .brokenTree
    | .eos => .next (decoded.inToEnd.raise .truncatedStream 0xD)
    | .sentinel rest => .next { decoded.inAdvance rest with eofSeen := true }

end Sys2Proof.Machine
end

