-- ==== Sys2Proof/Machine/Operands.lean ====
section
/-!
DEFINITION. The one operand form of the block: the SYM field of ENC_SYM (spec/30_encoding.md R101, R103).
-/

namespace Sys2Proof.Machine

/-- A command whose operand is the symbol `sym`: SYM above 256 is an illegal command, raised before any
effect (R103, R235 step 3). The decoder refuses such a word already; a meaning given one raises too. -/
def withSymbol (s : State) (op : BitVec 4) (sym : Symbol) (run : Nat → Outcome) : Outcome :=
  if legalSymbol sym then run sym.toNat else .next (s.raise .illegalCommand op)

end Sys2Proof.Machine
end

