-- ==== Sys2Proof/Machine/Encoder.lean ====
section
/-!
DEFINITION. The encoder and the output port: WR_HEADER, REWIND, ENC_SYM, ENCODE, CLOSE
(spec/44_encoder.md R180 to R191).
-/

namespace Sys2Proof.Machine

/-- WR_HEADER (R180): P_MAGIC, 32 bits, most significant first. -/
def execWrHeader (s : State) : Outcome :=
  unlessErr s <| needsOpen s 0x6 <| .next (s.outWrite 32 s.params.magic.toNat)

/-- REWIND (R181). -/
def execRewind (s : State) : Outcome := unlessErr s <| .next s.inRewind

/-- ENC_SYM sym (R182): the code of sym, root to leaf; NO_CODE before any bit of it (R184). -/
def execEncSym (sym : Symbol) (s : State) : Outcome :=
  unlessErr s <| withSymbol s 0x8 sym fun sym => needsValid s s.codesValid 0x8 <| needsOpen s 0x8 <|
    let entry := s.codeOf sym
    if entry.valid then .next (s.outAppend entry.path) else .next (s.raise .noCode 0x8)

/-- What the loop of ENCODE leaves: the bits written, and, where a byte had no code, the bytes not read yet. -/
structure EncodeRun where
  bits : List Bool
  noCode : Option (List Byte)
  deriving DecidableEq, Repr

/-- The loop of ENCODE over the bytes its reads return (R186). -/
def encodeLoop (code : Nat → CodeEntry) : List Byte → EncodeRun
  | [] => { bits := [], noCode := none }
  | b :: bytes =>
    let entry := code b.toNat
    if entry.valid then
      let run := encodeLoop code bytes
      { run with bits := entry.path ++ run.bits }
    else { bits := [], noCode := some bytes }

/-- ENCODE (R186): the codes of the rest of the input, then the code of 256. -/
def execEncode (s : State) : Outcome :=
  unlessErr s <| needsValid s s.codesValid 0x9 <| needsOpen s 0x9 <|
    let bytes := streamBytes s.inRest
    let run := encodeLoop s.codeOf bytes
    let written := s.outAppend run.bits
    match run.noCode with
    | some rest => .next ((written.inAdvanceBytes (bytes.length - rest.length)).raise .noCode 0x9)
    | none =>
      let terminator := s.codeOf 256
      if terminator.valid then .next (written.outAppend terminator.path).inToEnd
      else .next (written.inToEnd.raise .noCode 0x9)

/-- CLOSE (R190): it runs in the error state too (R231, R191). -/
def execClose (s : State) : Outcome := .next s.outClose

end Sys2Proof.Machine
end

