-- ==== Sys2Proof/Machine/TreeCodec.lean ====
section
/-!
DEFINITION. The tree serializer and deserializer: WR_TREE and RD_TREE (spec/43_tree_codec.md R160 to R169).
-/

namespace Sys2Proof.Machine

/-- WR_TREE (R160): the preorder encoding of the tree goes to the output. -/
def execWrTree (s : State) : Outcome :=
  unlessErr s <| needsValid s s.treeValid 0x4 <| needsOpen s 0x4 <| withTree s fun t =>
    .next (s.outAppend t.encoding)

/-- What a failed RD_TREE leaves unspecified: every NODE slot, ROOT and NODE_COUNT are free values (R37, R244,
I7; log entry 8). -/
def State.looseTree (s : State) : State :=
  { s with
    node := freeNodeTable s.params s.draw
    root := (Config.freeTree s.draw).extractLsb' 0 10
    nodeCount := (Config.freeTree s.draw).extractLsb' 10 10
    draw := s.draw + 1 }

/-- The input port after a read that ended with `rest` bits left, or with EOS (R72). -/
def State.inAfter (s : State) (rest : Option (List Bool)) : State :=
  match rest with
  | none => s.inToEnd
  | some bits => s.inAdvance bits

/-- The end of an RD_TREE that fails (R164, R237, R244). -/
def malformed (s : State) (rest : Option (List Bool)) : Outcome :=
  .next ((s.dropTree.looseTree.inAfter rest).raise .malformedTree 0x5)

/-- RD_TREE (R164): a tree is read, its root is checked (R168), and its nodes go to slots 0 .. in preorder (R165). -/
def execRdTree (s : State) : Outcome :=
  unlessErr s <|
    match parseTree 257 0 s.inRest with
    | .malformed rest => malformed s rest
    | .tree t rest _ =>
      if t.badRoot then malformed s (some rest)
      else
        .next ((s.dropTree.setTree (fillNodes s.node (t.layout 0)) 0 (BitVec.ofNat 10 t.size)).inAdvance rest)

end Sys2Proof.Machine
end

