-- ==== Sys2Proof/Machine/Dispatch.lean ====
section
/-!
DEFINITION. One arm per command: the meaning of each (spec/30_encoding.md R102).
-/

namespace Sys2Proof.Machine

/-- The meaning of a command in a state (files 40 to 46 of spec/, each arm one rule). -/
def exec (i : Instr) (s : State) : Host.Outcome State Fault Refusal :=
  match i with
  | .nop => Sys2Proof.Machine.execNop s
  | .count => Sys2Proof.Machine.execCount s
  | .build => Sys2Proof.Machine.execBuild s
  | .gencodes => Sys2Proof.Machine.execGencodes s
  | .wrTree => Sys2Proof.Machine.execWrTree s
  | .rdTree => Sys2Proof.Machine.execRdTree s
  | .wrHeader => Sys2Proof.Machine.execWrHeader s
  | .rewind => Sys2Proof.Machine.execRewind s
  | .encSym sym => Sys2Proof.Machine.execEncSym sym s
  | .encode => Sys2Proof.Machine.execEncode s
  | .close => Sys2Proof.Machine.execClose s
  | .rdHeader => Sys2Proof.Machine.execRdHeader s
  | .decSym => Sys2Proof.Machine.execDecSym s
  | .decode => Sys2Proof.Machine.execDecode s
  | .clrerr => Sys2Proof.Machine.execClrerr s
  | .init => Sys2Proof.Machine.execInit s

end Sys2Proof.Machine
end

