-- ==== Sys2Proof/Machine/Ports.lean ====
section
/-!
DEFINITION. The port accesses of each command, in the order its pseudocode makes them, each of 1, 8, 9 or 32 bits
(spec/20_memory.md R70, R79). A reset input that abandons a command leaves the ports as some first part of them does
(spec/70_reset_and_hazards.md R260).
-/

namespace Sys2Proof.Machine

/-- One access to a port; it is atomic (R79). -/
inductive PortAccess where
  /-- InRead(n) (R72). -/
  | read (n : Nat)
  /-- InRewind() (R73). -/
  | rewind
  /-- OutWrite(n, v) (R74). -/
  | write (n v : Nat)
  /-- OutClose() (R75). -/
  | close
  deriving DecidableEq, Repr

/-- What a port access does to the ports (R72 to R75). -/
def State.access (s : State) : PortAccess → State
  | .read n => if s.inEnd < s.inPos + n then s.inToEnd else { s with inPos := s.inPos + n }
  | .rewind => s.inRewind
  | .write n v => s.outWrite n v
  | .close => s.outClose

/-- Port accesses, one after the other. -/
def State.accesses (s : State) (list : List PortAccess) : State := list.foldl State.access s

/-! ### The accesses of each command -/

/-- OutBit of each bit of a code (R183, R186). -/
def bitWrites (bits : List Bool) : List PortAccess := bits.map fun b => .write 1 b.toNat

/-- COUNT reads 8 bits at a time: the bytes and then EOS, or the bytes through the one that did not fit (R130 to R132). -/
def countAccesses (s : State) : List PortAccess :=
  let bytes := streamBytes s.inRest
  match (countLoop (maxCount s.params) bytes freqStart 1).overflow with
  | none => List.replicate (bytes.length + 1) (.read 8)
  | some rest => List.replicate (bytes.length - rest.length) (.read 8)

/-- WR_TREE writes one bit for an internal node, one and nine for a leaf (R160, R161). -/
def HTree.writes : HTree → List PortAccess
  | .leaf sym => [.write 1 1, .write 9 sym.toNat]
  | .node l r => .write 1 0 :: l.writes ++ r.writes

/-- The reads of RD_TREE over the bits it consumes, the next `skip` of them being read already: a tag, and after a 1 the
nine bits of a leaf value (R164). Where the input ended (`eos`), the last read is the one that found too few bits. -/
def treeReads (eos : Bool) : Nat → List Bool → List PortAccess
  | 0, [] => if eos then [.read 1] else []
  | _ + 1, [] => []
  | 0, false :: bits => .read 1 :: treeReads eos 0 bits
  | 0, true :: bits => .read 1 :: .read 9 :: treeReads eos 9 bits
  | skip + 1, _ :: bits => treeReads eos skip bits

/-- RD_TREE (R164). -/
def rdTreeAccesses (s : State) : List PortAccess :=
  match parseTree 257 0 s.inRest with
  | .malformed none => treeReads true 0 s.inRest
  | .malformed (some rest) => treeReads false 0 (s.inRest.take (s.inRest.length - rest.length))
  | .tree _ rest _ => treeReads false 0 (s.inRest.take (s.inRest.length - rest.length))

/-- ENC_SYM (R182). -/
def encSymAccesses (s : State) (sym : Nat) : List PortAccess :=
  if (s.codeOf sym).valid then bitWrites (s.codeOf sym).path else []

/-- ENCODE over the bytes its reads return: a read and the bits of the code, for each byte; at EOS the terminator (R186). -/
def encodeAccesses (code : Nat → CodeEntry) : List Byte → List PortAccess
  | [] => .read 8 :: if (code 256).valid then bitWrites (code 256).path else []
  | b :: bytes =>
    .read 8 :: if (code b.toNat).valid then bitWrites (code b.toNat).path ++ encodeAccesses code bytes else []

/-- The reads of decodeOne(), one bit each: those of a symbol, or all that remain and the one that returns EOS (R201). -/
def walkReads (bits : List Bool) : WalkResult → List PortAccess
  | .symbol _ rest => List.replicate (bits.length - rest.length) (.read 1)
  | .eos => List.replicate (bits.length + 1) (.read 1)
  | .broken => []

/-- A decoded symbol other than the sentinel is written as 8 bits (R202, R206). -/
def symbolWrites (v : Symbol) : List PortAccess := if v = eofSym then [] else [.write 8 v.toNat]

/-- DEC_SYM (R202). -/
def decSymAccesses (s : State) : List PortAccess :=
  let walk := decodeOne s.node s.root.toNat s.inRest
  walkReads s.inRest walk ++
    match walk with
    | .symbol v _ => symbolWrites v
    | .eos => []
    | .broken => []

/-- The loop of DECODE (R206): each symbol's reads, then its write, to the sentinel or EOS. -/
def decodeAccesses (mem : Vector Node 513) (root : Nat) : Nat → List Bool → List PortAccess
  | 0, _ => []
  | fuel + 1, bits =>
    match decodeOne mem root bits with
    | .broken => []
    | .eos => walkReads bits .eos
    | .symbol v rest =>
      walkReads bits (.symbol v rest) ++ symbolWrites v ++ if v = eofSym then [] else decodeAccesses mem root fuel rest

/-- The accesses of a command that runs if `ok`, outside the error state; otherwise it has none (R231, R235). -/
def State.accessesIf (s : State) (ok : Bool) (list : List PortAccess) : List PortAccess :=
  if !s.err && ok then list else []

/-- The port accesses of a command from a state, in order, the checks of R235 first (R79). -/
def commandAccesses (i : Instr) (s : State) : List PortAccess :=
  match i with
  | .nop => []
  | .count => s.accessesIf true (countAccesses s)
  | .build => []
  | .gencodes => []
  | .wrTree => s.accessesIf (s.treeValid && !s.outClosed) ((s.tree.map HTree.writes).getD [])
  | .rdTree => s.accessesIf true (rdTreeAccesses s)
  | .wrHeader => s.accessesIf (!s.outClosed) [.write 32 s.params.magic.toNat]
  | .rewind => s.accessesIf true [.rewind]
  | .encSym sym => s.accessesIf (decide (legalSymbol sym) && s.codesValid && !s.outClosed) (encSymAccesses s sym.toNat)
  | .encode =>
    s.accessesIf (s.codesValid && !s.outClosed) (encodeAccesses s.codeOf (streamBytes s.inRest))
  | .close => [.close]
  | .rdHeader => s.accessesIf true [.read 32]
  | .decSym => s.accessesIf (s.treeValid && !s.outClosed) (decSymAccesses s)
  | .decode =>
    s.accessesIf (s.treeValid && !s.outClosed)
      (decodeAccesses s.node s.root.toNat (s.inRest.length + 1) s.inRest)
  | .clrerr => []
  | .init => []

/-- The port accesses of a command word; an illegal word has none (R239). -/
def wordAccesses (w : Word) (s : State) : List PortAccess :=
  match decode w with
  | .ok i => commandAccesses i s
  | .error _ => []

end Sys2Proof.Machine
end

