-- ==== Sys2Proof/Machine/Registers.lean ====
section
/-!
DEFINITION. What the host reads at each offset of the register space (spec/10_state.md R23 to R49,
spec/20_memory.md R80, R81).
-/

namespace Sys2Proof.Machine

/-- ERROR (R34): OP in [11:8], CODE in [3:0]. -/
def State.errorWord (s : State) : Word := 0#20 ++ s.errorOp ++ 0#4 ++ s.errorCode

/-- RESULT (R35): VALID in [31], SYM in [8:0]. -/
def State.resultWord (s : State) : Word := BitVec.ofBool s.resultValid ++ 0#22 ++ s.resultSym

/-- TOTAL (R36): W_FREQ bits, the rest 0. -/
def State.totalWord (s : State) : Word := s.params.cut s.total.toNat

/-- TREE (R37): NODE_COUNT in [25:16], ROOT in [9:0]. -/
def State.treeWord (s : State) : Word := 0#6 ++ s.nodeCount ++ 0#6 ++ s.root

/-- PARAM (R39): W_FREQ in [5:0]. -/
def State.paramWord (s : State) : Word := BitVec.ofNat 32 s.params.wFreq.val

/-- A window word that reads unspecified: free, and the same at every read until the next command (R81, I5, I6;
log entry 7). -/
def State.looseWindow (s : State) (off : Nat) : Word := Config.freeWindow s.draw off

/-- The FREQ window at symbol sym (R41). -/
def State.freqWindow (s : State) (sym : Nat) : Word := s.params.cut ((s.freq[sym]?).getD 0).toNat

/-- The CODE window at symbol sym (R46): VALID in [31], LEN in [8:0]; unspecified while CODES_VALID = 0. -/
def State.codeWindow (s : State) (off sym : Nat) : Word :=
  if s.codesValid then
    BitVec.ofBool (s.codeOf sym).valid ++ 0#22 ++ (s.codeOf sym).len
  else s.looseWindow off

/-- The CODEBITS window at symbol sym, word k (R46): bit j is BITS[32k + j]; unspecified while CODES_VALID = 0. -/
def State.codeBitsWindow (s : State) (off sym k : Nat) : Word :=
  if s.codesValid then (s.codeOf sym).bits.extractLsb' (32 * k) 32 else s.looseWindow off

/-- The second word of a NODE slot (R43): LEAF, 00, SYM, RIGHT, LEFT from bit 31 down. -/
def Node.word (n : Node) : Word := BitVec.ofBool n.leaf ++ 0#2 ++ n.sym ++ n.right ++ n.left

/-- The NODE window at slot i (R43), WEIGHT or the second word; unspecified for a slot at NODE_COUNT or above and
while TREE_VALID = 0. -/
def State.nodeWindow (s : State) (off i : Nat) (second : Bool) : Word :=
  if h : i < 513 then
    if s.treeValid ∧ i < s.nodeCount.toNat then
      if second then s.node[i].word else s.params.cut s.node[i].weight.toNat
    else s.looseWindow off
  else s.looseWindow off

/-- The word a host read of the offset returns while BUSY = 0 (R23, R80): STATUS at 0x0004, ERROR, RESULT, TOTAL, TREE,
MAGIC, PARAM at 0x001C, then the windows FREQ, CODE, CODEBITS, NODE. CMD and the reserved offsets read 0 (R24, R81). -/
def State.readWord (s : State) (off : Nat) : Word :=
  if off = 0x0004 then s.status
  else if off = 0x0008 then s.errorWord
  else if off = 0x000C then s.resultWord
  else if off = 0x0010 then s.totalWord
  else if off = 0x0014 then s.treeWord
  else if off = 0x0018 then s.params.magic
  else if off = 0x001C then s.paramWord
  else if 0x1000 ≤ off ∧ off ≤ 0x1400 then s.freqWindow ((off - 0x1000) / 4)
  else if 0x2000 ≤ off ∧ off ≤ 0x2400 then s.codeWindow off ((off - 0x2000) / 4)
  else if 0x3000 ≤ off ∧ off ≤ 0x501C then
    s.codeBitsWindow off ((off - 0x3000) / 32) ((off - 0x3000) / 4 % 8)
  else if 0x6000 ≤ off ∧ off ≤ 0x7004 then
    s.nodeWindow off ((off - 0x6000) / 8) ((off - 0x6000) / 4 % 2 == 1)
  else 0

/-- The word a host read of the offset returns while BUSY = 1 (R87, I8): STATUS reads BUSY = 1 and other bits
free, every other offset a free word. -/
def State.readBusy (s : State) (off : Nat) : Word :=
  if off = 0x0004 then Config.freeBusy s.draw off ||| 1 else Config.freeBusy s.draw off

end Sys2Proof.Machine
end

