-- ==== Sys2Proof/Machine/HostBus.lean ====
section
/-!
DEFINITION. The acceptance and execution of a command word (spec/60_exceptions.md R230, R231, R235), the host's
accesses and stream actions (spec/20_memory.md R78, R81, R82, R87), and the reset input
(spec/70_reset_and_hazards.md R260).
-/

namespace Sys2Proof.Machine

/-! ### Running a command -/

/-- An illegal word: ILLEGAL_COMMAND with the word's OP, before any effect (R239, R103). In the error state
nothing changes: the word is ignored (R231), or, for CLOSE, CLRERR and INIT, the raise changes nothing (R233). -/
def execIllegal (w : Word) (s : State) : Outcome := .next (s.raise .illegalCommand (wordOp w))

/-- execute(w) of R230: the checks of R235 from step 2 on. Each command's meaning begins with the error-state
filter; the filter goes by OP, and OP gives the command. -/
def execute (w : Word) (s : State) : Outcome :=
  match decode w with
  | .ok i => exec i s
  | .error _ => execIllegal w s

/-- The end of a command: BUSY <- 0 (R230). The next free value is another one (log entry 7). -/
def State.commandEnd (s : State) : State := { s with cmd := none, draw := s.draw + 1 }

/-- An outcome's next state, changed. -/
def mapNext (f : State → State) : Outcome → Outcome
  | .next s => .next (f s)
  | .fault r => .fault r
  | .refused r => .refused r

/-- The core's step: the running command takes effect and ends (R12, R230). -/
def runCommand (w : Word) (s : State) : Outcome := mapNext State.commandEnd (execute w s)

/-- The running command, if it is the core's turn: the host waits for BUSY = 0 or has nothing left to do
(R85, R111, R251; log entry 1). -/
def State.coreTurn (s : State) : Option Word :=
  match s.cmd, s.host with
  | some w, [] => some w
  | some w, .wait :: _ => some w
  | _, _ => none

/-! ### The reset input -/

/-- The reset state of R260 over the ports as they are: registers and flags 0, no command, the tables with
unspecified contents (log entry 5). -/
def State.hardReset (s : State) : State :=
  { s.clearRegisters with
    cmd := none
    freq := freeFreqTable s.params s.draw
    node := freeNodeTable s.params s.draw
    code := freeCodeTable s.draw
    draw := s.draw + 1 }

/-- The two ports as a command that was abandoned leaves them: 'its partial effects on the ports stay' (R260). It had
made some of its port accesses, each of them whole (R79); how many is a free value (log entry 9). -/
def State.abandon (s : State) (w : Word) : State := s.accesses ((wordAccesses w s).take (Config.freeProgress s.draw))

/-- The reset input is asserted (R260): a running command is abandoned, then the block is reset. -/
def assertReset (s : State) : Outcome :=
  match s.cmd with
  | none => .next s.hardReset
  | some w => .next (s.abandon w).hardReset

/-! ### The host's accesses and stream actions -/

/-- A host write of the word at an offset (R230, R81): a write to CMD, at offset 0, is accepted, or dropped with OVR set
while BUSY = 1; every other write is ignored. -/
def State.busWrite (s : State) (off : Nat) (v : Word) : State :=
  if off = 0x0000 then
    if s.busy then { s with ovr := true } else { s with cmd := some v }
  else s

/-- A host read of an offset: the word goes to the host. While BUSY = 1 it is a free value, another one at every
read (R87). -/
def State.busRead (s : State) (addr off : Nat) : State :=
  if s.busy then { s with log := s.log ++ [.word addr (s.readBusy off)], draw := s.draw + 1 }
  else { s with log := s.log ++ [.word addr (s.readWord off)] }

/-- The access rules of R82: the block's 32 KiB from P_BASE, whole aligned 32-bit words only. -/
def busAccess (s : State) (addr width : Nat) (run : Nat → Outcome) : Outcome :=
  if addr < s.params.base ∨ s.params.base + 0x8000 ≤ addr then .refused (.outsideBlock addr)
  else if width = 4 ∧ (addr - s.params.base) % 4 = 0 then run (addr - s.params.base)
  else .refused (.undefinedAccess addr width)

/-- A stream action is allowed only while BUSY = 0 (R78, I12). -/
def whenIdle (s : State) (run : Outcome) : Outcome :=
  if s.busy then .refused .streamActionWhileBusy else run

/-- AttachInput(bytes) (R78). -/
def State.attachInput (s : State) (bytes : List Byte) : State := { s with inBytes := bytes, inPos := 0 }

/-- TakeOutput() (R78): the host reads the output stream, as bytes once it is closed; the stream does not change. -/
def State.takeOutput (s : State) : State :=
  { s with log := s.log ++ [if s.outClosed then .bytes (streamBytes s.outBits) else .bits s.outBits] }

/-- AttachOutput() (R78): the previous stream's bytes are handed to the host and a fresh stream attached. The last
partial byte of a stream that was not closed is never handed over (R266). -/
def State.attachOutput (s : State) : State :=
  { s with log := s.log ++ [.bytes (streamBytes s.outBits)], outBits := [], outClosed := false }

/-- One action of the host, in the state in which it is no longer pending. @wait is over: BUSY = 0, or the core
would have had the turn. -/
def hostAct (a : HostAction) (s : State) : Outcome :=
  match a with
  | .write addr width v => busAccess s addr width fun off => .next (s.busWrite off v)
  | .read addr width => busAccess s addr width fun off => .next (s.busRead addr off)
  | .wait => .next s
  | .attachInput bytes => whenIdle s (.next (s.attachInput bytes))
  | .attachOutput => whenIdle s (.next s.attachOutput)
  | .takeOutput => whenIdle s (.next s.takeOutput)
  | .assertReset => assertReset s

/-- The host's turn: its next action; with none left the block waits for a CMD write and nothing happens
(R260, R251). -/
def hostTurn (s : State) : Outcome :=
  match s.host with
  | [] => .next s
  | a :: rest => hostAct a { s with host := rest }

/-- A command line of a host program: a write to CMD, at offset 0, followed by @wait (R111). -/
def commandLine (p : Params) (i : Instr) : List HostAction := [.write p.base 4 (encode i), .wait]

end Sys2Proof.Machine
end

