-- ==== Sys2Proof/Machine/Step.lean ====
section
/-!
DEFINITION. One step: the core runs the command word it holds, or the host acts (spec/00_scope.md R12).
-/

namespace Sys2Proof.Machine

/-- One step of the machine: the core's turn or the host's (log entry 1). -/
def step (s : State) : Host.Outcome State Fault Refusal :=
  match s.coreTurn with
  | some w => runCommand w s
  | none => hostTurn s

/-- The state in which the core holds the command word `w` as accepted and the host waits, so that the next step
runs it (log entry 3). -/
def State.withFetchWord (s : State) (nbits w : Nat) : State :=
  { s with cmd := some (BitVec.ofNat 32 (w % 2 ^ nbits)), host := .wait :: s.host }

end Sys2Proof.Machine
end

