-- ==== Sys2Proof/Safety.lean ====
section
/-!
DEFINITION. What claims about the block are stated in: the invariant every step keeps (spec/10_state.md R22, R34 to
R45, spec/20_memory.md R71, R75), what a command's errors are, and the compressed stream's parts
(spec/30_encoding.md R106).
-/

namespace Sys2Proof.Machine

/-! ### The invariant -/

/-- A tree the block may hold (R22, R166 to R168): at most 256 internal nodes, every symbol 0..256, and a root that
is a leaf only for the sentinel. -/
structure TreeShape (t : HTree) : Prop where
  internals : t.internals ≤ 256
  symbols : ∀ v ∈ t.symbols, v.toNat ≤ 256
  root : t.badRoot = false

/-- The sum of the entries of FREQ as numbers (R36, R133). -/
def State.freqTotal (s : State) : Nat := (s.freq.toList.map BitVec.toNat).sum

/-- What holds of the block in every state a run reaches. -/
structure Inv (s : State) : Prop where
  /-- 0 ≤ inPos ≤ 8 * len(inBytes) (R70). -/
  inPos : s.inPos ≤ s.inEnd
  /-- A closed output is a whole number of bytes (R75). -/
  closed : s.outClosed = true → s.outBits.length % 8 = 0
  /-- ERROR is 0 outside the error state (R34). -/
  noError : s.err = false → s.errorCode = 0 ∧ s.errorOp = 0
  /-- In the error state ERROR.CODE is 1 to 8 (R234, I16). -/
  someError : s.err = true → 1 ≤ s.errorCode.toNat ∧ s.errorCode.toNat ≤ 8
  /-- RESULT.SYM is 0..256 (R35). -/
  result : s.resultSym.toNat ≤ 256
  /-- TOTAL, every count and every weight is W_FREQ bits wide (R36, R40, R42). -/
  total : s.total.toNat < 2 ^ s.params.wFreq.val
  counts : ∀ sym (h : sym < 257), s.freq[sym].toNat < 2 ^ s.params.wFreq.val
  weights : ∀ i (h : i < 513), s.node[i].weight.toNat < 2 ^ s.params.wFreq.val
  /-- While FREQ_VALID = 1, FREQ[256] = 1 and TOTAL is the sum of FREQ (R40, R36, R133). -/
  freq : s.freqValid = true → s.freq[256] = 1#32 ∧ s.freqTotal = s.total.toNat
  /-- While TREE_VALID = 1, the slots below ROOT hold a tree, and NODE_COUNT is its size (R22, R37, R44). -/
  tree : s.treeValid = true → ∃ t, s.tree = some t ∧ TreeShape t ∧ s.nodeCount.toNat = t.size
  /-- While CODES_VALID = 1 there is a valid tree and CODE holds its codes (R30, R45). -/
  codes : s.codesValid = true → s.treeValid = true ∧ ∀ t, s.tree = some t → s.code = codesOf t

/-! ### Groups of commands -/

/-- The commands that run while ERR = 1 (R231). -/
def runsInError : Instr → Bool
  | .close | .clrerr | .init => true
  | .nop | .count | .build | .gencodes | .wrTree | .rdTree | .wrHeader | .rewind | .encSym _ | .encode
  | .rdHeader | .decSym | .decode => false

/-- The table of R240: the valid flag a command needs, if any. -/
def neededFlag (s : State) : Instr → Option Bool
  | .build => some s.freqValid
  | .gencodes | .wrTree | .decSym | .decode => some s.treeValid
  | .encSym _ | .encode => some s.codesValid
  | .nop | .count | .rdTree | .wrHeader | .rewind | .close | .rdHeader | .clrerr | .init => none

/-- The commands that can write output (R232). -/
def writesOutput : Instr → Bool
  | .wrHeader | .wrTree | .encSym _ | .encode | .decSym | .decode => true
  | .nop | .count | .build | .gencodes | .rdTree | .rewind | .close | .rdHeader | .clrerr | .init => false

/-- The execution errors of a command, by the column 'raised by' of R234 (ILLEGAL_COMMAND, which any word can
raise, and the SEQUENCE and OUTPUT_CLOSED checks included). -/
def canRaise : Instr → List HccError
  | .count => [.countOverflow]
  | .build | .gencodes => [.sequence]
  | .wrTree => [.sequence, .outputClosed]
  | .rdTree => [.malformedTree]
  | .wrHeader => [.outputClosed]
  | .encSym _ => [.illegalCommand, .sequence, .outputClosed, .noCode]
  | .encode => [.sequence, .outputClosed, .noCode]
  | .rdHeader => [.badHeader]
  | .decSym | .decode => [.sequence, .outputClosed, .truncatedStream]
  | .nop | .rewind | .close | .clrerr | .init => []

/-- The widths of a command's reads of the input (the table of R70). -/
def readWidths : Instr → List Nat
  | .count | .encode => [8]
  | .rdHeader => [32]
  | .rdTree => [1, 9]
  | .decSym | .decode => [1]
  | .nop | .build | .gencodes | .wrTree | .wrHeader | .rewind | .encSym _ | .close | .clrerr | .init => []

/-- The widths of a command's writes to the output (the table of R70). -/
def writeWidths : Instr → List Nat
  | .wrHeader => [32]
  | .wrTree => [1, 9]
  | .encSym _ | .encode => [1]
  | .decSym | .decode => [8]
  | .nop | .count | .build | .gencodes | .rdTree | .rewind | .close | .rdHeader | .clrerr | .init => []

/-! ### The stream's parts -/

/-- A code set of a tree: every pair is a leaf of the tree and its path. The codes of a payload (R106, R107). -/
abbrev LeavesOf (t : HTree) (leaves : List (Symbol × List Bool)) : Prop := ∀ leaf ∈ leaves, leaf ∈ t.paths []

/-- The payload bits of a list of leaves: their codes in order (R106, R107). -/
def payload (leaves : List (Symbol × List Bool)) : List Bool := leaves.flatMap Prod.snd

/-! ### The tree encoding, item by item -/

/-- An item of the preorder encoding (R105): an internal node, or a leaf with its symbol. -/
abbrev TreeItem := Option Symbol

/-- The bits of an item: 0 for an internal node, 1 and the nine bits of the symbol for a leaf (R105). -/
def itemBits : TreeItem → List Bool
  | none => [false]
  | some v => true :: (List.range 9).map fun k => v.getLsbD (8 - k)

/-- The bits of a list of items. -/
def itemsBits (items : List TreeItem) : List Bool := items.flatMap itemBits

/-- How many subtrees are still to come after some items, where `n` were to come before them: an internal node asks for
two in place of one, a leaf for none. There is no answer if the tree was complete before the last item. -/
def subtreesLeft : Nat → List TreeItem → Option Nat
  | n, [] => some n
  | 0, _ :: _ => none
  | n + 1, none :: items => subtreesLeft (n + 2) items
  | n + 1, some _ :: items => subtreesLeft n items

/-- The slots from slot i on are the preorder slots of a tree that RD_TREE read (R164, R165): the root in slot i, its left
subtree from the next slot on, its right subtree behind that; LEFT = RIGHT = 0 in a leaf, SYM = 0 in an internal node,
WEIGHT = 0 in both. -/
def preorderSlots (node : Vector Node 513) : HTree → Nat → Prop
  | .leaf v, i => node[i]? = some { leaf := true, sym := v, weight := 0, left := 0, right := 0 }
  | .node l r, i =>
    (∃ n, node[i]? = some n ∧ n.leaf = false ∧ n.sym = 0 ∧ n.weight = 0 ∧ n.left.toNat = i + 1 ∧
      n.right.toNat = i + 1 + l.size) ∧
    preorderSlots node l (i + 1) ∧ preorderSlots node r (i + 1 + l.size)

/-- A list of commands, one after the other, while each answers a next state. -/
def execAll : List Instr → State → Outcome
  | [], s => .next s
  | i :: rest, s =>
    match exec i s with
    | .next t => execAll rest t
    | .fault r => .fault r
    | .refused r => .refused r

end Sys2Proof.Machine
end

