-- ==== Sys2Proof/Certificates/Slice0/Obligations.lean ====
section
/-!
DEFINITION. The statements for the provers, from the numbered rules of spec/. Each is about every state (or every state
that meets the premises it names), every value of the parameters P_MAGIC, W_FREQ and P_BASE, which the state carries, and
every free value.
-/

open Sys2Proof Sys2Proof.Machine

/-! ### Encodings -/

/-- Decoding an encoded legal command gives the command back, with every value of the operand (R102, R104). -/
def Obligations.DecodeInvertsEncode : Prop := ∀ i : Instr, WellFormed i → decode (encode i) = .ok i

/-- A word that decodes is the encoding of the legal command it decodes to, so no two words share a command and no bit
is dropped (R102, R104). -/
def Obligations.EncodeInvertsDecode : Prop :=
  ∀ (w : Word) (i : Instr), decode w = .ok i → WellFormed i ∧ encode i = w

/-- R103: the illegal words are those of its four conditions, and the core's run of one raises ILLEGAL_COMMAND with the
word's OP and has no other effect; the command ends, BUSY <- 0. Nothing is said of `draw`, the model's own index of the next free value. -/
def Obligations.IllegalWordsAreRefused : Prop :=
  (∀ w : Word, (∃ e, decode w = .error e) ↔
    w.extractLsb' 4 4 ≠ 0 ∨ w.extractLsb' 17 15 ≠ 0 ∨ (w.extractLsb' 0 4 ≠ 0x8#4 ∧ w.extractLsb' 8 9 ≠ 0) ∨
      (w.extractLsb' 0 4 = 0x8#4 ∧ 256 < (w.extractLsb' 8 9).toNat)) ∧
  ∀ (s : State) (w : Word), s.cmd = some w → (s.host = [] ∨ ∃ rest, s.host = .wait :: rest) → s.err = false →
    (∃ e, decode w = .error e) →
    ∃ d, step s = .next { s with
      err := true, errorCode := 4, errorOp := w.extractLsb' 0 4, cmd := none, draw := d }

/-- Words of spec/95_test_vectors.md V2.1 and V2.2, decoded. -/
def Obligations.ListedWordsDecode : Prop :=
  [0x0, 0x1, 0x2, 0x3, 0x4, 0x5, 0x6, 0x7].map (decodeTableWord 32) =
    [some .nop, some .count, some .build, some .gencodes, some .wrTree, some .rdTree, some .wrHeader, some .rewind] ∧
  [0x8, 0x4108, 0x4208, 0xFF08, 0x10008].map (decodeTableWord 32) =
    [some (.encSym 0), some (.encSym 65), some (.encSym 66), some (.encSym 255), some encEof] ∧
  [0x9, 0xA, 0xB, 0xC, 0xD, 0xE, 0xF].map (decodeTableWord 32) =
    [some .encode, some .close, some .rdHeader, some .decSym, some .decode, some .clrerr, some .init] ∧
  [0x10, 0x18, 0x20000, 0x80000000, 0x100, 0x101, 0x1000D, 0x10108, 0x1FF08, 0xFFFFFFFF].map (decodeTableWord 32) =
    [none, none, none, none, none, none, none, none, none, none]

/-! ### The step, acceptance and the error state -/

/-- A step runs the decoded command: while a command word that decodes is running and the host waits (or has nothing
left to do), the step is exec of it, and then BUSY <- 0 and the next free value is another one (the model's choices: log
entries 1, 7); and the state with that word placed as the next command steps so. -/
def Obligations.StepRunsDecodedCommand : Prop :=
  (∀ (s : State) (w : Word) (i : Instr), s.cmd = some w → (s.host = [] ∨ ∃ rest, s.host = .wait :: rest) →
    decode w = .ok i →
    step s = match exec i s with
      | .next t => .next { t with cmd := none, draw := t.draw + 1 }
      | .fault r => .fault r
      | .refused r => .refused r) ∧
  ∀ (s : State) (i : Instr), WellFormed i →
    step (s.withFetchWord 32 (encode i).toNat) =
      match exec i { s with cmd := some (encode i), host := .wait :: s.host } with
      | .next t => .next { t with cmd := none, draw := t.draw + 1 }
      | .fault r => .fault r
      | .refused r => .refused r

/-- R230: a host write to CMD while BUSY = 1 sets OVR and nothing else; while BUSY = 0 the word is accepted, BUSY <- 1;
the core then executes it (an illegal word raises, a command has its meaning), and BUSY <- 0. The host's action is no
longer pending after its step (log entry 2); nothing is said of `draw`, the model's own. -/
def Obligations.CommandAcceptance : Prop :=
  (∀ (s : State) (w : Word) (rest : List HostAction), s.host = .write s.params.base 4 w :: rest →
    step s = .next (if s.busy then { s with host := rest, ovr := true } else { s with host := rest, cmd := some w })) ∧
  ∀ (s : State) (w : Word), s.cmd = some w → (s.host = [] ∨ ∃ rest, s.host = .wait :: rest) →
    match execute w s with
    | .next t => ∃ d, step s = .next { t with cmd := none, draw := d }
    | .fault r => step s = .fault r
    | .refused r => step s = .refused r

/-- R231: while ERR = 1 a word whose OP is not 0xA, 0xE or 0xF changes nothing, and so does the command it stands for;
CLOSE, CLRERR and INIT do what they do with ERR = 0. Nothing is said of `draw`, the model's own. -/
def Obligations.ErrorStateIgnoresCommands : Prop :=
  (∀ (s : State) (w : Word), s.cmd = some w → (s.host = [] ∨ ∃ rest, s.host = .wait :: rest) → s.err = true →
    w.extractLsb' 0 4 ≠ 0xA#4 → w.extractLsb' 0 4 ≠ 0xE#4 → w.extractLsb' 0 4 ≠ 0xF#4 →
    ∃ d, step s = .next { s with cmd := none, draw := d }) ∧
  (∀ (s : State) (i : Instr), s.err = true → runsInError i = false → exec i s = .next s) ∧
  ∀ (s t : State), exec .close { s with err := false } = .next t →
    exec .close { s with err := true } = .next { t with err := true } ∧
    exec .clrerr { s with err := true } = exec .clrerr { s with err := false } ∧
    exec .init { s with err := true } = exec .init { s with err := false }

/-- The first error is kept (R233, R246): no command that runs in the error state changes ERROR and stays in it, and an
illegal word changes nothing there. -/
def Obligations.FirstErrorIsKept : Prop :=
  (∀ (i : Instr) (s t : State), s.err = true → exec i s = .next t → t.err = true →
    t.errorCode = s.errorCode ∧ t.errorOp = s.errorOp) ∧
  ∀ (s : State) (w : Word), s.err = true → (∃ e, decode w = .error e) → execute w s = .next s

/-- A command that enters the error state records its own opcode and one of the errors R234 lists for it. -/
def Obligations.ErrorNamesTheCommand : Prop :=
  ∀ (i : Instr) (s t : State), s.err = false → exec i s = .next t → t.err = true →
    t.errorOp = opcode i ∧ ∃ e ∈ canRaise i, t.errorCode = e.number

/-- R240: with its precondition flag 0 a command raises SEQUENCE and has no other effect; with its flag 1, or without a
precondition flag, a command never raises SEQUENCE. -/
def Obligations.SequenceErrors : Prop :=
  (∀ (i : Instr) (s : State), s.err = false → WellFormed i → neededFlag s i = some false →
    exec i s = .next { s with err := true, errorCode := 5, errorOp := opcode i }) ∧
  ∀ (i : Instr) (s t : State), s.err = false → neededFlag s i ≠ some false → exec i s = .next t → t.err = true →
    t.errorCode ≠ 5

/-- R232, R243: a writing command whose precondition holds raises OUTPUT_CLOSED on a closed output and has no other
effect, whatever it would have written; where its precondition does not hold, SEQUENCE comes first; no command that is
not a writing one raises OUTPUT_CLOSED, and of those only CLOSE touches the output. -/
def Obligations.OutputClosedErrors : Prop :=
  (∀ (i : Instr) (s : State), s.err = false → WellFormed i → writesOutput i = true → neededFlag s i ≠ some false →
    s.outClosed = true → exec i s = .next { s with err := true, errorCode := 8, errorOp := opcode i }) ∧
  (∀ (i : Instr) (s : State), s.err = false → WellFormed i → writesOutput i = true → neededFlag s i = some false →
    s.outClosed = true → exec i s = .next { s with err := true, errorCode := 5, errorOp := opcode i }) ∧
  ∀ (i : Instr) (s t : State), writesOutput i = false → exec i s = .next t →
    (s.err = false → t.err = true → t.errorCode ≠ 8) ∧
    (i ≠ .close → t.outBits = s.outBits ∧ t.outClosed = s.outClosed)

/-! ### The ports -/

/-- R72: InRead(n) returns EOS and consumes the rest if fewer than n bits remain, else the next n bits with the first
one read as bit n-1 of the value, each byte's bit 7 first, and moves inPos by n. -/
def Obligations.InputIsReadMostSignificantFirst : Prop :=
  ∀ (s : State) (n : Nat), 1 ≤ n →
    (s.inPos + n ≤ 8 * s.inBytes.length →
      ∃ v rest, inRead n s.inRest = some (v, rest) ∧ v < 2 ^ n ∧
        (∀ k < n, v.testBit (n - 1 - k) =
          ((s.inBytes[(s.inPos + k) / 8]?).getD 0).getLsbD (7 - (s.inPos + k) % 8)) ∧
        (s.inAdvance rest).inPos = s.inPos + n ∧ (s.inAdvance rest).inRest = rest) ∧
    (8 * s.inBytes.length < s.inPos + n → inRead n s.inRest = none ∧ s.inToEnd.inPos = 8 * s.inBytes.length)

/-- R74: OutWrite(n, v) appends bits v[n-1] down to v[0]; with n = 0 it appends nothing; and no command appends to a
closed output. -/
def Obligations.OutputIsWrittenMostSignificantFirst : Prop :=
  (∀ (s : State) (n v : Nat), ∃ bits : List Bool, bits.length = n ∧ (∀ k < n, bits[k]? = some (v.testBit (n - 1 - k))) ∧
    s.outWrite n v = { s with outBits := s.outBits ++ bits }) ∧
  ∀ (i : Instr) (s t : State), s.outClosed = true → exec i s = .next t → t.outBits = s.outBits

/-- The bytes of a bit sequence (R76): byte j has bit 8j + k of the sequence as its bit 7 - k, and packing whole bytes
and unpacking them undo each other. -/
def Obligations.BytesAndBitsAgree : Prop :=
  (∀ (bits : List Bool) (j k : Nat), 8 * j + 8 ≤ bits.length → k < 8 →
    ((streamBytes bits)[j]?).map (fun b => b.getLsbD (7 - k)) = bits[8 * j + k]?) ∧
  (∀ bytes : List Byte, streamBytes (streamBits bytes) = bytes) ∧
  ∀ bits : List Bool, bits.length % 8 = 0 → streamBits (streamBytes bits) = bits

/-- CLOSE in every state, the error state too (R75, R190, R231): a closed output stays as it is; an open one gets fewer
than 8 zero bits, up to a whole number of bytes, and is closed. Nothing else changes. -/
def Obligations.CloseResult : Prop :=
  ∀ s : State, ∃ k, k < 8 ∧ (s.outClosed = false → (s.outBits.length + k) % 8 = 0) ∧
    exec .close s = .next (if s.outClosed then s
      else { s with outBits := s.outBits ++ List.replicate k false, outClosed := true })

/-- What a command appends to the output stays a continuation of what was there (R70: append only), and it is closed by
CLOSE alone (R32). -/
def Obligations.OutputOnlyGrows : Prop :=
  ∀ (i : Instr) (s t : State), exec i s = .next t →
    s.outBits <+: t.outBits ∧ (i ≠ .close → t.outClosed = s.outClosed) ∧ (s.outClosed = true → t.outClosed = true)

/-! ### Control commands, header and rewind -/

/-- NOP changes nothing in any state (R220, R231). -/
def Obligations.NopResult : Prop := ∀ s : State, exec .nop s = .next s

/-- CLRERR in every state clears ERR, OVR and ERROR and changes nothing else (R221). -/
def Obligations.ClrerrResult : Prop :=
  ∀ s : State, exec .clrerr s = .next { s with err := false, ovr := false, errorCode := 0, errorOp := 0 }

/-- INIT in every state: every register reads 0 but for OUT_CLOSED (and BUSY while INIT runs), MAGIC and PARAM; the
tables, the ports, the host's side and the parameters are unchanged (R222, R262). -/
def Obligations.InitResult : Prop :=
  ∀ s : State, ∃ t, exec .init s = .next t ∧
    t.status = BitVec.ofNat 32 (s.outClosed.toNat * 64 + s.busy.toNat) ∧
    t.errorWord = 0 ∧ t.resultWord = 0 ∧ t.totalWord = 0 ∧ t.treeWord = 0 ∧
    t.freq = s.freq ∧ t.node = s.node ∧ t.code = s.code ∧
    t.inBytes = s.inBytes ∧ t.inPos = s.inPos ∧ t.outBits = s.outBits ∧ t.outClosed = s.outClosed ∧
    t.params = s.params ∧ t.cmd = s.cmd ∧ t.host = s.host ∧ t.log = s.log ∧ t.draw = s.draw

/-- REWIND outside the error state moves the input to its start and changes nothing else (R181, R73). -/
def Obligations.RewindResult : Prop :=
  ∀ s : State, s.err = false → exec .rewind s = .next { s with inPos := 0 }

/-- WR_HEADER outside the error state, on an open output, appends the 32 bits of P_MAGIC, bit 31 first, and changes
nothing else (R180). -/
def Obligations.WrHeaderResult : Prop :=
  ∀ s : State, s.err = false → s.outClosed = false →
    ∃ bits : List Bool, bits.length = 32 ∧ (∀ k < 32, bits[k]? = some (s.params.magic.getLsbD (31 - k))) ∧
      exec .wrHeader s = .next { s with outBits := s.outBits ++ bits }

/-- RD_HEADER outside the error state (R200, R236): with 32 bits left that are P_MAGIC, most significant first, inPos
moves past them; with 32 others it moves past them and BAD_HEADER is raised; with fewer it moves to the end and
BAD_HEADER is raised. Nothing else changes. -/
def Obligations.RdHeaderResult : Prop :=
  ∀ s : State, s.err = false →
    (∀ rest, s.inRest = (List.range 32).map (fun k => s.params.magic.getLsbD (31 - k)) ++ rest →
      exec .rdHeader s = .next { s with inPos := s.inPos + 32 }) ∧
    (32 ≤ s.inRest.length → s.inRest.take 32 ≠ (List.range 32).map (fun k => s.params.magic.getLsbD (31 - k)) →
      exec .rdHeader s =
        .next { s with inPos := s.inPos + 32, err := true, errorCode := 1, errorOp := 0xB }) ∧
    (s.inRest.length < 32 →
      exec .rdHeader s =
        .next { s with inPos := 8 * s.inBytes.length, err := true, errorCode := 1, errorOp := 0xB })

/-! ### The frequency counter -/

/-- COUNT outside the error state over N bytes that fit, N + 1 ≤ 2^W_FREQ - 1 (R130, R131, R133): FREQ[s] is the number
of bytes equal to s, FREQ[256] = 1, TOTAL = N + 1 is their sum, FREQ_VALID = 1, the input is at its end, and nothing else
changes. The bytes are those of the input from inPos on. -/
def Obligations.CountResult : Prop :=
  ∀ s : State, s.err = false → (streamBytes s.inRest).length + 1 ≤ 2 ^ s.params.wFreq.val - 1 →
    ∃ t, exec .count s = .next t ∧
      t = { s with freqValid := true, freq := t.freq, total := t.total, inPos := 8 * s.inBytes.length } ∧
      (∀ sym (h : sym < 256), t.freq[sym].toNat = (streamBytes s.inRest).countP fun b => b.toNat == sym) ∧
      t.freq[256] = 1#32 ∧ t.total.toNat = (streamBytes s.inRest).length + 1 ∧ t.freqTotal = t.total.toNat

/-- COUNT outside the error state over more bytes than fit (R132, R241, R244): COUNT_OVERFLOW is raised at the byte read
while TOTAL = 2^W_FREQ - 1. That byte is consumed and not counted; the earlier ones are counted; TOTAL stays
2^W_FREQ - 1 and FREQ_VALID 0; nothing else changes. -/
def Obligations.CountOverflow : Prop :=
  ∀ s : State, s.err = false → 2 ^ s.params.wFreq.val - 1 < (streamBytes s.inRest).length + 1 →
    ∃ t, exec .count s = .next t ∧
      t = { s with
        freqValid := false, freq := t.freq, total := t.total, inPos := s.inPos + 8 * (2 ^ s.params.wFreq.val - 1),
        err := true, errorCode := 6, errorOp := 1 } ∧
      (∀ sym (h : sym < 256), t.freq[sym].toNat =
        ((streamBytes s.inRest).take (2 ^ s.params.wFreq.val - 2)).countP fun b => b.toNat == sym) ∧
      t.freq[256] = 1#32 ∧ t.total.toNat = 2 ^ s.params.wFreq.val - 1 ∧ t.freqTotal = t.total.toNat

/-! ### The tree builder -/

/-- BUILD outside the error state on a valid FREQ, with L non-zero counts (R140, R141, R144): slots 0 .. L-1 are the
leaves of the symbols with a non-zero count, in ascending symbol order, slots L .. 2L-2 are internal nodes whose children
have smaller slot numbers, NODE_COUNT = 2L-1, ROOT = 2L-2, TREE_VALID = 1, CODES_VALID = EOF_SEEN = 0; the slots from
NODE_COUNT on, and everything else, are unchanged. -/
def Obligations.BuildLayout : Prop :=
  ∀ s : State, Inv s → s.err = false → s.freqValid = true →
    ∃ t, exec .build s = .next t ∧
      t = { s with
        node := t.node, root := t.root, nodeCount := t.nodeCount,
        treeValid := true, codesValid := false, eofSeen := false } ∧
      ∃ syms : List Nat, syms = (List.range 257).filter (fun sym => (s.freq[sym]?).getD 0 != 0) ∧
        1 ≤ syms.length ∧ syms.length ≤ 257 ∧ t.nodeCount.toNat = 2 * syms.length - 1 ∧ t.root.toNat = 2 * syms.length - 2 ∧
        (∀ k sym : Nat, syms[k]? = some sym → t.node[k]? = some
          { leaf := true, sym := BitVec.ofNat 9 sym, weight := (s.freq[sym]?).getD 0, left := 0, right := 0 }) ∧
        (∀ m n, syms.length ≤ m → m < 2 * syms.length - 1 → t.node[m]? = some n →
          n.leaf = false ∧ n.sym = 0 ∧ n.left.toNat < m ∧ n.right.toNat < m ∧ n.left ≠ n.right) ∧
        ∀ m, 2 * syms.length - 1 ≤ m → t.node[m]? = s.node[m]?

/-- Every merge of BUILD (R142, R143): let slot m be internal, and let the active slots be those below m that no internal
slot below m has as a child. Then LEFT and RIGHT are the two active slots of least key (WEIGHT, slot), LEFT the lesser. -/
def Obligations.BuildMergesTheTwoLeast : Prop :=
  ∀ s t : State, Inv s → s.err = false → s.freqValid = true → exec .build s = .next t →
    ∀ (active : Nat → Nat → Prop) (weight : Nat → Nat),
      (∀ m i, active m i ↔ i < m ∧ ∀ j < m, ∀ n, t.node[j]? = some n → n.leaf = false →
        n.left.toNat ≠ i ∧ n.right.toNat ≠ i) →
      (∀ i n, t.node[i]? = some n → weight i = n.weight.toNat) →
      ∀ m n, m < t.nodeCount.toNat → t.node[m]? = some n → n.leaf = false →
        active m n.left.toNat ∧ active m n.right.toNat ∧
        (weight n.left.toNat < weight n.right.toNat ∨
          weight n.left.toNat = weight n.right.toNat ∧ n.left.toNat < n.right.toNat) ∧
        ∀ i, active m i → i ≠ n.left.toNat → i ≠ n.right.toNat →
          weight n.right.toNat < weight i ∨ weight n.right.toNat = weight i ∧ n.right.toNat < i

/-- Weights after BUILD (R143, R145): an internal slot's WEIGHT is the sum of its children's, with no overflow of W_FREQ
bits, and the root's WEIGHT is TOTAL. -/
def Obligations.BuildWeights : Prop :=
  ∀ s t : State, Inv s → s.err = false → s.freqValid = true → exec .build s = .next t →
    (∀ m n l r, m < t.nodeCount.toNat → t.node[m]? = some n → n.leaf = false →
      t.node[n.left.toNat]? = some l → t.node[n.right.toNat]? = some r →
      n.weight.toNat = l.weight.toNat + r.weight.toNat ∧ n.weight.toNat < 2 ^ s.params.wFreq.val) ∧
    ∃ n, t.node[t.root.toNat]? = some n ∧ n.weight = s.total

/-- The tree BUILD makes (R22, R141, R144): the slots below ROOT hold a tree of a legal shape whose leaves carry each
symbol with a non-zero count exactly once, and no other. -/
def Obligations.BuildHoldsTheTree : Prop :=
  ∀ s t : State, Inv s → s.err = false → s.freqValid = true → exec .build s = .next t →
    ∃ tree, t.tree = some tree ∧ TreeShape tree ∧ tree.symbols.Nodup ∧ t.nodeCount.toNat = tree.size ∧
      ∀ sym < 257, BitVec.ofNat 9 sym ∈ tree.symbols ↔ (s.freq[sym]?).getD 0 ≠ 0

/-! ### The code table -/

/-- GENCODES outside the error state on a valid tree (R45, R150, R154, R155): the entry of a symbol holds the path of its
last leaf in preorder, at most 256 long and followed by zeros; a symbol with no leaf has the empty entry; CODES_VALID = 1,
and nothing else changes. -/
def Obligations.GencodesResult : Prop :=
  ∀ (s : State) (tree : HTree), s.err = false → s.treeValid = true → s.tree = some tree → TreeShape tree →
    ∃ t, exec .gencodes s = .next t ∧ t = { s with code := t.code, codesValid := true } ∧
      ∀ sym < 257, ∃ e, t.code[sym]? = some e ∧
        (∀ before v p after, tree.paths [] = before ++ (v, p) :: after → v.toNat = sym →
          (∀ leaf ∈ after, leaf.1.toNat ≠ sym) →
          e.valid = true ∧ e.path = p ∧ p.length ≤ 256 ∧ ∀ k, p.length ≤ k → e.bits.getLsbD k = false) ∧
        ((∀ leaf ∈ tree.paths [], leaf.1.toNat ≠ sym) → e = { valid := false, len := 0, bits := 0 })

/-- R156: among the codes with VALID = 1 no code begins another symbol's code. -/
def Obligations.CodesArePrefixFree : Prop :=
  ∀ s : State, Inv s → s.codesValid = true → ∀ a b, a < 257 → b < 257 → a ≠ b →
    (s.codeOf a).valid = true → (s.codeOf b).valid = true → ¬ (s.codeOf a).path <+: (s.codeOf b).path

/-- R157: after GENCODES the sentinel has a code exactly if the tree has a leaf that carries it, and on a tree that BUILD
has just made it has one. -/
def Obligations.SentinelHasACode : Prop :=
  (∀ (s t : State) (tree : HTree), s.err = false → s.treeValid = true → s.tree = some tree →
    exec .gencodes s = .next t → ((t.codeOf 256).valid = true ↔ eofSym ∈ tree.symbols)) ∧
  ∀ s t : State, Inv s → s.err = false → s.freqValid = true → exec .build s = .next t →
    ∃ u, exec .gencodes t = .next u ∧ u.codesValid = true ∧ (u.codeOf 256).valid = true

/-! ### The tree codec -/

/-- WR_TREE outside the error state on a valid tree and an open output appends the tree's encoding (R105, R160): 11 L - 1
bits for L leaves. Nothing else changes. -/
def Obligations.WrTreeResult : Prop :=
  ∀ (s : State) (tree : HTree), s.err = false → s.treeValid = true → s.outClosed = false → s.tree = some tree →
    exec .wrTree s = .next { s with outBits := s.outBits ++ tree.encoding } ∧
    tree.encoding.length = 11 * tree.symbols.length - 1

/-- RD_TREE outside the error state on an input that continues with the encoding of a tree of a legal shape (R164, R165):
its nodes are in slots 0 .. in preorder, the left child of an internal slot i in slot i + 1, the right child in the slot
after the left subtree, SYM = 0 there and LEFT = RIGHT = 0 in a leaf, every WEIGHT 0, and they hold the tree; ROOT = 0, NODE_COUNT its size, TREE_VALID = 1, CODES_VALID = EOF_SEEN = 0; exactly its bits are consumed; the slots
from NODE_COUNT on, and everything else, are unchanged. -/
def Obligations.RdTreeResult : Prop :=
  ∀ (s : State) (tree : HTree) (rest : List Bool), s.err = false → TreeShape tree → s.inRest = tree.encoding ++ rest →
    ∃ t, exec .rdTree s = .next t ∧
      t = { s with
        node := t.node, root := 0, nodeCount := t.nodeCount, treeValid := true, codesValid := false, eofSeen := false,
        inPos := s.inPos + tree.encoding.length } ∧
      t.inRest = rest ∧ t.tree = some tree ∧ t.nodeCount.toNat = tree.size ∧
      preorderSlots t.node tree 0 ∧
      (∀ i n, i < tree.size → t.node[i]? = some n → n.weight = 0 ∧
        (n.leaf = false → n.left.toNat = i + 1 ∧ n.left.toNat < n.right.toNat ∧ n.right.toNat < tree.size)) ∧
      ∀ i, tree.size ≤ i → t.node[i]? = s.node[i]?

/-- What RD_TREE refuses, and where (R237, R244): outside the error state, an input that does not continue with the encoding
of a tree of a legal shape raises MALFORMED_TREE, and the input is consumed through the failing read. The input continues
with some items of an encoding, at most 256 of them internal nodes, with symbols up to 256, that do not complete a tree; and
then (a) it ends, on the tag or inside the nine bits of a leaf value, and it is at its end; or (b) a leaf value above 256
comes, consumed through its nine bits; or (c) a 257th internal-node tag comes, consumed through it; or else (d) they are one
leaf, a root with a symbol other than 256, consumed through it. NODE, ROOT and NODE_COUNT are free (log entry 8);
TREE_VALID = CODES_VALID = EOF_SEEN = 0; nothing else changes. -/
def Obligations.RdTreeMalformed : Prop :=
  ∀ s : State, s.err = false → s.inPos ≤ s.inEnd →
    (¬ ∃ tree rest, TreeShape tree ∧ s.inRest = tree.encoding ++ rest) →
    ∃ t, exec .rdTree s = .next t ∧
      t = { s with
        node := t.node, root := t.root, nodeCount := t.nodeCount, inPos := t.inPos, draw := t.draw,
        treeValid := false, codesValid := false, eofSeen := false, err := true, errorCode := 2, errorOp := 5 } ∧
      s.inPos ≤ t.inPos ∧ t.inPos ≤ s.inEnd ∧
      ∃ items tail, s.inRest = itemsBits items ++ tail ∧ (∀ v : Symbol, some v ∈ items → v.toNat ≤ 256) ∧
        items.countP Option.isNone ≤ 256 ∧
        (((∃ n, subtreesLeft 1 items = some (n + 1)) ∧
            (((tail = [] ∨ ∃ few, tail = true :: few ∧ few.length < 9) ∧ t.inPos = s.inEnd) ∨
              (∃ (v : Symbol) (rest : List Bool), 256 < v.toNat ∧ tail = itemBits (some v) ++ rest ∧
                t.inPos = s.inPos + (itemsBits items).length + 10) ∨
              (items.countP Option.isNone = 256 ∧ (∃ rest, tail = false :: rest) ∧
                t.inPos = s.inPos + (itemsBits items).length + 1))) ∨
          ∃ v : Symbol, items = [some v] ∧ v ≠ eofSym ∧ t.inPos = s.inPos + 10)

/-- R170: WR_TREE a valid tree and RD_TREE the bits it wrote, in any state outside the error state whose input continues
with them: RD_TREE succeeds with the same tree and consumes exactly those bits, and GENCODES then gives the CODE table it
gives on the first. -/
def Obligations.TreeRoundTrip : Prop :=
  ∀ (s t u : State) (bits rest : List Bool), Inv s → s.err = false → s.treeValid = true → s.outClosed = false →
    exec .wrTree s = .next t → t.outBits = s.outBits ++ bits → u.err = false → u.inRest = bits ++ rest →
    ∃ v, exec .rdTree u = .next v ∧ v.err = false ∧ v.treeValid = true ∧ v.tree = s.tree ∧
      v.inPos = u.inPos + bits.length ∧ v.inRest = rest ∧
      ∃ s' v', exec .gencodes s = .next s' ∧ exec .gencodes v = .next v' ∧ s'.code = v'.code

/-! ### The encoder -/

/-- ENC_SYM sym outside the error state, with CODES_VALID = 1 and an open output (R182, R184): the code of sym, root to
leaf, is appended and nothing else changes; with no code for sym, NO_CODE is raised and nothing else changes. A SYM above
256 is illegal and raises ILLEGAL_COMMAND, whatever the flags (R103). -/
def Obligations.EncSymResult : Prop :=
  ∀ (s : State) (sym : Symbol), s.err = false →
    (256 < sym.toNat →
      exec (.encSym sym) s = .next { s with err := true, errorCode := 4, errorOp := 8 }) ∧
    (sym.toNat ≤ 256 → s.codesValid = true → s.outClosed = false → ∀ e, s.code[sym.toNat]? = some e →
      (e.valid = true → exec (.encSym sym) s = .next { s with
        outBits := s.outBits ++ (List.range e.len.toNat).map fun k => e.bits.getLsbD k }) ∧
      (e.valid = false → exec (.encSym sym) s = .next { s with err := true, errorCode := 7, errorOp := 8 }))

/-- ENCODE outside the error state, with CODES_VALID = 1, an open output, and a code for every byte of the rest of the
input and for 256 (R186): their codes are appended in order and then the code of 256; the input is at its end; nothing else
changes. -/
def Obligations.EncodeResult : Prop :=
  ∀ s : State, s.err = false → s.codesValid = true → s.outClosed = false →
    (∀ b ∈ streamBytes s.inRest, (s.codeOf b.toNat).valid = true) → (s.codeOf 256).valid = true →
    exec .encode s = .next { s with
      outBits := s.outBits ++ ((streamBytes s.inRest).flatMap fun b => (s.codeOf b.toNat).path) ++ (s.codeOf 256).path
      inPos := 8 * s.inBytes.length }

/-- ENCODE where a code is missing (R186, R242, R244): at the first byte with no code, the codes of the earlier bytes are
written, the input is consumed through that byte, and NO_CODE is raised; with only the code of 256 missing, the codes of
all bytes are written and the input is at its end. Nothing else changes. -/
def Obligations.EncodeNoCode : Prop :=
  ∀ s : State, s.err = false → s.codesValid = true → s.outClosed = false →
    (∀ before b after, streamBytes s.inRest = before ++ b :: after →
      (∀ c ∈ before, (s.codeOf c.toNat).valid = true) → (s.codeOf b.toNat).valid = false →
      exec .encode s = .next { s with
        outBits := s.outBits ++ before.flatMap fun c => (s.codeOf c.toNat).path
        inPos := s.inPos + 8 * (before.length + 1), err := true, errorCode := 7, errorOp := 9 }) ∧
    ((∀ c ∈ streamBytes s.inRest, (s.codeOf c.toNat).valid = true) → (s.codeOf 256).valid = false →
      exec .encode s = .next { s with
        outBits := s.outBits ++ (streamBytes s.inRest).flatMap fun c => (s.codeOf c.toNat).path
        inPos := 8 * s.inBytes.length, err := true, errorCode := 7, errorOp := 9 })

/-- R187: where ENCODE succeeds, it does what ENC_SYM on each remaining byte in order and then ENC_SYM 256 do, and
besides moves the input to its end. -/
def Obligations.EncodeIsEncSyms : Prop :=
  ∀ s t : State, s.err = false → exec .encode s = .next t → t.err = false →
    ∃ u, execAll ((streamBytes s.inRest).map (fun b => Instr.encSym (b.setWidth 9)) ++ [encEof]) s = .next u ∧
      t = { u with inPos := 8 * s.inBytes.length }

/-! ### The decoder -/

/-- DEC_SYM outside the error state on a valid tree and an open output (R201, R202): where the input continues with the
path of a leaf, exactly those bits are read (none for a leaf root), RESULT holds its symbol with VALID = 1, and the
sentinel sets EOF_SEEN and writes nothing, another symbol clears EOF_SEEN and writes its 8 bits; where it continues with no
leaf's path, TRUNCATED_STREAM is raised, the input is at its end, VALID = EOF_SEEN = 0 and nothing is written. Nothing else
changes. -/
def Obligations.DecSymResult : Prop :=
  ∀ (s : State) (tree : HTree), s.err = false → s.treeValid = true → s.outClosed = false → s.tree = some tree →
    (∀ v p rest, (v, p) ∈ tree.paths [] → s.inRest = p ++ rest →
      exec .decSym s = .next { s with
        inPos := s.inPos + p.length, resultSym := v, resultValid := true, eofSeen := v == eofSym
        outBits := s.outBits ++ if v = eofSym then [] else (List.range 8).map fun k => v.getLsbD (7 - k) }) ∧
    ((∀ leaf ∈ tree.paths [], ¬ leaf.2 <+: s.inRest) →
      exec .decSym s = .next { s with
        inPos := 8 * s.inBytes.length, resultValid := false, eofSeen := false
        err := true, errorCode := 3, errorOp := 0xC })

/-- DECODE outside the error state on a valid tree of a legal shape and an open output, where the input continues with the
paths of some leaves other than the sentinel and then the sentinel's (R206): exactly those bits are read, the leaves'
symbols are written in order, 8 bits each, RESULT holds the sentinel with VALID = 1, EOF_SEEN = 1, and nothing else
changes; what follows the sentinel's code is not read. -/
def Obligations.DecodeResult : Prop :=
  ∀ (s : State) (tree : HTree) (leaves : List (Symbol × List Bool)) (p rest : List Bool),
    s.err = false → s.treeValid = true → s.outClosed = false → s.tree = some tree → TreeShape tree →
    LeavesOf tree leaves → (∀ leaf ∈ leaves, leaf.1 ≠ eofSym) → (eofSym, p) ∈ tree.paths [] →
    s.inRest = payload leaves ++ p ++ rest →
    exec .decode s = .next { s with
      inPos := s.inPos + (payload leaves).length + p.length
      outBits := s.outBits ++ leaves.flatMap fun leaf => (List.range 8).map fun k => leaf.1.getLsbD (7 - k)
      resultSym := eofSym, resultValid := true, eofSeen := true }

/-- DECODE outside the error state where the input ends before the sentinel (R206, R238, R244): after the paths of some
leaves other than the sentinel it continues with no leaf's path. TRUNCATED_STREAM is raised; the symbols decoded so far are
written; RESULT holds the last of them, or VALID = 0 if there was none; the input is at its end; EOF_SEEN = 0; nothing else
changes. -/
def Obligations.DecodeTruncated : Prop :=
  ∀ (s : State) (tree : HTree) (leaves : List (Symbol × List Bool)) (tail : List Bool),
    s.err = false → s.treeValid = true → s.outClosed = false → s.tree = some tree → TreeShape tree →
    LeavesOf tree leaves → (∀ leaf ∈ leaves, leaf.1 ≠ eofSym) → s.inRest = payload leaves ++ tail →
    (∀ leaf ∈ tree.paths [], ¬ leaf.2 <+: tail) →
    exec .decode s = .next { s with
      inPos := 8 * s.inBytes.length
      outBits := s.outBits ++ leaves.flatMap fun leaf => (List.range 8).map fun k => leaf.1.getLsbD (7 - k)
      resultSym := ((leaves.map Prod.fst).getLast?).getD s.resultSym, resultValid := !leaves.isEmpty, eofSeen := false
      err := true, errorCode := 3, errorOp := 0xD }

/-- R207: DECODE is DEC_SYM repeated until the sentinel. Where DEC_SYM decodes the sentinel, DECODE does the same; where it
decodes another symbol, DECODE does what a DECODE that succeeds after it does. -/
def Obligations.DecodeIsDecSyms : Prop :=
  ∀ s u : State, s.err = false → exec .decSym s = .next u → u.err = false →
    (u.eofSeen = true → exec .decode s = .next u) ∧
    (u.eofSeen = false → ∀ t, exec .decode u = .next t → t.err = false → exec .decode s = .next t)

/-- What ENCODE writes, DECODE reads back (R108, R207, R209): from a state that meets the invariant, where ENCODE succeeds,
take any state outside the error state with an open output, the same tree, and an input that continues with the bits
ENCODE appended. DECODE there succeeds, consumes exactly those bits, and appends the bytes that ENCODE read. -/
def Obligations.PayloadRoundTrip : Prop :=
  ∀ (s t u : State) (bits rest : List Bool), Inv s → s.err = false → exec .encode s = .next t → t.err = false →
    t.outBits = s.outBits ++ bits → u.err = false → u.treeValid = true → u.outClosed = false → u.tree = s.tree →
    u.inRest = bits ++ rest →
    ∃ v, exec .decode u = .next v ∧ v.err = false ∧ v.eofSeen = true ∧ v.inPos = u.inPos + bits.length ∧
      v.outBits = u.outBits ++ streamBits (streamBytes s.inRest)

/-- The host sequences COMPRESS and DECOMPRESS (R113, R193, R209) on commands alone: from a state that meets the invariant,
outside the error state, with the input at its start and a fresh output, over N bytes with N + 1 ≤ 2^W_FREQ - 1, the
commands of COMPRESS end with ERR = 0 and a closed output that holds P_MAGIC, the encoding of the tree, the codes of the
bytes, the code of 256, and fewer than 8 zero bits; and DECOMPRESS with those bytes as its input, in any state outside the
error state with a fresh output and the same P_MAGIC, ends with ERR = 0, EOF_SEEN = 1 and a closed output of the bytes that
were compressed. -/
def Obligations.CompressThenDecompress : Prop :=
  ∀ s : State, Inv s → s.err = false → s.inPos = 0 → s.outBits = [] → s.outClosed = false →
    s.inBytes.length + 1 ≤ 2 ^ s.params.wFreq.val - 1 →
    ∃ t, execAll compressSequence s = .next t ∧ t.err = false ∧ t.outClosed = true ∧ t.outBits.length % 8 = 0 ∧
      (∃ tree magic k, t.tree = some tree ∧ (magic.length = 32 ∧ ∀ j < 32, magic[j]? = some (s.params.magic.getLsbD (31 - j))) ∧
        k < 8 ∧ t.outBits = magic ++ tree.encoding ++ (s.inBytes.flatMap fun b => (t.codeOf b.toNat).path) ++
          (t.codeOf 256).path ++ List.replicate k false) ∧
      ∀ u : State, u.params.magic = s.params.magic → u.err = false → u.inBytes = streamBytes t.outBits → u.inPos = 0 →
        u.outBits = [] → u.outClosed = false →
        ∃ v, execAll decompressSequence u = .next v ∧ v.err = false ∧ v.eofSeen = true ∧ v.outClosed = true ∧
          v.outBits = streamBits s.inBytes

/-! ### The whole machine -/

/-- The launch state meets the invariant, for all parameters and every input (R261); State.reset is one of these. -/
def Obligations.LaunchMeetsInvariant : Prop :=
  (∀ (p : Params) (input : List Byte), Inv (State.launch p input)) ∧ Inv State.reset

/-- Every step keeps the invariant, from every state that meets it: a command's end, a host access, a stream action, the
reset input. -/
def Obligations.StepKeepsInvariant : Prop := ∀ s t : State, Inv s → step s = .next t → Inv t

/-- From every state that meets the invariant every command completes: it answers a next state, which meets the invariant
(R13: every command terminates). -/
def Obligations.CommandsComplete : Prop := ∀ (i : Instr) (s : State), Inv s → ∃ t, exec i s = .next t ∧ Inv t

/-- Only the host's undefined accesses stop the machine: from a state that meets the invariant a step never faults, and it
is refused only for a host action that R78 or R82 leaves undefined. -/
def Obligations.OnlyHostMisuseStops : Prop :=
  ∀ s : State, Inv s →
    (∀ r, step s ≠ .fault r) ∧
    ∀ r, step s = .refused r → ∃ a rest, s.host = a :: rest ∧
      ((∃ addr width v, (a = .write addr width v ∨ a = .read addr width) ∧
          (width ≠ 4 ∨ (addr - s.params.base) % 4 ≠ 0 ∨ addr < s.params.base ∨ s.params.base + 0x8000 ≤ addr)) ∨
        (s.busy = true ∧ ((∃ bytes, a = .attachInput bytes) ∨ a = .attachOutput ∨ a = .takeOutput)))

/-- No command touches the host's side, and no step changes the parameters (R6, R38, R39). -/
def Obligations.ParametersAreConstant : Prop :=
  (∀ (i : Instr) (s t : State), exec i s = .next t →
    t.params = s.params ∧ t.cmd = s.cmd ∧ t.host = s.host ∧ t.log = s.log ∧ t.inBytes = s.inBytes) ∧
  ∀ s t : State, step s = .next t → t.params = s.params

/-- Only COUNT writes FREQ, only BUILD and RD_TREE write NODE, only GENCODES writes CODE (R40, R42, R45); and of the
registers, RESULT is written only by DEC_SYM, DECODE and INIT, TOTAL only by COUNT and INIT, TREE only by BUILD, RD_TREE
and INIT (R35, R36, R37). -/
def Obligations.TablesHaveOneWriter : Prop :=
  ∀ (i : Instr) (s t : State), exec i s = .next t →
    (i ≠ .count → t.freq = s.freq) ∧
    (i ≠ .build → i ≠ .rdTree → t.node = s.node) ∧
    (i ≠ .gencodes → t.code = s.code) ∧
    (i ≠ .decSym → i ≠ .decode → i ≠ .init → t.resultSym = s.resultSym ∧ t.resultValid = s.resultValid) ∧
    (i ≠ .count → i ≠ .init → t.total = s.total) ∧
    (i ≠ .build → i ≠ .rdTree → i ≠ .init → t.root = s.root ∧ t.nodeCount = s.nodeCount)

/-- The valid flags and EOF_SEEN (R28 to R31): each is changed only by the commands its rule names, and is 1 after a
successful one of them (EOF_SEEN: where the sentinel was decoded). OVR is changed by no command but CLRERR and INIT, which
clear it (R33). -/
def Obligations.FlagsFollowTheirRules : Prop :=
  ∀ (i : Instr) (s t : State), exec i s = .next t →
    (i ≠ .count → i ≠ .init → t.freqValid = s.freqValid) ∧
    (i ≠ .build → i ≠ .rdTree → i ≠ .init → t.treeValid = s.treeValid) ∧
    (i ≠ .gencodes → i ≠ .build → i ≠ .rdTree → i ≠ .init → t.codesValid = s.codesValid) ∧
    (i ≠ .decSym → i ≠ .decode → i ≠ .build → i ≠ .rdTree → i ≠ .init → t.eofSeen = s.eofSeen) ∧
    (i ≠ .clrerr → i ≠ .init → t.ovr = s.ovr) ∧
    (t.err = false → s.err = false →
      (i = .count → t.freqValid = true) ∧ (i = .build ∨ i = .rdTree → t.treeValid = true ∧ t.codesValid = false) ∧
      (i = .gencodes → t.codesValid = true) ∧ (i = .decSym ∨ i = .decode → (t.eofSeen = true ↔ t.resultSym = eofSym))) ∧
    (i = .init → t.freqValid = false ∧ t.treeValid = false ∧ t.codesValid = false ∧ t.eofSeen = false) ∧
    (i = .clrerr ∨ i = .init → t.ovr = false)

/-- R260, with no command running: the reset input sets every register to 0 but for OUT_CLOSED, MAGIC and PARAM, leaves
the ports as they are, and the block idle and outside the error state. -/
def Obligations.ResetResult : Prop :=
  ∀ (s : State) (rest : List HostAction), s.cmd = none → s.host = .assertReset :: rest →
    ∃ t, step s = .next t ∧ t.cmd = none ∧ t.err = false ∧
      t.status = BitVec.ofNat 32 (s.outClosed.toNat * 64) ∧
      t.errorWord = 0 ∧ t.resultWord = 0 ∧ t.totalWord = 0 ∧ t.treeWord = 0 ∧
      t.inBytes = s.inBytes ∧ t.inPos = s.inPos ∧ t.outBits = s.outBits ∧ t.outClosed = s.outClosed ∧
      t.params = s.params ∧ t.host = rest ∧ t.log = s.log

/-- R260, while a command runs: the reset abandons it, and its partial effects on the ports stay. The registers are set as
for an idle block. The ports are those that some first part of the command's port accesses leaves, each access whole (R79);
how many is a free value (log entry 9). All the accesses of a command leave the ports that the command does; reads and
writes have the widths the table of R70 gives the command, and only REWIND rewinds and only CLOSE closes. So if the whole command (with the reset no longer pending) would have led to `t`,
the input position after the reset is one the command passed through (REWIND: its start or its end), the output is the old
output and some of what the command would have appended, and it is closed only if the command would have closed it, with
its padding. -/
def Obligations.ResetAbandonsACommand : Prop :=
  (∀ (s : State) (w : Word) (rest : List HostAction), s.cmd = some w → s.host = .assertReset :: rest →
    ∃ u, step s = .next u ∧ u.cmd = none ∧ u.err = false ∧ u.status = BitVec.ofNat 32 (u.outClosed.toNat * 64) ∧
      u.errorWord = 0 ∧ u.resultWord = 0 ∧ u.totalWord = 0 ∧ u.treeWord = 0 ∧
      u.inBytes = s.inBytes ∧ u.params = s.params ∧ u.host = rest ∧ u.log = s.log ∧
      (∃ made, made <+: wordAccesses w { s with host := rest } ∧ u.inPos = (s.accesses made).inPos ∧
        u.outBits = (s.accesses made).outBits ∧ u.outClosed = (s.accesses made).outClosed) ∧
      ∀ t, execute w { s with host := rest } = .next t →
        (s.inPos ≤ t.inPos → s.inPos ≤ u.inPos ∧ u.inPos ≤ t.inPos) ∧
        (t.inPos < s.inPos → u.inPos = s.inPos ∨ u.inPos = t.inPos) ∧
        s.outBits <+: u.outBits ∧ u.outBits <+: t.outBits ∧
        (u.outClosed = s.outClosed ∨ (u.outClosed = t.outClosed ∧ u.outBits = t.outBits))) ∧
  (∀ (s t : State) (w : Word), execute w s = .next t →
    (s.accesses (wordAccesses w s)).inPos = t.inPos ∧ (s.accesses (wordAccesses w s)).outBits = t.outBits ∧
    (s.accesses (wordAccesses w s)).outClosed = t.outClosed) ∧
  ∀ (s : State) (i : Instr) (a : PortAccess), a ∈ commandAccesses i s →
    (∀ n, a = .read n → n ∈ readWidths i) ∧ (∀ n v, a = .write n v → n ∈ writeWidths i ∧ s.outClosed = false) ∧
    (a = .rewind → i = .rewind) ∧ (a = .close → i = .close)

/-! ### The host's accesses -/

/-- A defined host read while BUSY = 0 (R81, R82): the word goes to the host and nothing else changes, so a second read
returns the same word; a defined host write to an offset other than CMD changes nothing; a read of CMD or of a reserved
offset returns 0. -/
def Obligations.ReadsHaveNoSideEffect : Prop :=
  (∀ (s : State) (off : Nat) (rest : List HostAction), s.cmd = none → off < 0x8000 → off % 4 = 0 →
    s.host = .read (s.params.base + off) 4 :: rest →
    step s = .next { s with host := rest, log := s.log ++ [.word (s.params.base + off) (s.readWord off)] } ∧
    ∀ t, step s = .next t → t.readWord off = s.readWord off) ∧
  (∀ (s : State) (off : Nat) (v : Word) (rest : List HostAction), off < 0x8000 → off % 4 = 0 → off ≠ 0 →
    s.host = .write (s.params.base + off) 4 v :: rest → step s = .next { s with host := rest }) ∧
  ∀ (s : State) (off : Nat), off % 4 = 0 → off < 0x8000 →
    (off = 0 ∨ (0x20 ≤ off ∧ off ≤ 0x0FFF) ∨ (0x1404 ≤ off ∧ off ≤ 0x1FFF) ∨ (0x2404 ≤ off ∧ off ≤ 0x2FFF) ∨
      (0x5020 ≤ off ∧ off ≤ 0x5FFF) ∨ 0x7008 ≤ off) → s.readWord off = 0

/-- R87: a read while BUSY = 1 gives the host a free word, but bit 0 of STATUS, BUSY, reads 1; the block does not
change. -/
def Obligations.ReadsWhileBusy : Prop :=
  ∀ (s : State) (off : Nat) (rest : List HostAction), s.cmd ≠ none → off < 0x8000 → off % 4 = 0 →
    s.host = .read (s.params.base + off) 4 :: rest →
    ∃ v, step s = .next { s with
        host := rest, log := s.log ++ [.word (s.params.base + off) v], draw := s.draw + 1 } ∧
      (off = 4 → v.getLsbD 0 = true)

/-- The registers, bit by bit (R25, R34, R35, R37 to R39). -/
def Obligations.RegisterFields : Prop :=
  ∀ s : State,
    (List.range 8).map (s.readWord 0x4).getLsbD =
      [s.busy, s.err, s.freqValid, s.treeValid, s.codesValid, s.eofSeen, s.outClosed, s.ovr] ∧
    (s.readWord 0x4).toNat < 256 ∧
    (s.readWord 0x8).toNat = s.errorCode.toNat + 256 * s.errorOp.toNat ∧
    (s.readWord 0xC).toNat = s.resultSym.toNat + 2 ^ 31 * s.resultValid.toNat ∧
    (s.total.toNat < 2 ^ s.params.wFreq.val → s.readWord 0x10 = s.total) ∧
    (s.readWord 0x14).toNat = s.root.toNat + 2 ^ 16 * s.nodeCount.toNat ∧
    s.readWord 0x18 = s.params.magic ∧
    (s.readWord 0x1C).toNat = s.params.wFreq.val

/-- The windows (R41, R43, R46), where what they show is specified. -/
def Obligations.WindowsShowTheTables : Prop :=
  ∀ s : State, Inv s →
    (∀ sym (h : sym < 257), s.readWord (0x1000 + 4 * sym) = s.freq[sym]) ∧
    (s.codesValid = true → ∀ sym (h : sym < 257),
      (s.readWord (0x2000 + 4 * sym)).toNat = s.code[sym].len.toNat + 2 ^ 31 * s.code[sym].valid.toNat ∧
      ∀ k j, k < 8 → j < 32 →
        (s.readWord (0x3000 + 32 * sym + 4 * k)).getLsbD j = s.code[sym].bits.getLsbD (32 * k + j)) ∧
    (s.treeValid = true → ∀ i (h : i < 513), i < s.nodeCount.toNat →
      s.readWord (0x6000 + 8 * i) = s.node[i].weight ∧
      (s.readWord (0x6004 + 8 * i)).toNat = s.node[i].left.toNat + 2 ^ 10 * s.node[i].right.toNat
        + 2 ^ 20 * s.node[i].sym.toNat + 2 ^ 31 * s.node[i].leaf.toNat)

/-- R82: a host access inside the block's space that is narrower, wider or misaligned is refused. -/
def Obligations.UndefinedAccessesAreRefused : Prop :=
  ∀ (s : State) (a : HostAction) (rest : List HostAction) (off width : Nat) (v : Word), s.host = a :: rest →
    (a = .read (s.params.base + off) width ∨ a = .write (s.params.base + off) width v) → off < 0x8000 →
    (width ≠ 4 ∨ off % 4 ≠ 0) → step s = .refused (.undefinedAccess (s.params.base + off) width)

/-- The stream actions (R78, R266). While BUSY = 0, AttachInput gives the input port the bytes at position 0; AttachOutput
hands over the old stream's bytes, without the last partial byte of an open stream, and attaches a fresh open one; TakeOutput
lets the host read the output bits, as bytes if the stream is closed, and leaves them; nothing else changes. While BUSY = 1
they are refused. The host's queue and what it is given are the model's (log entry 2), the refusal is log entry 10, the bits
of an open stream are log entry 17. -/
def Obligations.StreamActions : Prop :=
  ∀ (s : State) (rest : List HostAction),
    (s.cmd = none →
      (∀ bytes, s.host = .attachInput bytes :: rest →
        step s = .next { s with host := rest, inBytes := bytes, inPos := 0 }) ∧
      (s.host = .attachOutput :: rest → ∃ bytes : List Byte, bytes.length = s.outBits.length / 8 ∧
        (∀ j k, j < bytes.length → k < 8 → (bytes[j]?).map (fun b => b.getLsbD (7 - k)) = s.outBits[8 * j + k]?) ∧
        step s = .next { s with host := rest, log := s.log ++ [.bytes bytes], outBits := [], outClosed := false }) ∧
      (s.host = .takeOutput :: rest →
        (s.outClosed = true →
          step s = .next { s with host := rest, log := s.log ++ [.bytes (streamBytes s.outBits)] }) ∧
        (s.outClosed = false → step s = .next { s with host := rest, log := s.log ++ [.bits s.outBits] }))) ∧
    (s.cmd ≠ none →
      (∃ bytes, s.host = .attachInput bytes :: rest) ∨ s.host = .attachOutput :: rest ∨ s.host = .takeOutput :: rest →
      step s = .refused .streamActionWhileBusy)
end

