-- ==== Sys2Proof/Laws/Bits.lean ====
section
/-!
SUPPORT. Laws of bit fields and of the two stream ports (spec/20_memory.md R72 to R76).
-/

namespace Sys2Proof.Machine

@[simp] theorem fieldBits_length (n v : Nat) : (fieldBits n v).length = n := by simp [fieldBits]

/-- Bit k of a field is bit n-1-k of the value (R74). -/
theorem fieldBits_getElem {n v k : Nat} (h : k < (fieldBits n v).length) :
    (fieldBits n v)[k] = v.testBit (n - 1 - k) := by simp [fieldBits]

theorem foldl_bits (bits : List Bool) (a : Nat) :
    bits.foldl (fun v b => 2 * v + b.toNat) a = a * 2 ^ bits.length + bitsValue bits := by
  induction bits generalizing a with
  | nil => simp [bitsValue]
  | cons b bits ih =>
    simp only [bitsValue, List.foldl_cons, List.length_cons] at *
    rw [ih, ih (2 * 0 + b.toNat)]
    ring

@[simp] theorem bitsValue_nil : bitsValue [] = 0 := rfl

theorem bitsValue_cons (b : Bool) (bits : List Bool) :
    bitsValue (b :: bits) = b.toNat * 2 ^ bits.length + bitsValue bits := by
  rw [bitsValue, List.foldl_cons, foldl_bits]; simp

theorem bitsValue_lt (bits : List Bool) : bitsValue bits < 2 ^ bits.length := by
  induction bits with
  | nil => simp
  | cons b bits ih =>
    rw [bitsValue_cons, List.length_cons, pow_succ]
    cases b <;> simp <;> omega

/-- The k-th bit read is bit n-1-k of the value (R72). -/
theorem bitsValue_testBit (bits : List Bool) {k : Nat} (h : k < bits.length) :
    (bitsValue bits).testBit (bits.length - 1 - k) = bits[k] := by
  induction bits generalizing k with
  | nil => simp at h
  | cons b bits ih =>
    have hlt := bitsValue_lt bits
    rw [bitsValue_cons, mul_comm]
    cases k with
    | zero =>
      simp only [List.length_cons, Nat.add_sub_cancel, Nat.sub_zero, List.getElem_cons_zero]
      rw [Nat.testBit_two_pow_mul_add _ hlt, if_neg (by omega), Nat.sub_self]
      cases b <;> rfl
    | succ k =>
      simp only [List.length_cons, List.getElem_cons_succ] at h ⊢
      rw [Nat.testBit_two_pow_mul_add _ hlt, if_pos (by omega), ← ih (by omega)]
      congr 1; omega

/-- Writing the value of bits read gives the bits back. -/
theorem fieldBits_bitsValue (bits : List Bool) : fieldBits bits.length (bitsValue bits) = bits := by
  apply List.ext_getElem (by simp)
  intro k h1 h2
  rw [fieldBits_getElem, bitsValue_testBit]

/-- Reading a field written gives its value back. -/
theorem bitsValue_fieldBits {n v : Nat} (h : v < 2 ^ n) : bitsValue (fieldBits n v) = v := by
  have hl : bitsValue (fieldBits n v) < 2 ^ n := by simpa using bitsValue_lt (fieldBits n v)
  apply Nat.eq_of_testBit_eq
  intro i
  by_cases hi : i < n
  · have hk : n - 1 - i < (fieldBits n v).length := by simp; omega
    have := bitsValue_testBit (fieldBits n v) hk
    rw [fieldBits_getElem, fieldBits_length, show n - 1 - (n - 1 - i) = i by omega] at this
    exact this
  · rw [Nat.testBit_eq_false_of_lt (hl.trans_le (Nat.pow_le_pow_right (by omega) (by omega))),
      Nat.testBit_eq_false_of_lt (h.trans_le (Nat.pow_le_pow_right (by omega) (by omega)))]

@[simp] theorem byteBits_length (b : Byte) : (byteBits b).length = 8 := by simp [byteBits]

@[simp] theorem streamBits_nil : streamBits [] = [] := rfl

@[simp] theorem streamBits_cons (b : Byte) (bytes : List Byte) :
    streamBits (b :: bytes) = byteBits b ++ streamBits bytes := rfl

theorem streamBits_append (xs ys : List Byte) : streamBits (xs ++ ys) = streamBits xs ++ streamBits ys := by
  simp [streamBits]

@[simp] theorem streamBits_length (bytes : List Byte) : (streamBits bytes).length = 8 * bytes.length := by
  induction bytes with
  | nil => rfl
  | cons b bytes ih => simp [ih]; omega

theorem streamBits_drop (bytes : List Byte) (k : Nat) : (streamBits bytes).drop (8 * k) = streamBits (bytes.drop k) := by
  induction bytes generalizing k with
  | nil => simp
  | cons b bytes ih =>
    cases k with
    | zero => simp
    | succ k =>
      rw [streamBits_cons, show 8 * (k + 1) = (byteBits b).length + 8 * k by simp; omega, ← List.drop_drop,
        List.drop_left, ih, List.drop_succ_cons]

/-- Bit p of a stream is bit 7 - p mod 8 of byte p div 8 (R72, R76). -/
theorem streamBits_getElem (bytes : List Byte) {p : Nat} (h : p < (streamBits bytes).length) :
    (streamBits bytes)[p] = (bytes[p / 8]'(by simp at h; omega)).getLsbD (7 - p % 8) := by
  induction bytes generalizing p with
  | nil => simp at h
  | cons b bytes ih =>
    by_cases hp : p < 8
    · have h0 : p / 8 = 0 := by omega
      have h1 : p % 8 = p := by omega
      simp only [streamBits_cons, List.getElem_append, byteBits_length, hp, dif_pos, h0, h1, List.getElem_cons_zero]
      simp [byteBits, fieldBits_getElem, BitVec.getLsbD]
    · have h0 : p / 8 = (p - 8) / 8 + 1 := by omega
      have h1 : p % 8 = (p - 8) % 8 := by omega
      simp only [streamBits_cons, List.getElem_append, byteBits_length, hp, dif_neg, not_false_eq_true, h0, h1,
        List.getElem_cons_succ]
      exact ih _

theorem list_eight {α : Type} (l : List α) (h : l.length = 8) :
    ∃ a b c d e f g i, l = [a, b, c, d, e, f, g, i] := by
  match l, h with
  | [a, b, c, d, e, f, g, i], _ => exact ⟨a, b, c, d, e, f, g, i, rfl⟩

/-- A whole byte first: one InRead(8) (R72, R131). -/
theorem streamBytes_append (bits rest : List Bool) (h : bits.length = 8) :
    streamBytes (bits ++ rest) = BitVec.ofNat 8 (bitsValue bits) :: streamBytes rest := by
  obtain ⟨a, b, c, d, e, f, g, i, rfl⟩ := list_eight bits h
  rfl

theorem streamBytes_short (bits : List Bool) (h : bits.length < 8) : streamBytes bits = [] := by
  match bits, h with
  | [], _ | [_], _ | [_, _], _ | [_, _, _], _ | [_, _, _, _], _ | [_, _, _, _, _], _ | [_, _, _, _, _, _], _
  | [_, _, _, _, _, _, _], _ => rfl
  | _ :: _ :: _ :: _ :: _ :: _ :: _ :: _ :: _, h => simp at h; omega

theorem ofNat_bitsValue_byteBits (b : Byte) : BitVec.ofNat 8 (bitsValue (byteBits b)) = b := by
  rw [byteBits, bitsValue_fieldBits b.isLt]; simp

theorem byteBits_ofNat_bitsValue (bits : List Bool) (h : bits.length = 8) :
    byteBits (BitVec.ofNat 8 (bitsValue bits)) = bits := by
  have := bitsValue_lt bits
  rw [h] at this
  rw [byteBits, BitVec.toNat_ofNat, Nat.mod_eq_of_lt this, ← h, fieldBits_bitsValue]

/-- Packing and unpacking bytes agree (R76). -/
@[simp] theorem streamBytes_streamBits (bytes : List Byte) : streamBytes (streamBits bytes) = bytes := by
  induction bytes with
  | nil => rfl
  | cons b bytes ih => rw [streamBits_cons, streamBytes_append _ _ (by simp), ofNat_bitsValue_byteBits, ih]

theorem streamBytes_length (bits : List Bool) : (streamBytes bits).length = bits.length / 8 := by
  induction bits using streamBytes.induct with
  | case1 b7 b6 b5 b4 b3 b2 b1 b0 rest ih => simp [streamBytes, ih]; omega
  | case2 bits h =>
    by_cases hl : bits.length < 8
    · rw [streamBytes_short _ hl]; simp; omega
    · match bits, h with
      | _ :: _ :: _ :: _ :: _ :: _ :: _ :: _ :: _, h => exact absurd rfl (h _ _ _ _ _ _ _ _ _)
      | [], _ | [_], _ | [_, _], _ | [_, _, _], _ | [_, _, _, _], _ | [_, _, _, _, _], _ | [_, _, _, _, _, _], _
      | [_, _, _, _, _, _, _], _ => simp at hl

/-- A whole number of bytes is unpacked to the bits it was packed from (R76). -/
theorem streamBits_streamBytes (bits : List Bool) (h : bits.length % 8 = 0) : streamBits (streamBytes bits) = bits := by
  induction bits using streamBytes.induct with
  | case1 b7 b6 b5 b4 b3 b2 b1 b0 rest ih =>
    rw [streamBytes, streamBits_cons, byteBits_ofNat_bitsValue _ rfl, ih (by simp at h; omega)]; rfl
  | case2 bits h' =>
    match bits, h' with
    | _ :: _ :: _ :: _ :: _ :: _ :: _ :: _ :: _, h' => exact absurd rfl (h' _ _ _ _ _ _ _ _ _)
    | [], _ => rfl
    | [_], _ | [_, _], _ | [_, _, _], _ | [_, _, _, _], _ | [_, _, _, _, _], _ | [_, _, _, _, _, _], _
    | [_, _, _, _, _, _, _], _ => simp at h

/-- What InRead(n) answers (R72): EOS exactly if fewer than n bits remain. -/
theorem inRead_cases (n : Nat) (bits : List Bool) :
    (bits.length < n ∧ inRead n bits = none) ∨
      ∃ field rest, bits = field ++ rest ∧ field.length = n ∧ inRead n bits = some (bitsValue field, rest) := by
  by_cases h : bits.length < n
  · exact .inl ⟨h, by simp [inRead, h]⟩
  · exact .inr ⟨bits.take n, bits.drop n, by simp, by simp; omega, by simp [inRead, h]⟩

/-- Reading a field just written (R72, R74). -/
theorem inRead_fieldBits {n v : Nat} (h : v < 2 ^ n) (rest : List Bool) :
    inRead n (fieldBits n v ++ rest) = some (v, rest) := by
  simp [inRead, bitsValue_fieldBits h]

/-- A read that returns a value takes its n bits off the front. -/
theorem inRead_some {n v : Nat} {bits rest : List Bool} (h : inRead n bits = some (v, rest)) :
    bits = fieldBits n v ++ rest ∧ v < 2 ^ n := by
  rcases inRead_cases n bits with ⟨-, h'⟩ | ⟨field, rest', rfl, hl, h'⟩
  · simp [h'] at h
  · rw [h'] at h
    obtain ⟨rfl, rfl⟩ := by simpa using h
    subst hl
    exact ⟨by rw [fieldBits_bitsValue], bitsValue_lt field⟩

theorem inRest_length (s : State) : s.inRest.length = s.inEnd - s.inPos := by
  simp [State.inRest, State.inEnd]

/-- The remaining bits after reads that left `rest` (R72). -/
theorem inRest_inAdvance (s : State) {front rest : List Bool} (h : s.inRest = front ++ rest) :
    (s.inAdvance rest).inPos = s.inPos + front.length ∧ (s.inAdvance rest).inRest = rest := by
  have hp : (s.inAdvance rest).inPos = s.inPos + front.length := by simp [State.inAdvance, h]
  refine ⟨hp, ?_⟩
  have : (s.inAdvance rest).inRest = (streamBits s.inBytes).drop (s.inPos + front.length) := by
    rw [State.inRest, hp]; rfl
  rw [this, ← List.drop_drop, ← State.inRest, h, List.drop_left]

theorem padding_length (n : Nat) : (n + (padding n).length) % 8 = 0 := by
  simp [padding]; omega

/-- OutClose leaves a whole number of bytes, if a closed stream is one (R75). -/
theorem outClose_whole (s : State) (h : s.outClosed = true → s.outBits.length % 8 = 0) :
    s.outClose.outBits.length % 8 = 0 := by
  unfold State.outClose
  split
  · exact h ‹_›
  · simpa using padding_length s.outBits.length

theorem fieldBits_getElem? {n v k : Nat} (h : k < n) : (fieldBits n v)[k]? = some (v.testBit (n - 1 - k)) := by
  rw [List.getElem?_eq_getElem (by simpa), fieldBits_getElem]

end Sys2Proof.Machine
end

