-- ==== Sys2Proof/Laws/Counter.lean ====
section
/-!
SUPPORT. Laws of the frequency counter's loop (spec/40_frequency_counter.md R130 to R133).
-/

namespace Sys2Proof.Machine

/-- The sum of the entries of FREQ (R133). -/
def freqSum (freq : Vector Word 257) : Nat := (freq.toList.map BitVec.toNat).sum

theorem maxCount_lt (p : Params) : maxCount p + 1 = 2 ^ p.wFreq.val := by
  have : 0 < 2 ^ p.wFreq.val := by positivity
  simp only [maxCount]; omega

theorem maxCount_lt_word (p : Params) : maxCount p < 2 ^ 32 := by
  have : 2 ^ p.wFreq.val ≤ 2 ^ 32 := Nat.pow_le_pow_right (by omega) p.wFreq.property.2
  have := maxCount_lt p
  omega

theorem one_le_maxCount (p : Params) : 1 ≤ maxCount p := by
  have : 2 ^ 1 ≤ 2 ^ p.wFreq.val := Nat.pow_le_pow_right (by omega) p.wFreq.property.1
  have := maxCount_lt p
  omega

theorem bumpFreq_getElem (freq : Vector Word 257) (b : Byte) {i : Nat} (h : i < 257) :
    (bumpFreq freq b)[i] = if b.toNat = i then freq[i] + 1 else freq[i] := by
  rw [bumpFreq, Vector.getElem_set]
  split
  · subst_vars; rfl
  · rfl

theorem sum_set (l : List Nat) (i v : Nat) (h : i < l.length) : (l.set i v).sum + l[i] = l.sum + v := by
  induction l generalizing i with
  | nil => simp at h
  | cons a l ih =>
    cases i with
    | zero => simp; omega
    | succ i => simp at h ⊢; have := ih i h; omega

theorem freqSum_set (freq : Vector Word 257) {i : Nat} (h : i < 257) (v : Word) :
    freqSum (freq.set i v) + freq[i].toNat = freqSum freq + v.toNat := by
  have := sum_set (freq.toList.map BitVec.toNat) i v.toNat (by simpa using h)
  simpa [freqSum, Vector.toList_set, List.map_set] using this

theorem freqStart_getElem {i : Nat} (h : i < 257) : freqStart[i] = if i = 256 then 1 else 0 := by
  rw [freqStart, Vector.getElem_set]
  by_cases hi : 256 = i
  · simp [hi]
  · simp [hi, Ne.symm hi]

theorem freqSum_start : freqSum freqStart = 1 := by
  have := freqSum_set (Vector.replicate 257 0) (i := 256) (by omega) 1
  have h0 : freqSum (Vector.replicate 257 0) = 0 := by
    rw [freqSum, Vector.toList_replicate, List.map_replicate, List.sum_replicate]; rfl
  rw [h0, Vector.getElem_replicate, show (0 : Word).toNat = 0 from rfl, show (1 : Word).toNat = 1 from rfl] at this
  rw [freqStart]
  omega

theorem le_freqSum (freq : Vector Word 257) {i : Nat} (h : i < 257) : freq[i].toNat ≤ freqSum freq := by
  refine List.single_le_sum (by simp) _ ?_
  exact List.mem_map.mpr ⟨freq[i], by simp, rfl⟩

/-- What COUNT's loop keeps: every entry counts the bytes counted so far, and TOTAL is their sum (R133). -/
theorem countLoop_run (limit : Nat) (hl : limit < 2 ^ 32) (bytes : List Byte) (freq : Vector Word 257) (total : Word)
    (hs : freqSum freq = total.toNat) (ht : total.toNat ≤ limit) :
    ∃ counted, counted = bytes.take (limit - total.toNat) ∧
      (∀ i (h : i < 257), ((countLoop limit bytes freq total).freq[i]).toNat
        = freq[i].toNat + counted.countP fun b => b.toNat == i) ∧
      (countLoop limit bytes freq total).total.toNat = total.toNat + counted.length ∧
      freqSum (countLoop limit bytes freq total).freq = (countLoop limit bytes freq total).total.toNat ∧
      (countLoop limit bytes freq total).overflow =
        if bytes.length ≤ limit - total.toNat then none else some (bytes.drop (limit - total.toNat + 1)) := by
  refine ⟨_, rfl, ?_⟩
  induction bytes generalizing freq total with
  | nil => simp [countLoop, hs]
  | cons b bytes ih =>
    rw [countLoop]
    by_cases hlim : total.toNat = limit
    · simp [hlim, hs]
    · have hb := b.isLt
      have h1 : (total + 1).toNat = total.toNat + 1 := by
        rw [BitVec.toNat_add]; simp; omega
      have hfb : ∀ i (h : i < 257), (freq[i] + 1).toNat = freq[i].toNat + 1 := by
        intro i h
        have := le_freqSum freq h
        rw [BitVec.toNat_add]; simp; omega
      have hsum : freqSum (bumpFreq freq b) = (total + 1).toNat := by
        have := freqSum_set freq (i := b.toNat) (by omega) (freq[b.toNat] + 1)
        rw [hfb] at this
        rw [bumpFreq, h1]; omega
      obtain ⟨hf, ht', hs', ho⟩ := ih (bumpFreq freq b) (total + 1) hsum (by omega)
      have htake : limit - total.toNat = (limit - (total + 1).toNat) + 1 := by omega
      rw [if_neg hlim]
      refine ⟨fun i h => ?_, ?_, hs', ?_⟩
      · rw [hf i h, htake, List.take_succ_cons, List.countP_cons, bumpFreq_getElem freq b h]
        by_cases hi : b.toNat = i
        · rw [if_pos hi, hfb, if_pos (by simpa using hi)]; omega
        · rw [if_neg hi, if_neg (by simpa using hi)]; omega
      · rw [ht', htake, List.take_succ_cons, List.length_cons, h1]; omega
      · rw [ho, htake, List.length_cons, List.drop_succ_cons]
        simp

/-- What the loop of COUNT leaves when it starts from FREQ[256] = 1 and TOTAL = 1 (R130, R132, R133). -/
theorem countLoop_start (p : Params) (bytes : List Byte) :
    ∃ counted, counted = bytes.take (maxCount p - 1) ∧
      (∀ sym (_ : sym < 256), ((countLoop (maxCount p) bytes freqStart 1).freq[sym]).toNat =
        counted.countP fun b => b.toNat == sym) ∧
      (countLoop (maxCount p) bytes freqStart 1).freq[256] = 1#32 ∧
      (countLoop (maxCount p) bytes freqStart 1).total.toNat = 1 + counted.length ∧
      freqSum (countLoop (maxCount p) bytes freqStart 1).freq = (countLoop (maxCount p) bytes freqStart 1).total.toNat ∧
      (countLoop (maxCount p) bytes freqStart 1).overflow =
        if bytes.length ≤ maxCount p - 1 then none else some (bytes.drop (maxCount p)) := by
  have h1 := one_le_maxCount p
  obtain ⟨counted, hc, hf, ht, hs, ho⟩ :=
    countLoop_run (maxCount p) (maxCount_lt_word _) bytes freqStart 1 freqSum_start h1
  have e1 : (1 : Word).toNat = 1 := rfl
  rw [e1] at hc ht ho
  refine ⟨counted, hc, fun sym h => ?_, ?_, ht, hs, by rw [ho, Nat.sub_add_cancel h1]⟩
  · rw [hf sym (by omega), freqStart_getElem, if_neg (by omega)]; simp
  · have hz : counted.countP (fun b => b.toNat == 256) = 0 := by
      rw [List.countP_eq_zero]
      intro b _
      have := b.isLt
      simp; omega
    apply BitVec.eq_of_toNat_eq
    rw [hf 256 (by omega), freqStart_getElem, if_pos rfl, hz]; rfl

end Sys2Proof.Machine
end

