-- ==== Sys2Proof/Laws/Tree.lean ====
section
/-!
SUPPORT. Laws of trees: the encoding and its reader (spec/43_tree_codec.md R160 to R170), the slots in preorder
(R165), and the code paths (spec/42_code_table.md R150 to R156).
-/

namespace Sys2Proof.Machine

/-! ### Sizes -/

theorem HTree.size_eq (t : HTree) : t.size = 2 * t.internals + 1 := by
  induction t with
  | leaf => rfl
  | node l r ihl ihr => simp [HTree.size, HTree.internals, ihl, ihr]; omega

theorem HTree.symbols_length (t : HTree) : t.symbols.length = t.internals + 1 := by
  induction t with
  | leaf => rfl
  | node l r ihl ihr => simp [HTree.symbols, HTree.internals, ihl, ihr]; omega

/-- A tree of L leaves is encoded in 11 L - 1 bits (R105). -/
theorem HTree.encoding_length (t : HTree) : t.encoding.length + 1 = 11 * t.symbols.length := by
  induction t with
  | leaf => simp [HTree.encoding, HTree.symbols]
  | node l r ihl ihr => simp [HTree.encoding, HTree.symbols]; omega

/-! ### The reader of the encoding -/

theorem inRead_fieldBits_append {n v : Nat} (h : v < 2 ^ n) (a rest : List Bool) :
    inRead n (fieldBits n v ++ a ++ rest) = some (v, a ++ rest) := by
  rw [List.append_assoc, inRead_fieldBits h]

/-- des() reads back what ser() wrote, if the node limit allows the tree and its symbols are in range (R170). -/
theorem parseTree_encoding (t : HTree) (fuel k : Nat) (rest : List Bool) (hf : 257 ≤ fuel + k)
    (hk : k + t.internals ≤ 256) (hs : ∀ v ∈ t.symbols, v.toNat ≤ 256) :
    parseTree fuel k (t.encoding ++ rest) = .tree t rest (k + t.internals) := by
  induction t generalizing fuel k rest with
  | leaf sym =>
    obtain ⟨fuel, rfl⟩ : ∃ f, fuel = f + 1 := ⟨fuel - 1, by simp [HTree.internals] at hk; omega⟩
    have hsym : sym.toNat ≤ 256 := hs sym (by simp [HTree.symbols])
    simp only [parseTree, HTree.encoding, inRead_fieldBits_append (show 1 < 2 ^ 1 by decide)]
    simp [inRead_fieldBits sym.isLt, HTree.internals, Nat.not_lt.mpr hsym]
  | node l r ihl ihr =>
    simp only [HTree.internals] at hk
    obtain ⟨fuel, rfl⟩ : ∃ f, fuel = f + 1 := ⟨fuel - 1, by omega⟩
    have hl := ihl fuel (k + 1) (r.encoding ++ rest) (by omega) (by omega)
      (fun v hv => hs v (by simp [HTree.symbols, hv]))
    have hr := ihr fuel (k + 1 + l.internals) rest (by omega) (by omega)
      (fun v hv => hs v (by simp [HTree.symbols, hv]))
    have h0 : inRead 1 ((HTree.node l r).encoding ++ rest) = some (0, l.encoding ++ (r.encoding ++ rest)) := by
      simp only [HTree.encoding, List.append_assoc]
      exact inRead_fieldBits (by decide) _
    simp only [parseTree, h0, if_true, if_neg (show ¬ k = 256 by omega), hl, hr, HTree.internals]
    congr 1; omega

/-- A tree that des() returns is the one whose encoding it read, within the node limit and with its symbols in range
(R164, R166, R167). -/
theorem parseTree_sound {fuel k : Nat} {bits rest : List Bool} {t : HTree} {k' : Nat}
    (h : parseTree fuel k bits = .tree t rest k') (hk : k ≤ 256) :
    bits = t.encoding ++ rest ∧ k' = k + t.internals ∧ k' ≤ 256 ∧ ∀ v ∈ t.symbols, v.toNat ≤ 256 := by
  induction fuel generalizing k bits rest t k' with
  | zero => simp [parseTree] at h
  | succ fuel ih =>
    rw [parseTree] at h
    split at h
    · cases h
    · rename_i tag bits1 h1
      obtain ⟨rfl, htag⟩ := inRead_some h1
      split at h
      · subst tag
        split at h
        · cases h
        · split at h
          · cases h
          · rename_i l bits2 k2 hl
            obtain ⟨rfl, rfl, hkl, hsl⟩ := ih hl (by omega)
            split at h
            · cases h
            · rename_i r bits3 k3 hr
              obtain ⟨rfl, rfl, hkr, hsr⟩ := ih hr (by omega)
              cases h
              refine ⟨by simp [HTree.encoding], by simp [HTree.internals]; omega, by omega, ?_⟩
              simp only [HTree.symbols, List.mem_append]
              rintro v (hv | hv)
              exacts [hsl v hv, hsr v hv]
      · have htag1 : tag = 1 := by omega
        subst htag1
        split at h
        · cases h
        · rename_i v bits2 h2
          obtain ⟨rfl, hv9⟩ := inRead_some h2
          split at h
          · cases h
          · cases h
            have hv : (BitVec.ofNat 9 v).toNat = v := by rw [BitVec.toNat_ofNat]; exact Nat.mod_eq_of_lt hv9
            refine ⟨by simp only [HTree.encoding, hv, List.append_assoc], by simp [HTree.internals], hk, ?_⟩
            simp only [HTree.symbols, List.mem_singleton]
            rintro _ rfl
            omega

/-! ### The node memory -/

@[simp] theorem HTree.layout_length (t : HTree) (i : Nat) : (t.layout i).length = t.size := by
  induction t generalizing i with
  | leaf => rfl
  | node l r ihl ihr => simp [HTree.layout, HTree.size, ihl, ihr]; omega

theorem HTree.size_pos (t : HTree) : 0 < t.size := by
  have := t.size_eq
  omega

/-- The slots below slot i hold the tree t: what reading the memory gives, with no fuel in the way. -/
inductive HoldsTree (slot : Nat → Option Node) : Nat → HTree → Prop where
  | leaf {i : Nat} {n : Node} (h : slot i = some n) (hl : n.leaf = true) : HoldsTree slot i (.leaf n.sym)
  | node {i : Nat} {n : Node} {l r : HTree} (h : slot i = some n) (hl : n.leaf = false)
    (left : HoldsTree slot n.left.toNat l) (right : HoldsTree slot n.right.toNat r) :
    HoldsTree slot i (.node l r)

/-- A tree's depth: the most internal nodes on a path. -/
def HTree.depth : HTree → Nat
  | .leaf _ => 0
  | .node l r => 1 + max l.depth r.depth

theorem HTree.depth_le (t : HTree) : t.depth ≤ t.internals := by
  induction t with
  | leaf => simp [HTree.depth]
  | node l r ihl ihr => simp only [HTree.depth, HTree.internals]; omega

/-- Walking a memory that holds a tree reads it. -/
theorem HoldsTree.readTree {mem : Vector Node 513} {i : Nat} {t : HTree} (h : HoldsTree (fun j => mem[j]?) i t)
    {fuel : Nat} (hf : t.depth < fuel) : Machine.readTree mem fuel i = some t := by
  induction h generalizing fuel with
  | leaf h hl =>
    obtain ⟨fuel, rfl⟩ : ∃ f, fuel = f + 1 := ⟨fuel - 1, by omega⟩
    simp [Machine.readTree, h, hl]
  | node h hl _ _ ihl ihr =>
    simp only [HTree.depth] at hf
    obtain ⟨fuel, rfl⟩ : ∃ f, fuel = f + 1 := ⟨fuel - 1, by omega⟩
    simp [Machine.readTree, h, hl, ihl (fuel := fuel) (by omega), ihr (fuel := fuel) (by omega)]

/-- A tree that a walk read is held by the memory. -/
theorem holdsTree_of_readTree {mem : Vector Node 513} {fuel i : Nat} {t : HTree} (h : readTree mem fuel i = some t) :
    HoldsTree (fun j => mem[j]?) i t := by
  induction fuel generalizing i t with
  | zero => simp [readTree] at h
  | succ fuel ih =>
    rw [readTree] at h
    split at h
    · cases h
    · rename_i n hn
      split at h
      · cases h; exact .leaf hn ‹_›
      · split at h
        · rename_i l r hl hr
          cases h
          exact .node hn (by simpa using ‹¬ n.leaf = true›) (ih hl) (ih hr)
        · cases h

/-- A tree held by some slots is held by every memory that has those slots. -/
theorem HoldsTree.mono {f g : Nat → Option Node} (hfg : ∀ i n, f i = some n → g i = some n) {i : Nat} {t : HTree}
    (h : HoldsTree f i t) : HoldsTree g i t := by
  induction h with
  | leaf h hl => exact .leaf (hfg _ _ h) hl
  | node h hl _ _ ihl ihr => exact .node (hfg _ _ h) hl ihl ihr

theorem fillNodes_getElem (mem : Vector Node 513) (nodes : List Node) {i : Nat} (h : i < 513) :
    (fillNodes mem nodes)[i] = (nodes[i]?).getD mem[i] := by simp [fillNodes]

/-- A slot that was filled holds its node. -/
theorem fillNodes_getElem? (mem : Vector Node 513) {nodes : List Node} (hl : nodes.length ≤ 513) {i : Nat} {n : Node}
    (h : nodes[i]? = some n) : (fillNodes mem nodes)[i]? = some n := by
  have hi : i < nodes.length := by
    by_contra hc
    rw [List.getElem?_eq_none (by omega)] at h
    cases h
  rw [Vector.getElem?_eq_getElem (by omega), fillNodes_getElem, h]; rfl

/-- The preorder slots of a tree, placed at slot i of a list of nodes, hold it (R165). -/
theorem layout_holds (t : HTree) (i : Nat) (slot : Nat → Option Node) (hi : i + t.size ≤ 1024)
    (h : ∀ j n, (t.layout i)[j]? = some n → slot (i + j) = some n) : HoldsTree slot i t := by
  induction t generalizing i with
  | leaf sym =>
    have := h 0 { leaf := true, sym := sym, weight := 0, left := 0, right := 0 } (by simp [HTree.layout])
    exact HoldsTree.leaf (n := { leaf := true, sym := sym, weight := 0, left := 0, right := 0 }) this rfl
  | node l r ihl ihr =>
    simp only [HTree.size] at hi
    have hr0 := r.size_pos
    have hl0 := l.size_pos
    have hroot := h 0 _ (by rw [HTree.layout, List.cons_append, List.getElem?_cons_zero])
    refine HoldsTree.node hroot rfl ?_ ?_
    · have e : (BitVec.ofNat 10 (i + 1)).toNat = i + 1 := by simp; omega
      simp only [e]
      refine ihl (i + 1) (by omega) fun j n hj => ?_
      have hj' : j < (l.layout (i + 1)).length := by
        by_contra hc
        rw [List.getElem?_eq_none (by omega)] at hj; cases hj
      have := h (j + 1) n (by
        rw [HTree.layout, List.cons_append, List.getElem?_cons_succ, List.getElem?_append_left hj', hj])
      rwa [show i + 1 + j = i + (j + 1) by omega]
    · have e : (BitVec.ofNat 10 (i + 1 + l.size)).toNat = i + 1 + l.size := by simp; omega
      simp only [e]
      refine ihr (i + 1 + l.size) (by omega) fun j n hj => ?_
      have := h (l.size + j + 1) n (by
        rw [HTree.layout, List.cons_append, List.getElem?_cons_succ, List.getElem?_append_right (by simp),
          HTree.layout_length, Nat.add_sub_cancel_left, hj])
      rwa [show i + 1 + l.size + j = i + (l.size + j + 1) by omega]

/-- Filling the memory with the preorder slots of a tree makes slot 0 hold it (R165). -/
theorem readTree_layout (mem : Vector Node 513) (t : HTree) (h : t.internals ≤ 256) :
    readTree (fillNodes mem (t.layout 0)) 513 0 = some t := by
  have hs := t.size_eq
  refine HoldsTree.readTree (layout_holds t 0 _ (by omega) fun j n hj => ?_) (by have := t.depth_le; omega)
  rw [Nat.zero_add]
  exact fillNodes_getElem? mem (by simp; omega) hj

/-! ### Code paths -/

theorem pathValue_lt (p : List Bool) : pathValue p < 2 ^ p.length := by
  induction p with
  | nil => simp [pathValue]
  | cons b p ih => simp only [pathValue, List.length_cons, pow_succ]; cases b <;> simp <;> omega

theorem pathValue_testBit (p : List Bool) (k : Nat) : (pathValue p).testBit k = (p[k]?).getD false := by
  induction p generalizing k with
  | nil => simp [pathValue]
  | cons b p ih =>
    cases k with
    | zero => cases b <;> simp [pathValue, Nat.testBit_zero]
    | succ k =>
      rw [Nat.testBit_succ, pathValue, show (b.toNat + 2 * pathValue p) / 2 = pathValue p by have := b.toNat_le; omega,
        ih]
      simp

/-- The code of an entry that holds a path is the path (R45, R150). -/
theorem CodeEntry.path_ofPath {p : List Bool} (h : p.length ≤ 256) : (CodeEntry.ofPath p).path = p := by
  have hl : (BitVec.ofNat 9 p.length).toNat = p.length := by simp; omega
  apply List.ext_getElem (by simp [CodeEntry.path, CodeEntry.ofPath]; omega)
  intro k h1 h2
  simp only [CodeEntry.path, CodeEntry.ofPath, List.getElem_map, List.getElem_range]
  rw [BitVec.getLsbD_ofNat, pathValue_testBit, List.getElem?_eq_getElem h2]
  simp; omega

/-- Bits beyond the length of an entry that holds a path are 0 (R45). -/
theorem CodeEntry.ofPath_beyond (p : List Bool) {k : Nat} (h : p.length ≤ k) :
    (CodeEntry.ofPath p).bits.getLsbD k = false := by
  rw [CodeEntry.ofPath, BitVec.getLsbD_ofNat, pathValue_testBit, List.getElem?_eq_none h]; simp

/-- Every path a walk records begins with the path of its root. -/
theorem HTree.paths_eq (t : HTree) (q : List Bool) :
    t.paths q = (t.paths []).map fun sp => (sp.1, q ++ sp.2) := by
  induction t generalizing q with
  | leaf => simp [HTree.paths]
  | node l r ihl ihr =>
    simp only [HTree.paths]
    rw [ihl (q ++ [false]), ihr (q ++ [true]), ihl ([] ++ [false]), ihr ([] ++ [true])]
    simp [List.map_append, List.map_map, Function.comp_def]

/-- The leaves of an internal node: 0 before the paths on the left, 1 before those on the right (R151). -/
theorem HTree.paths_node (l r : HTree) :
    (HTree.node l r).paths [] =
      ((l.paths []).map fun sp => (sp.1, false :: sp.2)) ++ (r.paths []).map fun sp => (sp.1, true :: sp.2) := by
  rw [HTree.paths, l.paths_eq, r.paths_eq]; rfl

theorem HTree.paths_symbols (t : HTree) (q : List Bool) : (t.paths q).map Prod.fst = t.symbols := by
  induction t generalizing q with
  | leaf => rfl
  | node l r ihl ihr => simp [HTree.paths, HTree.symbols, ihl, ihr]

theorem HTree.path_length (t : HTree) {sp : Symbol × List Bool} (h : sp ∈ t.paths []) : sp.2.length ≤ t.depth := by
  induction t generalizing sp with
  | leaf => simp [HTree.paths] at h; simp [h]
  | node l r ihl ihr =>
    rw [HTree.paths_node] at h
    simp only [HTree.depth]
    rcases List.mem_append.mp h with h | h <;> obtain ⟨sp', h', rfl⟩ := List.mem_map.mp h
    · have := ihl h'; simp only [List.length_cons]; omega
    · have := ihr h'; simp only [List.length_cons]; omega

/-- Of two leaves neither's path begins the other's, unless they are one leaf (R156). -/
theorem HTree.paths_prefixFree (t : HTree) {a b : Symbol × List Bool} (ha : a ∈ t.paths []) (hb : b ∈ t.paths [])
    (h : a.2 <+: b.2) : a = b := by
  induction t generalizing a b with
  | leaf sym => simp [HTree.paths] at ha hb; rw [ha, hb]
  | node l r ihl ihr =>
    rw [HTree.paths_node] at ha hb
    rcases List.mem_append.mp ha with ha | ha <;> rcases List.mem_append.mp hb with hb | hb <;>
      obtain ⟨a', ha', rfl⟩ := List.mem_map.mp ha <;> obtain ⟨b', hb', rfl⟩ := List.mem_map.mp hb <;>
      simp only [List.cons_prefix_cons] at h
    · rw [ihl ha' hb' h.2]
    · exact absurd h.1 (by simp)
    · exact absurd h.1 (by simp)
    · rw [ihr ha' hb' h.2]

/-- The children of an internal slot of a tree laid out from slot i: the left one is the next slot, the right one stands
behind it, and both are slots of the tree (R165). -/
theorem layout_children (t : HTree) (i : Nat) (hi : i + t.size ≤ 1024) {j : Nat} {n : Node}
    (h : (t.layout i)[j]? = some n) (hn : n.leaf = false) :
    n.left.toNat = i + j + 1 ∧ n.left.toNat < n.right.toNat ∧ n.right.toNat < i + t.size := by
  induction t generalizing i j with
  | leaf =>
    cases j <;> simp [HTree.layout] at h
    subst h
    cases hn
  | node l r ihl ihr =>
    have hl := l.size_pos
    have hr := r.size_pos
    simp only [HTree.size] at hi ⊢
    rw [HTree.layout, List.cons_append] at h
    cases j with
    | zero =>
      cases h
      simp only [BitVec.toNat_ofNat]
      omega
    | succ j =>
      rw [List.getElem?_cons_succ] at h
      by_cases hj : j < l.size
      · rw [List.getElem?_append_left (by simpa)] at h
        have := ihl (i + 1) (by omega) h
        omega
      · rw [List.getElem?_append_right (by simp; omega), HTree.layout_length] at h
        have := ihr (i + 1 + l.size) (by omega) h
        omega

end Sys2Proof.Machine
end

