-- ==== Sys2Proof/Laws/Builder.lean ====
section
/-!
SUPPORT. Laws of the tree builder's leaves and merges (spec/41_tree_builder.md R140 to R146).
-/

namespace Sys2Proof.Machine

/-! ### Keys -/

/-- The order of keys as a proposition (R142). -/
theorem Key.before_iff (a b : Key) :
    a.before b = true ↔ a.weight.toNat < b.weight.toNat ∨ (a.weight = b.weight ∧ a.slot < b.slot) := by
  simp [Key.before]

theorem insertKey_perm (k : Key) (l : List Key) : List.Perm (insertKey k l) (k :: l) := by
  induction l with
  | nil => exact List.Perm.refl _
  | cons a l ih =>
    rw [insertKey]
    split
    · exact List.Perm.refl _
    · exact (ih.cons a).trans (List.Perm.swap k a l)

@[simp] theorem insertKey_length (k : Key) (l : List Key) : (insertKey k l).length = l.length + 1 := by
  simpa using (insertKey_perm k l).length_eq

theorem mem_insertKey {k a : Key} {l : List Key} : a ∈ insertKey k l ↔ a = k ∨ a ∈ l := by
  rw [(insertKey_perm k l).mem_iff, List.mem_cons]

/-- Two keys in different slots are in one order or the other (R142). -/
theorem Key.before_total {a b : Key} (h : a.slot ≠ b.slot) : a.before b = true ∨ b.before a = true := by
  simp only [Key.before_iff]
  by_cases hw : a.weight = b.weight
  · rcases Nat.lt_or_gt_of_ne h with h | h
    · exact .inl (.inr ⟨hw, h⟩)
    · exact .inr (.inr ⟨hw.symm, h⟩)
  · have : a.weight.toNat ≠ b.weight.toNat := fun e => hw (BitVec.eq_of_toNat_eq e)
    omega

theorem Key.before_trans {a b c : Key} (h1 : a.before b = true) (h2 : b.before c = true) : a.before c = true := by
  rw [Key.before_iff] at *
  rcases h1 with h1 | ⟨e1, h1⟩ <;> rcases h2 with h2 | ⟨e2, h2⟩
  · exact .inl (h1.trans h2)
  · exact .inl (e2 ▸ h1)
  · exact .inl (e1 ▸ h2)
  · exact .inr ⟨e1.trans e2, h1.trans h2⟩

/-- An active set in rising order: the head is the argmin of R140. -/
abbrev Rising (l : List Key) : Prop := l.Pairwise fun a b => a.before b = true

theorem insertKey_rising {k : Key} {l : List Key} (h : Rising l) (hk : ∀ a ∈ l, a.slot ≠ k.slot) :
    Rising (insertKey k l) := by
  induction l with
  | nil => simp [insertKey]
  | cons a l ih =>
    obtain ⟨ha, hl⟩ := List.pairwise_cons.mp h
    rw [insertKey]
    split
    · rename_i hka
      refine List.pairwise_cons.mpr ⟨fun b hb => ?_, h⟩
      rcases List.mem_cons.mp hb with rfl | hb
      · exact hka
      · exact Key.before_trans hka (ha b hb)
    · rename_i hka
      refine List.pairwise_cons.mpr ⟨fun b hb => ?_, ih hl fun b hb => hk b (by simp [hb])⟩
      rcases mem_insertKey.mp hb with rfl | hb
      · exact (Key.before_total (hk a (by simp))).resolve_right hka
      · exact ha b hb

/-! ### Leaves -/

theorem leavesFrom_mem {k : Nat} {ws : List Word} {n : Node} (h : n ∈ leavesFrom k ws) :
    ∃ i, ∃ hi : i < ws.length, ws[i] ≠ 0#32 ∧ n = leafNode (k + i) ws[i] := by
  induction ws generalizing k with
  | nil => simp [leavesFrom] at h
  | cons w ws ih =>
    rw [leavesFrom] at h
    by_cases hw : w = 0#32
    · rw [if_pos hw] at h
      obtain ⟨i, hi, hne, rfl⟩ := ih h
      exact ⟨i + 1, by simpa using hi, by simpa using hne, by simp; congr 1; omega⟩
    · rw [if_neg hw] at h
      rcases List.mem_cons.mp h with rfl | h
      · exact ⟨0, by simp, by simpa using hw, by simp⟩
      · obtain ⟨i, hi, hne, rfl⟩ := ih h
        exact ⟨i + 1, by simpa using hi, by simpa using hne, by simp; congr 1; omega⟩

theorem leavesFrom_has {k : Nat} {ws : List Word} {i : Nat} (hi : i < ws.length) (h : ws[i] ≠ 0#32) :
    leafNode (k + i) ws[i] ∈ leavesFrom k ws := by
  induction ws generalizing k i with
  | nil => simp at hi
  | cons w ws ih =>
    rw [leavesFrom]
    cases i with
    | zero => simp at h; rw [if_neg h]; simp
    | succ i =>
      have := ih (k := k + 1) (i := i) (by simpa using hi) (by simpa using h)
      rw [show k + (i + 1) = k + 1 + i by omega]
      split
      · simpa using this
      · simp only [List.getElem_cons_succ, List.mem_cons]; exact .inr this

/-- The leaves number the non-zero counts (R141). -/
theorem leavesFrom_length (k : Nat) (ws : List Word) : (leavesFrom k ws).length = ws.countP fun w => w != 0#32 := by
  induction ws generalizing k with
  | nil => rfl
  | cons w ws ih =>
    rw [leavesFrom, List.countP_cons]
    by_cases hw : w = 0#32 <;> simp [hw, ih]

/-- The leaves stand in ascending symbol order (R141). -/
theorem leavesFrom_ascending (k : Nat) (ws : List Word) (hk : k + ws.length ≤ 512) :
    (leavesFrom k ws).Pairwise fun a b => a.sym.toNat < b.sym.toNat := by
  induction ws generalizing k with
  | nil => simp [leavesFrom]
  | cons w ws ih =>
    simp only [List.length_cons] at hk
    rw [leavesFrom]
    split
    · exact ih (k + 1) (by omega)
    · refine List.pairwise_cons.mpr ⟨fun n hn => ?_, ih (k + 1) (by omega)⟩
      obtain ⟨i, hi, -, rfl⟩ := leavesFrom_mem hn
      simp only [leafNode, BitVec.toNat_ofNat]
      omega

theorem leavesFrom_weights (k : Nat) (ws : List Word) :
    ((leavesFrom k ws).map fun n => n.weight.toNat).sum = (ws.map BitVec.toNat).sum := by
  induction ws generalizing k with
  | nil => rfl
  | cons w ws ih =>
    rw [leavesFrom]
    by_cases hw : w = 0#32
    · simp [hw, ih]
    · simp [hw, ih, leafNode]

/-- The keys of the leaves: slots i, i + 1, ... with their weights. -/
theorem leafKeys_perm (i : Nat) (leaves : List Node) :
    List.Perm (leafKeys i leaves) (leaves.zipIdx i |>.map fun ns => { weight := ns.1.weight, slot := ns.2 }) := by
  induction leaves generalizing i with
  | nil => exact List.Perm.refl _
  | cons n leaves ih =>
    rw [leafKeys, List.zipIdx_cons, List.map_cons]
    exact (insertKey_perm _ _).trans ((ih (i + 1)).cons _)

theorem leafKeys_mem {i : Nat} {leaves : List Node} {k : Key} :
    k ∈ leafKeys i leaves ↔ ∃ j, ∃ h : j < leaves.length, k = { weight := leaves[j].weight, slot := i + j } := by
  rw [(leafKeys_perm i leaves).mem_iff, List.mem_map]
  constructor
  · rintro ⟨⟨n, j⟩, h, rfl⟩
    obtain ⟨h1, h2, h3⟩ := List.mem_zipIdx h
    exact ⟨j - i, by omega, by simp only [h3]; congr 1; omega⟩
  · rintro ⟨j, h, rfl⟩
    exact ⟨(leaves[j], i + j), by rw [List.mk_mem_zipIdx_iff_le_and_getElem?_sub]; simp [h], rfl⟩

@[simp] theorem leafKeys_length (i : Nat) (leaves : List Node) : (leafKeys i leaves).length = leaves.length := by
  simpa using (leafKeys_perm i leaves).length_eq

theorem leafKeys_rising (i : Nat) (leaves : List Node) : Rising (leafKeys i leaves) := by
  induction leaves generalizing i with
  | nil => simp [leafKeys]
  | cons n leaves ih =>
    refine insertKey_rising (ih (i + 1)) fun a ha => ?_
    obtain ⟨j, h, rfl⟩ := leafKeys_mem.mp ha
    simp; omega

/-! ### Merges -/

theorem mergeLoop_length (p : Params) {fuel : Nat} {keys : List Key} (n : Nat) (h : keys.length ≤ fuel) :
    (mergeLoop p fuel keys n).length = keys.length - 1 := by
  induction fuel generalizing keys n with
  | zero => simp at h; subst h; rfl
  | succ fuel ih =>
    match keys with
    | [] => rfl
    | [_] => rfl
    | a :: b :: rest =>
      simp only [List.length_cons] at h
      simp only [mergeLoop, List.length_cons]
      rw [ih (n + 1) (by simp; omega)]
      simp

/-- Whichever trees the active nodes hold, the merges join them all into one tree at the last slot (R143). -/
theorem mergeLoop_holds (p : Params) {fuel : Nat} {keys : List Key} {trees : List HTree} {nodes : List Node}
    (hf : keys.length ≤ fuel) (h0 : keys ≠ []) (hn : nodes.length + keys.length ≤ 1025)
    (hslot : ∀ k ∈ keys, k.slot < nodes.length) (hone : ∀ k, keys = [k] → k.slot + 1 = nodes.length)
    (htrees : List.Forall₂ (fun k t => HoldsTree (fun j => nodes[j]?) k.slot t) keys trees) :
    ∃ t, HoldsTree (fun j => (nodes ++ mergeLoop p fuel keys nodes.length)[j]?)
        (nodes.length + (keys.length - 1) - 1) t ∧ List.Perm t.symbols (trees.flatMap HTree.symbols) := by
  induction fuel generalizing keys trees nodes with
  | zero => exact absurd (List.length_eq_zero_iff.mp (by omega)) h0
  | succ fuel ih =>
    match keys, htrees with
    | [], _ => exact absurd rfl h0
    | [k], htrees =>
      cases htrees with
      | cons hk hnil =>
        cases hnil
        rename_i t
        refine ⟨t, ?_, by simp⟩
        have := hone k rfl
        simp only [mergeLoop, List.append_nil, List.length_singleton, Nat.sub_self, Nat.add_zero]
        rw [← this, Nat.add_sub_cancel]
        exact hk
    | a :: b :: rest, .cons (b := ta) ha (.cons (b := tb) (l₂ := trest) hb hrest) =>
      let node := mergeNode p a b
      let key : Key := { weight := node.weight, slot := nodes.length }
      have hmono : ∀ (i : Nat) (n : Node), nodes[i]? = some n → (nodes ++ [node])[i]? = some n := by
        intro i n hi
        have : i < nodes.length := by
          by_contra hc
          rw [List.getElem?_eq_none (by omega)] at hi; cases hi
        rw [List.getElem?_append_left this, hi]
      have hsa : (BitVec.ofNat 10 a.slot).toNat = a.slot := by
        have := hslot a (by simp); simp at hn ⊢; omega
      have hsb : (BitVec.ofNat 10 b.slot).toNat = b.slot := by
        have := hslot b (by simp); simp at hn ⊢; omega
      have hnew : HoldsTree (fun j => (nodes ++ [node])[j]?) key.slot (.node ta tb) := by
        refine HoldsTree.node (n := node) (by simp [key]) rfl ?_ ?_
        · show HoldsTree _ (BitVec.ofNat 10 a.slot).toNat _
          rw [hsa]; exact ha.mono hmono
        · show HoldsTree _ (BitVec.ofNat 10 b.slot).toNat _
          rw [hsb]; exact hb.mono hmono
      have hall : List.Forall₂ (fun (k : Key) t => HoldsTree (fun j => (nodes ++ [node])[j]?) k.slot t)
          (key :: rest) (.node ta tb :: trest) :=
        .cons hnew (hrest.imp fun (k : Key) t h => HoldsTree.mono hmono h)
      obtain ⟨trees', hF, hP⟩ := List.perm_comp_forall₂ (insertKey_perm key rest) hall
      have hlen : (nodes ++ [node]).length = nodes.length + 1 := by simp
      obtain ⟨t, ht, hperm⟩ := ih (keys := insertKey key rest) (trees := trees') (nodes := nodes ++ [node])
        (by simp at hf ⊢; omega) (by intro h; simpa [h] using insertKey_length key rest)
        (by simp at hn ⊢; omega)
        (by
          intro k hk
          rcases mem_insertKey.mp hk with rfl | hk
          · simp [key]
          · have := hslot k (by simp [hk]); rw [hlen]; omega)
        (by
          intro k hk
          have h1 : rest = [] := by
            have := insertKey_length key rest
            rw [hk] at this
            exact List.length_eq_zero_iff.mp (by simpa using this.symm)
          subst h1
          have : k = key := by simpa [insertKey] using hk.symm
          subst this
          simp [key])
        hF
      refine ⟨t, ?_, ?_⟩
      · have e1 : nodes ++ mergeLoop p (fuel + 1) (a :: b :: rest) nodes.length
            = (nodes ++ [node]) ++ mergeLoop p fuel (insertKey key rest) (nodes ++ [node]).length := by
          rw [hlen]; simp [mergeLoop, node, key]
        have e2 : nodes.length + ((a :: b :: rest).length - 1) - 1
            = (nodes ++ [node]).length + ((insertKey key rest).length - 1) - 1 := by
          rw [hlen]; simp
        rw [e1, e2]; exact ht
      · refine hperm.trans ((hP.flatMap_right _).trans ?_)
        simp [HTree.symbols]

/-- The slots BUILD fills hold one tree, whose leaves carry exactly the symbols with a count (R141, R144). -/
theorem buildNodes_holds (p : Params) (freq : Vector Word 257) (h : freq[256] ≠ 0#32) :
    ∃ t, HoldsTree (fun j => (buildNodes p freq)[j]?) ((buildNodes p freq).length - 1) t ∧
      (buildNodes p freq).length = t.size ∧
      List.Perm t.symbols ((leavesFrom 0 freq.toList).map Node.sym) := by
  let leaves := leavesFrom 0 freq.toList
  have hmem : leafNode 256 freq[256] ∈ leaves := by
    have := leavesFrom_has (k := 0) (ws := freq.toList) (i := 256) (by simp) (by simpa using h)
    simpa [leaves] using this
  have hle : leaves.length ≤ 257 := by
    have h1 := leavesFrom_length 0 freq.toList
    have h2 := List.countP_le_length (p := fun w : Word => w != 0#32) (l := freq.toList)
    rw [← h1, Vector.length_toList] at h2
    exact h2
  have hpos : 0 < leaves.length := List.length_pos_of_mem hmem
  have hleaf : ∀ n ∈ leaves, n.leaf = true := by
    intro n hn
    obtain ⟨i, -, -, rfl⟩ := leavesFrom_mem hn
    rfl
  have hall : ∀ ks : List Key, (∀ k ∈ ks, ∃ h : k.slot < leaves.length, k.weight = leaves[k.slot].weight) →
      List.Forall₂ (fun (k : Key) t => HoldsTree (fun j => leaves[j]?) k.slot t) ks
        (ks.map fun k => .leaf ((leaves[k.slot]?).getD (leafNode 0 0)).sym) := by
    intro ks hks
    induction ks with
    | nil => exact .nil
    | cons k ks ih =>
      obtain ⟨hk, -⟩ := hks k (by simp)
      refine .cons ?_ (ih fun k hk => hks k (by simp [hk]))
      simp only [List.getElem?_eq_getElem hk, Option.getD_some]
      exact HoldsTree.leaf (List.getElem?_eq_getElem hk) (hleaf _ (List.getElem_mem hk))
  obtain ⟨t, ht, hperm⟩ := mergeLoop_holds p (fuel := leaves.length) (keys := leafKeys 0 leaves) (nodes := leaves)
    (by simp) (by intro e; have := leafKeys_length 0 leaves; rw [e] at this; simp at this; omega)
    (by simp; omega)
    (by intro k hk; obtain ⟨j, hj, rfl⟩ := leafKeys_mem.mp hk; simpa using hj)
    (by
      intro k hk
      have hl := leafKeys_length 0 leaves
      have hm : k ∈ leafKeys 0 leaves := by rw [hk]; simp
      rw [hk] at hl
      obtain ⟨j, hj, rfl⟩ := leafKeys_mem.mp hm
      simp at hl ⊢; omega)
    (hall _ fun k hk => by
      obtain ⟨j, hj, rfl⟩ := leafKeys_mem.mp hk
      exact ⟨by simpa using hj, by simp⟩)
  have hlen : (buildNodes p freq).length = leaves.length + (leaves.length - 1) := by
    simp only [buildNodes, List.length_append, leaves]
    rw [mergeLoop_length p _ (by simp)]; simp
  have hsyms : List.Perm t.symbols (leaves.map Node.sym) := by
    refine hperm.trans ?_
    rw [List.flatMap_map]
    simp only [HTree.symbols]
    rw [← List.map_eq_flatMap]
    refine ((leafKeys_perm 0 leaves).map _).trans ?_
    rw [List.map_map]
    have : ((leaves.zipIdx 0).map ((fun k : Key => ((leaves[k.slot]?).getD (leafNode 0 0)).sym) ∘
        fun ns => { weight := ns.1.weight, slot := ns.2 })) = leaves.map Node.sym := by
      apply List.ext_getElem (by simp)
      intro j h1 h2
      simp at h1
      simp [h1]
    rw [this]
  refine ⟨t, ?_, ?_, hsyms⟩
  · rw [hlen]
    have := ht
    rw [leafKeys_length] at this
    exact this
  · have h1 := hsyms.length_eq
    have h2 := t.size_eq
    have h3 := t.symbols_length
    simp at h1
    omega

/-! ### Weights -/

/-- The sum of the weights of an active set. -/
def keySum (keys : List Key) : Nat := (keys.map fun k => k.weight.toNat).sum

theorem keySum_insert (k : Key) (l : List Key) : keySum (insertKey k l) = k.weight.toNat + keySum l := by
  have := ((insertKey_perm k l).map fun k => k.weight.toNat).sum_eq
  simpa [keySum] using this

theorem two_pow_wFreq_le (p : Params) : 2 ^ p.wFreq.val ≤ 2 ^ 32 := Nat.pow_le_pow_right (by omega) p.wFreq.property.2

theorem mergeNode_weight (p : Params) (a b : Key) (h : a.weight.toNat + b.weight.toNat < 2 ^ p.wFreq.val) :
    (mergeNode p a b).weight.toNat = a.weight.toNat + b.weight.toNat := by
  have := two_pow_wFreq_le p
  simp only [mergeNode, Params.cut, Nat.mod_eq_of_lt h, BitVec.toNat_ofNat]
  omega

/-- No merge overflows if the weights' sum fits, and every merge node's weight fits (R145). -/
theorem mergeLoop_fits (p : Params) {fuel : Nat} {keys : List Key} (n : Nat) (h : keySum keys < 2 ^ p.wFreq.val) :
    ∀ node ∈ mergeLoop p fuel keys n, ∃ a b : Key,
      node = mergeNode p a b ∧ a.weight.toNat + b.weight.toNat < 2 ^ p.wFreq.val := by
  induction fuel generalizing keys n with
  | zero => simp [mergeLoop]
  | succ fuel ih =>
    match keys with
    | [] => simp [mergeLoop]
    | [_] => simp [mergeLoop]
    | a :: b :: rest =>
      have hs : a.weight.toNat + (b.weight.toNat + keySum rest) < 2 ^ p.wFreq.val := by simpa [keySum] using h
      intro node hn
      rw [mergeLoop, List.mem_cons] at hn
      rcases hn with rfl | hn
      · exact ⟨a, b, rfl, by omega⟩
      · refine ih (n + 1) ?_ node hn
        rw [keySum_insert]
        simp only [mergeNode_weight p a b (by omega)]
        omega

/-- The last node made carries the sum of all the weights (R145). -/
theorem mergeLoop_last (p : Params) {fuel : Nat} {keys : List Key} {nodes : List Node}
    (hf : keys.length ≤ fuel) (h0 : keys ≠ []) (h : keySum keys < 2 ^ p.wFreq.val)
    (hone : ∀ k, keys = [k] → ∃ n, nodes.getLast? = some n ∧ n.weight = k.weight) :
    ∃ n, (nodes ++ mergeLoop p fuel keys nodes.length).getLast? = some n ∧ n.weight.toNat = keySum keys := by
  induction fuel generalizing keys nodes with
  | zero => exact absurd (List.length_eq_zero_iff.mp (by omega)) h0
  | succ fuel ih =>
    match keys with
    | [] => exact absurd rfl h0
    | [k] =>
      obtain ⟨n, h1, h2⟩ := hone k rfl
      exact ⟨n, by simpa [mergeLoop] using h1, by simp [keySum, h2]⟩
    | a :: b :: rest =>
      have hs : a.weight.toNat + (b.weight.toNat + keySum rest) < 2 ^ p.wFreq.val := by simpa [keySum] using h
      have hw := mergeNode_weight p a b (by omega)
      have hk : keySum (insertKey { weight := (mergeNode p a b).weight, slot := nodes.length } rest) = keySum (a :: b :: rest) := by
        rw [keySum_insert]; simp only [hw]; simp [keySum]; omega
      obtain ⟨n, h1, h2⟩ := ih (keys := insertKey { weight := (mergeNode p a b).weight, slot := nodes.length } rest)
        (nodes := nodes ++ [mergeNode p a b]) (by simp at hf ⊢; omega) (by intro e; have := congrArg List.length e; simp at this)
        (by rw [hk]; exact h)
        (by
          intro k hk
          have h1 : rest = [] := by
            have := insertKey_length { weight := (mergeNode p a b).weight, slot := nodes.length } rest
            rw [hk] at this
            exact List.length_eq_zero_iff.mp (by simpa using this.symm)
          subst h1
          simp [insertKey] at hk
          exact ⟨mergeNode p a b, by simp, by rw [← hk]⟩)
      refine ⟨n, ?_, h2.trans hk⟩
      rw [← h1]; simp [mergeLoop]

theorem keySum_leafKeys (i : Nat) (leaves : List Node) : keySum (leafKeys i leaves) = (leaves.map fun n => n.weight.toNat).sum := by
  induction leaves generalizing i with
  | nil => rfl
  | cons n leaves ih => rw [leafKeys, keySum_insert, ih]; simp

/-! ### The order of the merges -/

/-- Slot i is in the active set when slot m is made: it exists, and no internal node made before has it as a child
(R140). -/
def ActiveAt (nodes : List Node) (m i : Nat) : Prop :=
  i < m ∧ ∀ j < m, ∀ n, nodes[j]? = some n → n.leaf = false → n.left.toNat ≠ i ∧ n.right.toNat ≠ i

theorem ActiveAt.append {nodes more : List Node} {m i : Nat} (hm : m ≤ nodes.length) :
    ActiveAt (nodes ++ more) m i ↔ ActiveAt nodes m i := by
  have key : ∀ j < m, (nodes ++ more)[j]? = nodes[j]? := fun j hj => List.getElem?_append_left (by omega)
  constructor <;> rintro ⟨hi, h⟩ <;> refine ⟨hi, fun j hj n hn => h j hj n ?_⟩
  · rw [key j hj, hn]
  · rw [← key j hj, hn]

/-- The keys are those of the active slots, in rising order. -/
structure ActiveSet (nodes : List Node) (keys : List Key) : Prop where
  rising : Rising keys
  mem : ∀ k : Key, k ∈ keys ↔
    ActiveAt nodes nodes.length k.slot ∧ ∃ n, nodes[k.slot]? = some n ∧ n.weight = k.weight
  children : ∀ (j : Nat) (n : Node), nodes[j]? = some n → n.leaf = false →
    n.left.toNat < nodes.length ∧ n.right.toNat < nodes.length

/-- What every merge does (R142, R143): slot m is the internal node over the two active slots of least key, the
lesser on the left. -/
structure MergedAt (p : Params) (nodes : List Node) (m : Nat) (a b : Key) : Prop where
  node : nodes[m]? = some (mergeNode p a b)
  left : (mergeNode p a b).left.toNat = a.slot
  right : (mergeNode p a b).right.toNat = b.slot
  activeLeft : ActiveAt nodes m a.slot
  activeRight : ActiveAt nodes m b.slot
  weightLeft : ∃ n, nodes[a.slot]? = some n ∧ n.weight = a.weight
  weightRight : ∃ n, nodes[b.slot]? = some n ∧ n.weight = b.weight
  order : a.before b = true
  least : ∀ i n, ActiveAt nodes m i → nodes[i]? = some n → i ≠ a.slot → i ≠ b.slot →
    b.before { weight := n.weight, slot := i } = true

theorem ActiveSet.merge {p : Params} {nodes : List Node} {a b : Key} {rest : List Key}
    (h : ActiveSet nodes (a :: b :: rest)) (hn : nodes.length ≤ 1024) :
    ActiveSet (nodes ++ [mergeNode p a b])
      (insertKey { weight := (mergeNode p a b).weight, slot := nodes.length } rest) := by
  obtain ⟨ha, hrest⟩ := List.pairwise_cons.mp h.rising
  obtain ⟨hb, hrest⟩ := List.pairwise_cons.mp hrest
  have hslot : ∀ k ∈ a :: b :: rest, k.slot < nodes.length := fun k hk => ((h.mem k).mp hk).1.1
  have hsa : (mergeNode p a b).left.toNat = a.slot := by
    have := hslot a (by simp); simp [mergeNode]; omega
  have hsb : (mergeNode p a b).right.toNat = b.slot := by
    have := hslot b (by simp); simp [mergeNode]; omega
  have hget : ∀ i, i < nodes.length → (nodes ++ [mergeNode p a b])[i]? = nodes[i]? :=
    fun i hi => List.getElem?_append_left hi
  have hlast : (nodes ++ [mergeNode p a b])[nodes.length]? = some (mergeNode p a b) := by simp
  have hlen : (nodes ++ [mergeNode p a b]).length = nodes.length + 1 := by simp
  have same : ∀ k k' : Key, k ∈ a :: b :: rest → k' ∈ a :: b :: rest → k.slot = k'.slot → k = k' := by
    intro k k' hk hk' he
    obtain ⟨-, n, h1, h2⟩ := (h.mem k).mp hk
    obtain ⟨-, n', h1', h2'⟩ := (h.mem k').mp hk'
    rw [he, h1'] at h1
    cases h1
    cases k; cases k'
    simp only [Key.mk.injEq]
    exact ⟨h2.symm.trans h2', he⟩
  have hirr : ∀ k : Key, k.before k ≠ true := by intro k; simp [Key.before]
  have hact : ∀ i, i < nodes.length →
      (ActiveAt (nodes ++ [mergeNode p a b]) (nodes ++ [mergeNode p a b]).length i ↔
        ActiveAt nodes nodes.length i ∧ a.slot ≠ i ∧ b.slot ≠ i) := by
    intro i hi
    rw [hlen]
    constructor
    · rintro ⟨-, h⟩
      refine ⟨⟨hi, fun j hj n hjn => h j (by omega) n (by rw [hget j hj, hjn])⟩, ?_⟩
      have := h nodes.length (by omega) (mergeNode p a b) hlast rfl
      rwa [hsa, hsb] at this
    · rintro ⟨⟨-, h⟩, h1⟩
      refine ⟨by omega, fun j hj n hjn hl => ?_⟩
      rcases Nat.lt_or_ge j nodes.length with hj' | hj'
      · exact h j hj' n (by rw [← hget j hj', hjn]) hl
      · obtain rfl : j = nodes.length := by omega
        rw [hlast] at hjn
        cases hjn
        rwa [hsa, hsb]
  refine ⟨insertKey_rising hrest fun k hk => ?_, fun k => ?_, fun j n hjn hl => ?_⟩
  · have := hslot k (by simp [hk]); simp; omega
  · rw [mem_insertKey]
    constructor
    · rintro (rfl | hk)
      · refine ⟨⟨by simp, fun j hj n hjn hl => ?_⟩, mergeNode p a b, hlast, rfl⟩
        rw [hlen] at hj
        rcases Nat.lt_or_ge j nodes.length with hj' | hj'
        · have := h.children j n (by rw [← hget j hj', hjn]) hl
          simp only
          omega
        · obtain rfl : j = nodes.length := by omega
          rw [hlast] at hjn
          cases hjn
          rw [hsa, hsb]
          have h1 := hslot a (by simp)
          have h2 := hslot b (by simp)
          simp only
          omega
      · obtain ⟨h1, n, h2, h3⟩ := (h.mem k).mp (by simp [hk])
        refine ⟨(hact _ h1.1).mpr ⟨h1, fun e => ?_, fun e => ?_⟩, n, by rw [hget _ h1.1, h2], h3⟩
        · have := same a k (by simp) (by simp [hk]) e
          exact hirr k (this ▸ ha k (by simp [hk]))
        · have := same b k (by simp) (by simp [hk]) e
          exact hirr k (this ▸ hb k hk)
    · rintro ⟨h1, n, h2, h3⟩
      rcases Nat.lt_or_ge k.slot nodes.length with hk | hk
      · obtain ⟨h4, h5, h6⟩ := (hact _ hk).mp h1
        have := (h.mem k).mpr ⟨h4, n, by rw [← hget _ hk, h2], h3⟩
        rcases List.mem_cons.mp this with rfl | this
        · exact absurd rfl h5
        · rcases List.mem_cons.mp this with rfl | this
          · exact absurd rfl h6
          · exact .inr this
      · have hk' : k.slot = nodes.length := by have := h1.1; omega
        rw [hk', hlast] at h2
        cases h2
        left
        cases k
        simp only [Key.mk.injEq]
        exact ⟨h3.symm, hk'⟩
  · rw [hlen]
    rcases Nat.lt_or_ge j nodes.length with hj | hj
    · have := h.children j n (by rw [← hget j hj, hjn]) hl
      omega
    · have hj' : j = nodes.length := by
        by_contra hc
        rw [List.getElem?_eq_none (by omega)] at hjn
        cases hjn
      subst hj'
      rw [hlast] at hjn
      cases hjn
      rw [hsa, hsb]
      have h1 := hslot a (by simp)
      have h2 := hslot b (by simp)
      omega

/-- Every merge of BUILD takes the two least active slots (R142, R143). -/
theorem mergeLoop_merges (p : Params) {fuel : Nat} {keys : List Key} {nodes : List Node}
    (h : ActiveSet nodes keys) (hf : keys.length ≤ fuel) (hn : nodes.length + keys.length ≤ 1025)
    {m : Nat} (hm : nodes.length ≤ m) (hm' : m < nodes.length + (keys.length - 1)) :
    ∃ a b, MergedAt p (nodes ++ mergeLoop p fuel keys nodes.length) m a b ∧
      (keySum keys < 2 ^ p.wFreq.val → a.weight.toNat + b.weight.toNat < 2 ^ p.wFreq.val) := by
  induction fuel generalizing keys nodes with
  | zero => omega
  | succ fuel ih =>
    match keys with
    | [] => simp at hm'; omega
    | [_] => simp at hm'; omega
    | a :: b :: rest =>
      simp only [List.length_cons] at hf hn hm'
      have e1 : nodes ++ mergeLoop p (fuel + 1) (a :: b :: rest) nodes.length
          = (nodes ++ [mergeNode p a b]) ++ mergeLoop p fuel
            (insertKey { weight := (mergeNode p a b).weight, slot := nodes.length } rest)
            (nodes ++ [mergeNode p a b]).length := by simp [mergeLoop]
      have hmerge := h.merge (p := p) (by omega)
      rcases Nat.lt_or_ge nodes.length m with hlt | hge
      · rw [e1]
        obtain ⟨a', b', h1, h2⟩ :=
          ih hmerge (by simp; omega) (by simp; omega) (by simp; omega) (by simp; omega)
        refine ⟨a', b', h1, fun hs => h2 ?_⟩
        have hs' : a.weight.toNat + (b.weight.toNat + keySum rest) < 2 ^ p.wFreq.val := by simpa [keySum] using hs
        rw [keySum_insert]
        simp only [mergeNode_weight p a b (by omega)]
        omega
      · obtain rfl : m = nodes.length := by omega
        obtain ⟨hA, hrest⟩ := List.pairwise_cons.mp h.rising
        obtain ⟨hB, -⟩ := List.pairwise_cons.mp hrest
        obtain ⟨hact, na, hna, hwa⟩ := (h.mem a).mp (by simp)
        obtain ⟨hbct, nb, hnb, hwb⟩ := (h.mem b).mp (by simp)
        refine ⟨a, b, ?_, fun hs => by simp [keySum] at hs; omega⟩
        generalize mergeLoop p (fuel + 1) (a :: b :: rest) nodes.length = more at e1
        have hget : ∀ (i : Nat) (n : Node), nodes[i]? = some n → (nodes ++ more)[i]? = some n := by
          intro i n hi
          have : i < nodes.length := by
            by_contra hc
            rw [List.getElem?_eq_none (by omega)] at hi; cases hi
          rw [List.getElem?_append_left this, hi]
        exact {
          node := by rw [e1]; simp
          left := by have := hact.1; simp [mergeNode]; omega
          right := by have := hbct.1; simp [mergeNode]; omega
          activeLeft := (ActiveAt.append (Nat.le_refl _)).mpr hact
          activeRight := (ActiveAt.append (Nat.le_refl _)).mpr hbct
          weightLeft := ⟨na, hget _ _ hna, hwa⟩
          weightRight := ⟨nb, hget _ _ hnb, hwb⟩
          order := hA b (by simp)
          least := by
            intro i n hi hin hia hib
            have hi' := (ActiveAt.append (Nat.le_refl _)).mp hi
            rw [List.getElem?_append_left hi'.1] at hin
            have := (h.mem { weight := n.weight, slot := i }).mpr ⟨hi', n, hin, rfl⟩
            rcases List.mem_cons.mp this with rfl | this
            · exact absurd rfl hia
            · rcases List.mem_cons.mp this with rfl | this
              · exact absurd rfl hib
              · exact hB _ this }

/-- The leaves BUILD starts from are all active, and their keys are in rising order (R140). -/
theorem leafKeys_active {leaves : List Node} (h : ∀ n ∈ leaves, n.leaf = true) :
    ActiveSet leaves (leafKeys 0 leaves) := by
  have hleaf : ∀ (j : Nat) (n : Node), leaves[j]? = some n → n.leaf = true := fun j n hj => h n (List.mem_of_getElem? hj)
  refine ⟨leafKeys_rising 0 leaves, fun k => ?_, fun j n hj hl => absurd (hleaf j n hj) (by simp [hl])⟩
  rw [leafKeys_mem]
  constructor
  · rintro ⟨j, hj, rfl⟩
    simp only [Nat.zero_add]
    exact ⟨⟨hj, fun i _ n hi hl => absurd (hleaf i n hi) (by simp [hl])⟩, leaves[j],
      List.getElem?_eq_getElem hj, rfl⟩
  · rintro ⟨⟨hk, -⟩, n, hn, hw⟩
    rw [List.getElem?_eq_getElem hk] at hn
    cases hn
    refine ⟨k.slot, hk, ?_⟩
    cases k
    simp only [Nat.zero_add, Key.mk.injEq, and_true]
    exact hw.symm

/-! ### The slots BUILD fills -/

/-- The active set BUILD starts from weighs as much as FREQ sums to (R145). -/
theorem keySum_buildKeys (freq : Vector Word 257) : keySum (leafKeys 0 (leavesFrom 0 freq.toList)) = freqSum freq := by
  rw [keySum_leafKeys, leavesFrom_weights, freqSum]

/-- The leaves, by symbol (R141). -/
theorem leavesFrom_eq (k : Nat) (ws : List Word) :
    leavesFrom k ws = ((List.range ws.length).filter fun i => (ws[i]?).getD 0 != 0).map
      fun i => leafNode (k + i) ((ws[i]?).getD 0) := by
  induction ws generalizing k with
  | nil => rfl
  | cons w ws ih =>
    rw [leavesFrom, List.length_cons, List.range_succ_eq_map, List.filter_cons, ih (k + 1), List.filter_map]
    have e : (fun i => leafNode (k + i) (((w :: ws)[i]?).getD 0)) ∘ Nat.succ = fun i => leafNode (k + 1 + i) ((ws[i]?).getD 0) := by
      funext i; simp; congr 1; omega
    have e2 : ((fun i => (((w :: ws)[i]?).getD 0) != 0) ∘ Nat.succ) = fun i => ((ws[i]?).getD 0) != 0 := by
      funext i; simp
    by_cases hw : w = 0#32
    · rw [e2, if_pos hw, if_neg (by simp [hw]), List.map_map, e]
    · rw [e2, if_neg hw, if_pos (by simp [hw]), List.map_cons, List.map_map, e]; simp

/-- The symbols with a non-zero count, in ascending order. -/
def symsOf (freq : Vector Word 257) : List Nat := (List.range 257).filter fun sym => (freq[sym]?).getD 0 != 0

theorem leaves_eq (freq : Vector Word 257) :
    leavesFrom 0 freq.toList = (symsOf freq).map fun sym => leafNode sym ((freq[sym]?).getD 0) := by
  rw [leavesFrom_eq]; simp [symsOf]

theorem buildNodes_eq (p : Params) (freq : Vector Word 257) :
    buildNodes p freq = leavesFrom 0 freq.toList ++ mergeLoop p (leavesFrom 0 freq.toList).length
      (leafKeys 0 (leavesFrom 0 freq.toList)) (leavesFrom 0 freq.toList).length := rfl

theorem buildNodes_length (p : Params) (freq : Vector Word 257) :
    (buildNodes p freq).length = (symsOf freq).length + ((symsOf freq).length - 1) := by
  rw [buildNodes_eq, List.length_append, mergeLoop_length _ _ (by simp)]
  simp [leaves_eq]

theorem symsOf_length (freq : Vector Word 257) : (symsOf freq).length ≤ 257 := by
  have := List.length_filter_le (fun sym => (freq[sym]?).getD 0 != 0) (List.range 257)
  simpa [symsOf] using this

theorem symsOf_pos (freq : Vector Word 257) (h : freq[256] = 1#32) : 1 ≤ (symsOf freq).length := by
  apply List.length_pos_of_mem (a := 256)
  simp [symsOf, h]

/-- Every internal slot BUILD fills is a merge of the two least active slots, and no merge overflows if FREQ's sum fits
(R142, R143, R145). -/
theorem buildNodes_merges (p : Params) (freq : Vector Word 257) {m : Nat} (h1 : (symsOf freq).length ≤ m)
    (h2 : m < (symsOf freq).length + ((symsOf freq).length - 1)) :
    ∃ a b, MergedAt p (buildNodes p freq) m a b ∧
      (freqSum freq < 2 ^ p.wFreq.val → a.weight.toNat + b.weight.toNat < 2 ^ p.wFreq.val) := by
  have hl := symsOf_length freq
  rw [buildNodes_eq, ← keySum_buildKeys]
  have hlen : (leavesFrom 0 freq.toList).length = (symsOf freq).length := by simp [leaves_eq]
  apply mergeLoop_merges p (leafKeys_active _) (by simp) (by simp [hlen]; omega) (by omega) (by simp [hlen]; omega)
  intro n hn
  obtain ⟨i, -, -, rfl⟩ := leavesFrom_mem hn
  rfl

/-- Slot k is the leaf of the k-th symbol with a non-zero count (R141). -/
theorem buildNodes_leaf (p : Params) (freq : Vector Word 257) {k sym : Nat} (h : (symsOf freq)[k]? = some sym) :
    (buildNodes p freq)[k]? = some (leafNode sym ((freq[sym]?).getD 0)) := by
  have hk : k < (symsOf freq).length := by
    by_contra hc; rw [List.getElem?_eq_none (by omega)] at h; cases h
  rw [buildNodes_eq, List.getElem?_append_left (by simpa [leaves_eq]), leaves_eq, List.getElem?_map, h]; rfl

/-- An internal node stands behind the leaves (R141). -/
theorem buildNodes_internal (p : Params) (freq : Vector Word 257) {m : Nat} {n : Node}
    (h : (buildNodes p freq)[m]? = some n) (hn : n.leaf = false) :
    (symsOf freq).length ≤ m ∧ m < (symsOf freq).length + ((symsOf freq).length - 1) := by
  have hm : m < (buildNodes p freq).length := by
    by_contra hc; rw [List.getElem?_eq_none (by omega)] at h; cases h
  rw [buildNodes_length] at hm
  refine ⟨?_, hm⟩
  by_contra hc
  have := buildNodes_leaf p freq (k := m) (List.getElem?_eq_getElem (by omega))
  rw [this] at h; cases h; cases hn

end Sys2Proof.Machine
end

