-- ==== Sys2Proof/Laws/Codec.lean ====
section
/-!
SUPPORT. Laws of the code table, the encoder's loop and the decoder's walk (spec/42_code_table.md R150 to R157,
spec/44_encoder.md R186, spec/45_decoder.md R201 to R208).
-/

namespace Sys2Proof.Machine

/-! ### The code table -/

/-- The last leaf in preorder that carries a symbol (R155). -/
def HTree.lastLeaf (t : HTree) (sym : Nat) : Option (Symbol × List Bool) :=
  (t.paths []).reverse.find? fun leaf => leaf.1.toNat == sym

theorem foldl_recordCode (leaves : List (Symbol × List Bool)) (code : Vector CodeEntry 257) {sym : Nat}
    (h : sym < 257) :
    (leaves.foldl recordCode code)[sym] =
      match leaves.reverse.find? fun leaf => leaf.1.toNat == sym with
      | some leaf => CodeEntry.ofPath leaf.2
      | none => code[sym] := by
  induction leaves using List.reverseRecOn with
  | nil => rfl
  | append_singleton leaves leaf ih =>
    rw [List.foldl_append, List.foldl_cons, List.foldl_nil, List.reverse_append, List.reverse_singleton,
      List.singleton_append, List.find?_cons, recordCode, Vector.getElem_setIfInBounds]
    by_cases hs : leaf.1.toNat = sym
    · simp [hs]
    · have hs' : (leaf.1.toNat == sym) = false := by simpa using hs
      simp only [hs', if_neg hs, ih]

/-- What GENCODES records for a symbol: the path of its last leaf in preorder, or the empty entry (R150, R155). -/
theorem codesOf_getElem (t : HTree) {sym : Nat} (h : sym < 257) :
    (codesOf t)[sym] =
      match t.lastLeaf sym with
      | some leaf => CodeEntry.ofPath leaf.2
      | none => CodeEntry.empty := by
  rw [codesOf, foldl_recordCode _ _ h, HTree.lastLeaf]
  simp

/-- The leaf recorded for a symbol is a leaf of the tree that carries it. -/
theorem HTree.lastLeaf_mem {t : HTree} {sym : Nat} {leaf : Symbol × List Bool} (h : t.lastLeaf sym = some leaf) :
    leaf ∈ t.paths [] ∧ leaf.1.toNat = sym := by
  have h1 := List.mem_of_find?_eq_some h
  have h2 := List.find?_some h
  exact ⟨by simpa using h1, by simpa using h2⟩

/-- A symbol has an entry exactly if a leaf carries it (R157). -/
theorem HTree.lastLeaf_isSome (t : HTree) (sym : Nat) : (t.lastLeaf sym).isSome ↔ ∃ v ∈ t.symbols, v.toNat = sym := by
  rw [HTree.lastLeaf, List.find?_isSome, ← t.paths_symbols []]
  simp

/-- The leaf recorded for a symbol, given the leaves with that one picked out and none with its symbol behind it
(R155). -/
theorem HTree.lastLeaf_eq {t : HTree} {before after : List (Symbol × List Bool)} {leaf : Symbol × List Bool} {sym : Nat}
    (h : t.paths [] = before ++ leaf :: after) (hs : leaf.1.toNat = sym) (ha : ∀ l ∈ after, l.1.toNat ≠ sym) :
    t.lastLeaf sym = some leaf := by
  have hnone : (after.reverse.find? fun l => l.1.toNat == sym) = none := by
    rw [List.find?_eq_none]
    intro l hl
    simpa using ha l (by simpa using hl)
  rw [HTree.lastLeaf, h, List.reverse_append, List.reverse_cons, List.append_assoc, List.find?_append, hnone]
  simp [hs]

/-- The entries GENCODES leaves with VALID = 1: those of the symbols that some leaf carries (R150, R157). -/
theorem codesOf_valid (t : HTree) {sym : Nat} (h : sym < 257) :
    (codesOf t)[sym].valid = true ↔ ∃ v ∈ t.symbols, v.toNat = sym := by
  rw [← t.lastLeaf_isSome, codesOf_getElem _ h]
  cases t.lastLeaf sym <;> simp [CodeEntry.empty, CodeEntry.ofPath]

/-- An entry with VALID = 1 holds the path of a leaf that carries its symbol (R150). -/
theorem codesOf_leaf {t : HTree} (hd : t.depth ≤ 256) {sym : Nat} (h : sym < 257)
    (hv : (codesOf t)[sym].valid = true) : (BitVec.ofNat 9 sym, (codesOf t)[sym].path) ∈ t.paths [] := by
  rw [codesOf_getElem _ h] at hv ⊢
  cases hl : t.lastLeaf sym with
  | none => rw [hl] at hv; cases hv
  | some leaf =>
    obtain ⟨hm, hs⟩ := HTree.lastLeaf_mem hl
    have hle := t.path_length hm
    simp only
    rw [CodeEntry.path_ofPath (by omega), ← hs, BitVec.ofNat_toNat, BitVec.setWidth_eq]
    exact hm

/-! ### The decoder's walk -/

/-- The walk along the path of a leaf ends at that leaf (R201, R151). -/
theorem decodeOne_path {mem : Vector Node 513} {i : Nat} {t : HTree} (h : HoldsTree (fun j => mem[j]?) i t)
    {v : Symbol} {p : List Bool} (hp : (v, p) ∈ t.paths []) (rest : List Bool) :
    decodeOne mem i (p ++ rest) = .symbol v rest := by
  induction h generalizing p with
  | leaf h hl =>
    simp [HTree.paths] at hp
    obtain ⟨rfl, rfl⟩ := hp
    simp [decodeOne, h, hl]
  | @node i n l r h hl left right ihl ihr =>
    rw [HTree.paths_node] at hp
    rcases List.mem_append.mp hp with hp | hp <;> obtain ⟨⟨v', p'⟩, hp', he⟩ := List.mem_map.mp hp <;> cases he
    · have := ihl hp'
      rw [decodeOne] at this
      simp only [decodeOne, h, hl, List.cons_append, descend, Bool.false_eq_true, if_false]
      exact this
    · have := ihr hp'
      rw [decodeOne] at this
      simp only [decodeOne, h, hl, List.cons_append, descend, Bool.false_eq_true, if_false, if_true]
      exact this

/-- decodeOne() on a memory that holds a tree: the leaf whose path the bits begin with, or EOS if they begin with
none (R201). -/
theorem decodeOne_cases {mem : Vector Node 513} {i : Nat} {t : HTree} (h : HoldsTree (fun j => mem[j]?) i t)
    (bits : List Bool) :
    (∃ v p rest, (v, p) ∈ t.paths [] ∧ bits = p ++ rest ∧ decodeOne mem i bits = .symbol v rest) ∨
      (decodeOne mem i bits = .eos ∧ ∀ sp ∈ t.paths [], ¬ sp.2 <+: bits) := by
  induction h generalizing bits with
  | @leaf i n h hl =>
    exact .inl ⟨n.sym, [], bits, by simp [HTree.paths], rfl, by simp [decodeOne, h, hl]⟩
  | @node i n l r h hl left right ihl ihr =>
    cases bits with
    | nil =>
      refine .inr ⟨by simp [decodeOne, h, hl, descend], fun sp hsp => ?_⟩
      rw [HTree.paths_node] at hsp
      rcases List.mem_append.mp hsp with hsp | hsp <;> obtain ⟨sp', -, rfl⟩ := List.mem_map.mp hsp <;> simp
    | cons b bits =>
      have step : decodeOne mem i (b :: bits) = decodeOne mem (if b then n.right else n.left).toNat bits := by
        simp only [decodeOne, h, hl, descend, Bool.false_eq_true, if_false]
      rw [step]
      cases b with
      | false =>
        rcases ihl bits with ⟨v, p, rest, hp, rfl, hd⟩ | ⟨hd, hno⟩
        · exact .inl ⟨v, false :: p, rest, by rw [HTree.paths_node]; simp [hp], rfl, by simpa using hd⟩
        · refine .inr ⟨by simpa using hd, fun sp hsp => ?_⟩
          rw [HTree.paths_node] at hsp
          rcases List.mem_append.mp hsp with hsp | hsp <;> obtain ⟨sp', hsp', rfl⟩ := List.mem_map.mp hsp
          · simpa using hno sp' hsp'
          · simp
      | true =>
        rcases ihr bits with ⟨v, p, rest, hp, rfl, hd⟩ | ⟨hd, hno⟩
        · exact .inl ⟨v, true :: p, rest, by rw [HTree.paths_node]; simp [hp], rfl, by simpa using hd⟩
        · refine .inr ⟨by simpa using hd, fun sp hsp => ?_⟩
          rw [HTree.paths_node] at hsp
          rcases List.mem_append.mp hsp with hsp | hsp <;> obtain ⟨sp', hsp', rfl⟩ := List.mem_map.mp hsp
          · simp
          · simpa using hno sp' hsp'

theorem HTree.path_ne_nil {l r : HTree} {sp : Symbol × List Bool} (h : sp ∈ (HTree.node l r).paths []) : sp.2 ≠ [] := by
  rw [HTree.paths_node] at h
  rcases List.mem_append.mp h with h | h <;> obtain ⟨sp', -, rfl⟩ := List.mem_map.mp h <;> simp

/-- A good root: a leaf only if it is the sentinel (R168). Then only the sentinel has an empty path. -/
theorem HTree.path_ne_nil_of_ne {t : HTree} (ht : t.badRoot = false) {v : Symbol} {p : List Bool}
    (h : (v, p) ∈ t.paths []) (hv : v ≠ eofSym) : p ≠ [] := by
  cases t with
  | leaf sym =>
    simp [HTree.paths] at h
    obtain ⟨rfl, -⟩ := h
    simp [HTree.badRoot] at ht
    exact absurd ht hv
  | node l r => exact HTree.path_ne_nil h

/-- The bits DECODE writes for symbols other than the sentinel (R203, R206). -/
def emitted (syms : List Symbol) : List Bool := syms.flatMap fun v => fieldBits 8 v.toNat

/-- DECODE's loop on the codes of symbols and then of the sentinel (R206). -/
theorem decodeLoop_codes {mem : Vector Node 513} {i : Nat} {t : HTree} (h : HoldsTree (fun j => mem[j]?) i t)
    (leaves : List (Symbol × List Bool)) (hl : ∀ sp ∈ leaves, sp ∈ t.paths [] ∧ sp.1 ≠ eofSym)
    {p : List Bool} (hp : (eofSym, p) ∈ t.paths []) (rest : List Bool) (last : Option Symbol) {fuel : Nat}
    (hf : leaves.length < fuel) :
    decodeLoop mem i fuel ((leaves.flatMap Prod.snd) ++ p ++ rest) last =
      { bits := emitted (leaves.map Prod.fst), last := some eofSym, stop := .sentinel rest } := by
  induction leaves generalizing fuel last with
  | nil =>
    obtain ⟨fuel, rfl⟩ : ∃ f, fuel = f + 1 := ⟨fuel - 1, by simp at hf; omega⟩
    simp [decodeLoop, decodeOne_path h hp, emitted]
  | cons sp leaves ih =>
    obtain ⟨fuel, rfl⟩ : ∃ f, fuel = f + 1 := ⟨fuel - 1, by simp at hf; omega⟩
    obtain ⟨hmem, hne⟩ := hl sp (by simp)
    have := ih (fun sp hsp => hl sp (by simp [hsp])) (some sp.1) (fuel := fuel) (by simp at hf; omega)
    simp only [List.flatMap_cons, List.append_assoc] at this ⊢
    simp only [decodeLoop, decodeOne_path h hmem, if_neg hne, this, List.map_cons, emitted, List.flatMap_cons]

/-- DECODE's loop never leaves a memory that holds a tree with a good root (R208). -/
theorem decodeLoop_cases {mem : Vector Node 513} {i : Nat} {t : HTree} (h : HoldsTree (fun j => mem[j]?) i t)
    (ht : t.badRoot = false) (bits : List Bool) (last : Option Symbol) {fuel : Nat} (hf : bits.length < fuel) :
    ∃ leaves : List (Symbol × List Bool), (∀ sp ∈ leaves, sp ∈ t.paths [] ∧ sp.1 ≠ eofSym) ∧
      ((∃ p rest, (eofSym, p) ∈ t.paths [] ∧ bits = (leaves.flatMap Prod.snd) ++ p ++ rest ∧
          decodeLoop mem i fuel bits last =
            { bits := emitted (leaves.map Prod.fst), last := some eofSym, stop := .sentinel rest }) ∨
        (∃ tail, bits = (leaves.flatMap Prod.snd) ++ tail ∧ (∀ sp ∈ t.paths [], ¬ sp.2 <+: tail) ∧
          decodeLoop mem i fuel bits last =
            { bits := emitted (leaves.map Prod.fst),
              last := ((leaves.map Prod.fst).getLast?).or last, stop := .eos })) := by
  induction fuel generalizing bits last with
  | zero => omega
  | succ fuel ih =>
    rcases decodeOne_cases h bits with ⟨v, p, rest, hp, rfl, hd⟩ | ⟨hd, hno⟩
    · by_cases hv : v = eofSym
      · subst hv
        exact ⟨[], by simp, .inl ⟨p, rest, hp, by simp, by simp [decodeLoop, hd, emitted]⟩⟩
      · have hne := HTree.path_ne_nil_of_ne ht hp hv
        have hlen : 0 < p.length := List.length_pos_iff.mpr hne
        obtain ⟨leaves, hl, hcase⟩ := ih rest (some v) (by simp at hf; omega)
        refine ⟨(v, p) :: leaves, ?_, ?_⟩
        · intro sp hsp
          rcases List.mem_cons.mp hsp with rfl | hsp
          exacts [⟨hp, hv⟩, hl sp hsp]
        · rcases hcase with ⟨q, rest', hq, rfl, hrun⟩ | ⟨tail, rfl, hno, hrun⟩
          · exact .inl ⟨q, rest', hq, by simp, by simp only [decodeLoop, hd, if_neg hv, hrun]; simp [emitted]⟩
          · refine .inr ⟨tail, by simp, hno, ?_⟩
            simp only [decodeLoop, hd, if_neg hv, hrun]
            simp only [List.map_cons, List.getLast?_cons, emitted, List.flatMap_cons]
            cases (leaves.map Prod.fst).getLast? <;> rfl
    · exact ⟨[], by simp, .inr ⟨bits, by simp, hno, by simp [decodeLoop, hd, emitted]⟩⟩

/-- A loop of DECODE that ends at the sentinel has decoded it last, whatever the node memory holds (R206). -/
theorem decodeLoop_sentinel {mem : Vector Node 513} {i fuel : Nat} {bits rest : List Bool} {last : Option Symbol}
    (h : (decodeLoop mem i fuel bits last).stop = .sentinel rest) :
    (decodeLoop mem i fuel bits last).last = some eofSym := by
  induction fuel generalizing bits last with
  | zero => cases h
  | succ fuel ih =>
    rw [decodeLoop] at h ⊢
    split at h
    · cases h
    · cases h
    · split at h
      · rename_i heq hv; simp [hv]
      · rename_i heq hv; simp only [if_neg hv] at h ⊢; exact ih h

/-- DECODE's loop on the codes of symbols and then bits that no leaf's path begins (R206). -/
theorem decodeLoop_truncated {mem : Vector Node 513} {i : Nat} {t : HTree} (h : HoldsTree (fun j => mem[j]?) i t)
    (leaves : List (Symbol × List Bool)) (hl : ∀ sp ∈ leaves, sp ∈ t.paths [] ∧ sp.1 ≠ eofSym) {tail : List Bool}
    (hno : ∀ sp ∈ t.paths [], ¬ sp.2 <+: tail) (last : Option Symbol) {fuel : Nat} (hf : leaves.length < fuel) :
    decodeLoop mem i fuel ((leaves.flatMap Prod.snd) ++ tail) last =
      { bits := emitted (leaves.map Prod.fst), last := ((leaves.map Prod.fst).getLast?).or last, stop := .eos } := by
  induction leaves generalizing fuel last with
  | nil =>
    obtain ⟨fuel, rfl⟩ : ∃ f, fuel = f + 1 := ⟨fuel - 1, by simp at hf; omega⟩
    rcases decodeOne_cases h tail with ⟨v, p, rest, hp, hr, -⟩ | ⟨hd, -⟩
    · exact absurd ⟨rest, hr.symm⟩ (hno _ hp)
    · simp [decodeLoop, hd, emitted]
  | cons sp leaves ih =>
    obtain ⟨fuel, rfl⟩ : ∃ f, fuel = f + 1 := ⟨fuel - 1, by simp at hf; omega⟩
    obtain ⟨hmem, hne⟩ := hl sp (by simp)
    have := ih (fun sp hsp => hl sp (by simp [hsp])) (some sp.1) (fuel := fuel) (by simp at hf; omega)
    simp only [List.flatMap_cons, List.append_assoc] at this ⊢
    simp only [decodeLoop, decodeOne_path h hmem, if_neg hne, this, List.map_cons, emitted, List.flatMap_cons,
      List.getLast?_cons]
    cases (leaves.map Prod.fst).getLast? <;> rfl

/-- A loop of DECODE that ends does the same with more levels of fuel, and writes the same whatever was decoded
before. -/
theorem decodeLoop_more {mem : Vector Node 513} {i fuel more : Nat} {bits : List Bool} {last last' : Option Symbol}
    (h : (decodeLoop mem i fuel bits last).stop ≠ .broken) (hm : fuel ≤ more) :
    (decodeLoop mem i more bits last').stop = (decodeLoop mem i fuel bits last).stop ∧
      (decodeLoop mem i more bits last').bits = (decodeLoop mem i fuel bits last).bits := by
  induction fuel generalizing more bits last last' with
  | zero => exact absurd rfl h
  | succ fuel ih =>
    obtain ⟨more, rfl⟩ : ∃ m, more = m + 1 := ⟨more - 1, by omega⟩
    rw [decodeLoop] at h
    rw [decodeLoop, decodeLoop]
    cases hd : decodeOne mem i bits with
    | broken => exact ⟨rfl, rfl⟩
    | eos => exact ⟨rfl, rfl⟩
    | symbol v rest =>
      simp only [hd] at h ⊢
      split
      · exact ⟨rfl, rfl⟩
      · rename_i hv
        rw [if_neg hv] at h
        obtain ⟨h1, h2⟩ := ih (last' := some v) h (Nat.le_of_succ_le_succ hm)
        exact ⟨h1, by simp only [h2]⟩

/-- What decodeOne() leaves is an end of the bits, whatever the node memory holds (R201). -/
theorem decodeOne_suffix {mem : Vector Node 513} {i : Nat} {bits rest : List Bool} {v : Symbol}
    (h : decodeOne mem i bits = .symbol v rest) : ∃ front, bits = front ++ rest := by
  have hdesc : ∀ (bits : List Bool) (n : Node), descend mem n bits = .symbol v rest → ∃ front, bits = front ++ rest := by
    intro bits
    induction bits with
    | nil => intro n h; cases h
    | cons b bits ih =>
      intro n h
      rw [descend] at h
      split at h
      · cases h
      · split at h
        · cases h; exact ⟨[b], rfl⟩
        · obtain ⟨front, rfl⟩ := ih _ h; exact ⟨b :: front, rfl⟩
  rw [decodeOne] at h
  split at h
  · cases h
  · split at h
    · cases h; exact ⟨[], rfl⟩
    · exact hdesc _ _ h

/-- What a loop of DECODE leaves after the sentinel is an end of the bits, whatever the node memory holds (R206). -/
theorem decodeLoop_suffix {mem : Vector Node 513} {i fuel : Nat} {bits rest : List Bool} {last : Option Symbol}
    (h : (decodeLoop mem i fuel bits last).stop = .sentinel rest) : ∃ front, bits = front ++ rest := by
  induction fuel generalizing bits last with
  | zero => cases h
  | succ fuel ih =>
    rw [decodeLoop] at h
    split at h
    · cases h
    · cases h
    · obtain ⟨front, rfl⟩ := decodeOne_suffix ‹_›
      split at h
      · cases h; exact ⟨front, rfl⟩
      · obtain ⟨front', rfl⟩ := ih h; exact ⟨front ++ front', by simp⟩

/-! ### The encoder's loop -/

/-- ENCODE's loop over bytes that all have a code (R186). -/
theorem encodeLoop_valid (code : Nat → CodeEntry) (bytes : List Byte) (h : ∀ b ∈ bytes, (code b.toNat).valid = true) :
    encodeLoop code bytes = { bits := bytes.flatMap fun b => (code b.toNat).path, noCode := none } := by
  induction bytes with
  | nil => rfl
  | cons b bytes ih =>
    rw [encodeLoop, if_pos (h b (by simp)), ih fun b hb => h b (by simp [hb])]
    simp

/-- ENCODE's loop at the first byte with no code: the codes of the earlier bytes are written (R186, R244). -/
theorem encodeLoop_noCode (code : Nat → CodeEntry) (before : List Byte) (b : Byte) (after : List Byte)
    (h : ∀ b ∈ before, (code b.toNat).valid = true) (hb : (code b.toNat).valid = false) :
    encodeLoop code (before ++ b :: after) =
      { bits := before.flatMap fun b => (code b.toNat).path, noCode := some after } := by
  induction before with
  | nil => simp [encodeLoop, hb]
  | cons c before ih =>
    rw [List.cons_append, encodeLoop, if_pos (h c (by simp)), ih fun b hb => h b (by simp [hb])]
    simp

/-- What ENCODE's loop can do. -/
theorem encodeLoop_cases (code : Nat → CodeEntry) (bytes : List Byte) :
    (∀ b ∈ bytes, (code b.toNat).valid = true) ∨
      ∃ before b after, bytes = before ++ b :: after ∧ (∀ b ∈ before, (code b.toNat).valid = true) ∧
        (code b.toNat).valid = false := by
  induction bytes with
  | nil => exact .inl (by simp)
  | cons b bytes ih =>
    by_cases hb : (code b.toNat).valid = true
    · rcases ih with h | ⟨before, c, after, rfl, h1, h2⟩
      · exact .inl (by simpa [hb] using h)
      · exact .inr ⟨b :: before, c, after, rfl, by simpa [hb] using h1, h2⟩
    · exact .inr ⟨[], b, bytes, rfl, by simp, by simpa using hb⟩

end Sys2Proof.Machine
end

