-- ==== Sys2Proof/Laws/State.lean ====
section
/-!
SUPPORT. What each named update of the state does to each of its fields: one lemma per field per update, so that no
proof unfolds a record update.
-/

namespace Sys2Proof.Machine

variable (s : State)

/-! ### inAdvance -/

@[simp] theorem State.inAdvance_params (rest : List Bool) : (s.inAdvance rest).params = s.params := rfl
@[simp] theorem State.inAdvance_cmd (rest : List Bool) : (s.inAdvance rest).cmd = s.cmd := rfl
@[simp] theorem State.inAdvance_err (rest : List Bool) : (s.inAdvance rest).err = s.err := rfl
@[simp] theorem State.inAdvance_freqValid (rest : List Bool) : (s.inAdvance rest).freqValid = s.freqValid := rfl
@[simp] theorem State.inAdvance_treeValid (rest : List Bool) : (s.inAdvance rest).treeValid = s.treeValid := rfl
@[simp] theorem State.inAdvance_codesValid (rest : List Bool) : (s.inAdvance rest).codesValid = s.codesValid := rfl
@[simp] theorem State.inAdvance_eofSeen (rest : List Bool) : (s.inAdvance rest).eofSeen = s.eofSeen := rfl
@[simp] theorem State.inAdvance_ovr (rest : List Bool) : (s.inAdvance rest).ovr = s.ovr := rfl
@[simp] theorem State.inAdvance_errorCode (rest : List Bool) : (s.inAdvance rest).errorCode = s.errorCode := rfl
@[simp] theorem State.inAdvance_errorOp (rest : List Bool) : (s.inAdvance rest).errorOp = s.errorOp := rfl
@[simp] theorem State.inAdvance_resultSym (rest : List Bool) : (s.inAdvance rest).resultSym = s.resultSym := rfl
@[simp] theorem State.inAdvance_resultValid (rest : List Bool) : (s.inAdvance rest).resultValid = s.resultValid := rfl
@[simp] theorem State.inAdvance_total (rest : List Bool) : (s.inAdvance rest).total = s.total := rfl
@[simp] theorem State.inAdvance_root (rest : List Bool) : (s.inAdvance rest).root = s.root := rfl
@[simp] theorem State.inAdvance_nodeCount (rest : List Bool) : (s.inAdvance rest).nodeCount = s.nodeCount := rfl
@[simp] theorem State.inAdvance_freq (rest : List Bool) : (s.inAdvance rest).freq = s.freq := rfl
@[simp] theorem State.inAdvance_node (rest : List Bool) : (s.inAdvance rest).node = s.node := rfl
@[simp] theorem State.inAdvance_code (rest : List Bool) : (s.inAdvance rest).code = s.code := rfl
@[simp] theorem State.inAdvance_inBytes (rest : List Bool) : (s.inAdvance rest).inBytes = s.inBytes := rfl
@[simp] theorem State.inAdvance_inPos (rest : List Bool) : (s.inAdvance rest).inPos = s.inPos + (s.inRest.length - rest.length) := rfl
@[simp] theorem State.inAdvance_outBits (rest : List Bool) : (s.inAdvance rest).outBits = s.outBits := rfl
@[simp] theorem State.inAdvance_outClosed (rest : List Bool) : (s.inAdvance rest).outClosed = s.outClosed := rfl
@[simp] theorem State.inAdvance_host (rest : List Bool) : (s.inAdvance rest).host = s.host := rfl
@[simp] theorem State.inAdvance_log (rest : List Bool) : (s.inAdvance rest).log = s.log := rfl
@[simp] theorem State.inAdvance_draw (rest : List Bool) : (s.inAdvance rest).draw = s.draw := rfl

/-! ### inToEnd -/

@[simp] theorem State.inToEnd_params : (s.inToEnd).params = s.params := rfl
@[simp] theorem State.inToEnd_cmd : (s.inToEnd).cmd = s.cmd := rfl
@[simp] theorem State.inToEnd_err : (s.inToEnd).err = s.err := rfl
@[simp] theorem State.inToEnd_freqValid : (s.inToEnd).freqValid = s.freqValid := rfl
@[simp] theorem State.inToEnd_treeValid : (s.inToEnd).treeValid = s.treeValid := rfl
@[simp] theorem State.inToEnd_codesValid : (s.inToEnd).codesValid = s.codesValid := rfl
@[simp] theorem State.inToEnd_eofSeen : (s.inToEnd).eofSeen = s.eofSeen := rfl
@[simp] theorem State.inToEnd_ovr : (s.inToEnd).ovr = s.ovr := rfl
@[simp] theorem State.inToEnd_errorCode : (s.inToEnd).errorCode = s.errorCode := rfl
@[simp] theorem State.inToEnd_errorOp : (s.inToEnd).errorOp = s.errorOp := rfl
@[simp] theorem State.inToEnd_resultSym : (s.inToEnd).resultSym = s.resultSym := rfl
@[simp] theorem State.inToEnd_resultValid : (s.inToEnd).resultValid = s.resultValid := rfl
@[simp] theorem State.inToEnd_total : (s.inToEnd).total = s.total := rfl
@[simp] theorem State.inToEnd_root : (s.inToEnd).root = s.root := rfl
@[simp] theorem State.inToEnd_nodeCount : (s.inToEnd).nodeCount = s.nodeCount := rfl
@[simp] theorem State.inToEnd_freq : (s.inToEnd).freq = s.freq := rfl
@[simp] theorem State.inToEnd_node : (s.inToEnd).node = s.node := rfl
@[simp] theorem State.inToEnd_code : (s.inToEnd).code = s.code := rfl
@[simp] theorem State.inToEnd_inBytes : (s.inToEnd).inBytes = s.inBytes := rfl
@[simp] theorem State.inToEnd_inPos : (s.inToEnd).inPos = s.inEnd := rfl
@[simp] theorem State.inToEnd_outBits : (s.inToEnd).outBits = s.outBits := rfl
@[simp] theorem State.inToEnd_outClosed : (s.inToEnd).outClosed = s.outClosed := rfl
@[simp] theorem State.inToEnd_host : (s.inToEnd).host = s.host := rfl
@[simp] theorem State.inToEnd_log : (s.inToEnd).log = s.log := rfl
@[simp] theorem State.inToEnd_draw : (s.inToEnd).draw = s.draw := rfl

/-! ### inRewind -/

@[simp] theorem State.inRewind_params : (s.inRewind).params = s.params := rfl
@[simp] theorem State.inRewind_cmd : (s.inRewind).cmd = s.cmd := rfl
@[simp] theorem State.inRewind_err : (s.inRewind).err = s.err := rfl
@[simp] theorem State.inRewind_freqValid : (s.inRewind).freqValid = s.freqValid := rfl
@[simp] theorem State.inRewind_treeValid : (s.inRewind).treeValid = s.treeValid := rfl
@[simp] theorem State.inRewind_codesValid : (s.inRewind).codesValid = s.codesValid := rfl
@[simp] theorem State.inRewind_eofSeen : (s.inRewind).eofSeen = s.eofSeen := rfl
@[simp] theorem State.inRewind_ovr : (s.inRewind).ovr = s.ovr := rfl
@[simp] theorem State.inRewind_errorCode : (s.inRewind).errorCode = s.errorCode := rfl
@[simp] theorem State.inRewind_errorOp : (s.inRewind).errorOp = s.errorOp := rfl
@[simp] theorem State.inRewind_resultSym : (s.inRewind).resultSym = s.resultSym := rfl
@[simp] theorem State.inRewind_resultValid : (s.inRewind).resultValid = s.resultValid := rfl
@[simp] theorem State.inRewind_total : (s.inRewind).total = s.total := rfl
@[simp] theorem State.inRewind_root : (s.inRewind).root = s.root := rfl
@[simp] theorem State.inRewind_nodeCount : (s.inRewind).nodeCount = s.nodeCount := rfl
@[simp] theorem State.inRewind_freq : (s.inRewind).freq = s.freq := rfl
@[simp] theorem State.inRewind_node : (s.inRewind).node = s.node := rfl
@[simp] theorem State.inRewind_code : (s.inRewind).code = s.code := rfl
@[simp] theorem State.inRewind_inBytes : (s.inRewind).inBytes = s.inBytes := rfl
@[simp] theorem State.inRewind_inPos : (s.inRewind).inPos = 0 := rfl
@[simp] theorem State.inRewind_outBits : (s.inRewind).outBits = s.outBits := rfl
@[simp] theorem State.inRewind_outClosed : (s.inRewind).outClosed = s.outClosed := rfl
@[simp] theorem State.inRewind_host : (s.inRewind).host = s.host := rfl
@[simp] theorem State.inRewind_log : (s.inRewind).log = s.log := rfl
@[simp] theorem State.inRewind_draw : (s.inRewind).draw = s.draw := rfl

/-! ### inAdvanceBytes -/

@[simp] theorem State.inAdvanceBytes_params (k : Nat) : (s.inAdvanceBytes k).params = s.params := rfl
@[simp] theorem State.inAdvanceBytes_cmd (k : Nat) : (s.inAdvanceBytes k).cmd = s.cmd := rfl
@[simp] theorem State.inAdvanceBytes_err (k : Nat) : (s.inAdvanceBytes k).err = s.err := rfl
@[simp] theorem State.inAdvanceBytes_freqValid (k : Nat) : (s.inAdvanceBytes k).freqValid = s.freqValid := rfl
@[simp] theorem State.inAdvanceBytes_treeValid (k : Nat) : (s.inAdvanceBytes k).treeValid = s.treeValid := rfl
@[simp] theorem State.inAdvanceBytes_codesValid (k : Nat) : (s.inAdvanceBytes k).codesValid = s.codesValid := rfl
@[simp] theorem State.inAdvanceBytes_eofSeen (k : Nat) : (s.inAdvanceBytes k).eofSeen = s.eofSeen := rfl
@[simp] theorem State.inAdvanceBytes_ovr (k : Nat) : (s.inAdvanceBytes k).ovr = s.ovr := rfl
@[simp] theorem State.inAdvanceBytes_errorCode (k : Nat) : (s.inAdvanceBytes k).errorCode = s.errorCode := rfl
@[simp] theorem State.inAdvanceBytes_errorOp (k : Nat) : (s.inAdvanceBytes k).errorOp = s.errorOp := rfl
@[simp] theorem State.inAdvanceBytes_resultSym (k : Nat) : (s.inAdvanceBytes k).resultSym = s.resultSym := rfl
@[simp] theorem State.inAdvanceBytes_resultValid (k : Nat) : (s.inAdvanceBytes k).resultValid = s.resultValid := rfl
@[simp] theorem State.inAdvanceBytes_total (k : Nat) : (s.inAdvanceBytes k).total = s.total := rfl
@[simp] theorem State.inAdvanceBytes_root (k : Nat) : (s.inAdvanceBytes k).root = s.root := rfl
@[simp] theorem State.inAdvanceBytes_nodeCount (k : Nat) : (s.inAdvanceBytes k).nodeCount = s.nodeCount := rfl
@[simp] theorem State.inAdvanceBytes_freq (k : Nat) : (s.inAdvanceBytes k).freq = s.freq := rfl
@[simp] theorem State.inAdvanceBytes_node (k : Nat) : (s.inAdvanceBytes k).node = s.node := rfl
@[simp] theorem State.inAdvanceBytes_code (k : Nat) : (s.inAdvanceBytes k).code = s.code := rfl
@[simp] theorem State.inAdvanceBytes_inBytes (k : Nat) : (s.inAdvanceBytes k).inBytes = s.inBytes := rfl
@[simp] theorem State.inAdvanceBytes_inPos (k : Nat) : (s.inAdvanceBytes k).inPos = s.inPos + 8 * k := rfl
@[simp] theorem State.inAdvanceBytes_outBits (k : Nat) : (s.inAdvanceBytes k).outBits = s.outBits := rfl
@[simp] theorem State.inAdvanceBytes_outClosed (k : Nat) : (s.inAdvanceBytes k).outClosed = s.outClosed := rfl
@[simp] theorem State.inAdvanceBytes_host (k : Nat) : (s.inAdvanceBytes k).host = s.host := rfl
@[simp] theorem State.inAdvanceBytes_log (k : Nat) : (s.inAdvanceBytes k).log = s.log := rfl
@[simp] theorem State.inAdvanceBytes_draw (k : Nat) : (s.inAdvanceBytes k).draw = s.draw := rfl

/-! ### outAppend -/

@[simp] theorem State.outAppend_params (bits : List Bool) : (s.outAppend bits).params = s.params := rfl
@[simp] theorem State.outAppend_cmd (bits : List Bool) : (s.outAppend bits).cmd = s.cmd := rfl
@[simp] theorem State.outAppend_err (bits : List Bool) : (s.outAppend bits).err = s.err := rfl
@[simp] theorem State.outAppend_freqValid (bits : List Bool) : (s.outAppend bits).freqValid = s.freqValid := rfl
@[simp] theorem State.outAppend_treeValid (bits : List Bool) : (s.outAppend bits).treeValid = s.treeValid := rfl
@[simp] theorem State.outAppend_codesValid (bits : List Bool) : (s.outAppend bits).codesValid = s.codesValid := rfl
@[simp] theorem State.outAppend_eofSeen (bits : List Bool) : (s.outAppend bits).eofSeen = s.eofSeen := rfl
@[simp] theorem State.outAppend_ovr (bits : List Bool) : (s.outAppend bits).ovr = s.ovr := rfl
@[simp] theorem State.outAppend_errorCode (bits : List Bool) : (s.outAppend bits).errorCode = s.errorCode := rfl
@[simp] theorem State.outAppend_errorOp (bits : List Bool) : (s.outAppend bits).errorOp = s.errorOp := rfl
@[simp] theorem State.outAppend_resultSym (bits : List Bool) : (s.outAppend bits).resultSym = s.resultSym := rfl
@[simp] theorem State.outAppend_resultValid (bits : List Bool) : (s.outAppend bits).resultValid = s.resultValid := rfl
@[simp] theorem State.outAppend_total (bits : List Bool) : (s.outAppend bits).total = s.total := rfl
@[simp] theorem State.outAppend_root (bits : List Bool) : (s.outAppend bits).root = s.root := rfl
@[simp] theorem State.outAppend_nodeCount (bits : List Bool) : (s.outAppend bits).nodeCount = s.nodeCount := rfl
@[simp] theorem State.outAppend_freq (bits : List Bool) : (s.outAppend bits).freq = s.freq := rfl
@[simp] theorem State.outAppend_node (bits : List Bool) : (s.outAppend bits).node = s.node := rfl
@[simp] theorem State.outAppend_code (bits : List Bool) : (s.outAppend bits).code = s.code := rfl
@[simp] theorem State.outAppend_inBytes (bits : List Bool) : (s.outAppend bits).inBytes = s.inBytes := rfl
@[simp] theorem State.outAppend_inPos (bits : List Bool) : (s.outAppend bits).inPos = s.inPos := rfl
@[simp] theorem State.outAppend_outBits (bits : List Bool) : (s.outAppend bits).outBits = s.outBits ++ bits := rfl
@[simp] theorem State.outAppend_outClosed (bits : List Bool) : (s.outAppend bits).outClosed = s.outClosed := rfl
@[simp] theorem State.outAppend_host (bits : List Bool) : (s.outAppend bits).host = s.host := rfl
@[simp] theorem State.outAppend_log (bits : List Bool) : (s.outAppend bits).log = s.log := rfl
@[simp] theorem State.outAppend_draw (bits : List Bool) : (s.outAppend bits).draw = s.draw := rfl

/-! ### outClose -/

@[simp] theorem State.outClose_params : (s.outClose).params = s.params := by
  unfold State.outClose; split <;> rfl
@[simp] theorem State.outClose_cmd : (s.outClose).cmd = s.cmd := by
  unfold State.outClose; split <;> rfl
@[simp] theorem State.outClose_err : (s.outClose).err = s.err := by
  unfold State.outClose; split <;> rfl
@[simp] theorem State.outClose_freqValid : (s.outClose).freqValid = s.freqValid := by
  unfold State.outClose; split <;> rfl
@[simp] theorem State.outClose_treeValid : (s.outClose).treeValid = s.treeValid := by
  unfold State.outClose; split <;> rfl
@[simp] theorem State.outClose_codesValid : (s.outClose).codesValid = s.codesValid := by
  unfold State.outClose; split <;> rfl
@[simp] theorem State.outClose_eofSeen : (s.outClose).eofSeen = s.eofSeen := by
  unfold State.outClose; split <;> rfl
@[simp] theorem State.outClose_ovr : (s.outClose).ovr = s.ovr := by
  unfold State.outClose; split <;> rfl
@[simp] theorem State.outClose_errorCode : (s.outClose).errorCode = s.errorCode := by
  unfold State.outClose; split <;> rfl
@[simp] theorem State.outClose_errorOp : (s.outClose).errorOp = s.errorOp := by
  unfold State.outClose; split <;> rfl
@[simp] theorem State.outClose_resultSym : (s.outClose).resultSym = s.resultSym := by
  unfold State.outClose; split <;> rfl
@[simp] theorem State.outClose_resultValid : (s.outClose).resultValid = s.resultValid := by
  unfold State.outClose; split <;> rfl
@[simp] theorem State.outClose_total : (s.outClose).total = s.total := by
  unfold State.outClose; split <;> rfl
@[simp] theorem State.outClose_root : (s.outClose).root = s.root := by
  unfold State.outClose; split <;> rfl
@[simp] theorem State.outClose_nodeCount : (s.outClose).nodeCount = s.nodeCount := by
  unfold State.outClose; split <;> rfl
@[simp] theorem State.outClose_freq : (s.outClose).freq = s.freq := by
  unfold State.outClose; split <;> rfl
@[simp] theorem State.outClose_node : (s.outClose).node = s.node := by
  unfold State.outClose; split <;> rfl
@[simp] theorem State.outClose_code : (s.outClose).code = s.code := by
  unfold State.outClose; split <;> rfl
@[simp] theorem State.outClose_inBytes : (s.outClose).inBytes = s.inBytes := by
  unfold State.outClose; split <;> rfl
@[simp] theorem State.outClose_inPos : (s.outClose).inPos = s.inPos := by
  unfold State.outClose; split <;> rfl
@[simp] theorem State.outClose_outClosed : (s.outClose).outClosed = true := by
  unfold State.outClose; split <;> simp_all
@[simp] theorem State.outClose_host : (s.outClose).host = s.host := by
  unfold State.outClose; split <;> rfl
@[simp] theorem State.outClose_log : (s.outClose).log = s.log := by
  unfold State.outClose; split <;> rfl
@[simp] theorem State.outClose_draw : (s.outClose).draw = s.draw := by
  unfold State.outClose; split <;> rfl

/-! ### raise -/

@[simp] theorem State.raise_params (e : HccError) (op : BitVec 4) : (s.raise e op).params = s.params := by
  unfold State.raise; split <;> rfl
@[simp] theorem State.raise_cmd (e : HccError) (op : BitVec 4) : (s.raise e op).cmd = s.cmd := by
  unfold State.raise; split <;> rfl
@[simp] theorem State.raise_err (e : HccError) (op : BitVec 4) : (s.raise e op).err = true := by
  unfold State.raise; split <;> simp_all
@[simp] theorem State.raise_freqValid (e : HccError) (op : BitVec 4) : (s.raise e op).freqValid = s.freqValid := by
  unfold State.raise; split <;> rfl
@[simp] theorem State.raise_treeValid (e : HccError) (op : BitVec 4) : (s.raise e op).treeValid = s.treeValid := by
  unfold State.raise; split <;> rfl
@[simp] theorem State.raise_codesValid (e : HccError) (op : BitVec 4) : (s.raise e op).codesValid = s.codesValid := by
  unfold State.raise; split <;> rfl
@[simp] theorem State.raise_eofSeen (e : HccError) (op : BitVec 4) : (s.raise e op).eofSeen = s.eofSeen := by
  unfold State.raise; split <;> rfl
@[simp] theorem State.raise_ovr (e : HccError) (op : BitVec 4) : (s.raise e op).ovr = s.ovr := by
  unfold State.raise; split <;> rfl
@[simp] theorem State.raise_resultSym (e : HccError) (op : BitVec 4) : (s.raise e op).resultSym = s.resultSym := by
  unfold State.raise; split <;> rfl
@[simp] theorem State.raise_resultValid (e : HccError) (op : BitVec 4) : (s.raise e op).resultValid = s.resultValid := by
  unfold State.raise; split <;> rfl
@[simp] theorem State.raise_total (e : HccError) (op : BitVec 4) : (s.raise e op).total = s.total := by
  unfold State.raise; split <;> rfl
@[simp] theorem State.raise_root (e : HccError) (op : BitVec 4) : (s.raise e op).root = s.root := by
  unfold State.raise; split <;> rfl
@[simp] theorem State.raise_nodeCount (e : HccError) (op : BitVec 4) : (s.raise e op).nodeCount = s.nodeCount := by
  unfold State.raise; split <;> rfl
@[simp] theorem State.raise_freq (e : HccError) (op : BitVec 4) : (s.raise e op).freq = s.freq := by
  unfold State.raise; split <;> rfl
@[simp] theorem State.raise_node (e : HccError) (op : BitVec 4) : (s.raise e op).node = s.node := by
  unfold State.raise; split <;> rfl
@[simp] theorem State.raise_code (e : HccError) (op : BitVec 4) : (s.raise e op).code = s.code := by
  unfold State.raise; split <;> rfl
@[simp] theorem State.raise_inBytes (e : HccError) (op : BitVec 4) : (s.raise e op).inBytes = s.inBytes := by
  unfold State.raise; split <;> rfl
@[simp] theorem State.raise_inPos (e : HccError) (op : BitVec 4) : (s.raise e op).inPos = s.inPos := by
  unfold State.raise; split <;> rfl
@[simp] theorem State.raise_outBits (e : HccError) (op : BitVec 4) : (s.raise e op).outBits = s.outBits := by
  unfold State.raise; split <;> rfl
@[simp] theorem State.raise_outClosed (e : HccError) (op : BitVec 4) : (s.raise e op).outClosed = s.outClosed := by
  unfold State.raise; split <;> rfl
@[simp] theorem State.raise_host (e : HccError) (op : BitVec 4) : (s.raise e op).host = s.host := by
  unfold State.raise; split <;> rfl
@[simp] theorem State.raise_log (e : HccError) (op : BitVec 4) : (s.raise e op).log = s.log := by
  unfold State.raise; split <;> rfl
@[simp] theorem State.raise_draw (e : HccError) (op : BitVec 4) : (s.raise e op).draw = s.draw := by
  unfold State.raise; split <;> rfl

/-! ### clearError -/

@[simp] theorem State.clearError_params : (s.clearError).params = s.params := rfl
@[simp] theorem State.clearError_cmd : (s.clearError).cmd = s.cmd := rfl
@[simp] theorem State.clearError_err : (s.clearError).err = false := rfl
@[simp] theorem State.clearError_freqValid : (s.clearError).freqValid = s.freqValid := rfl
@[simp] theorem State.clearError_treeValid : (s.clearError).treeValid = s.treeValid := rfl
@[simp] theorem State.clearError_codesValid : (s.clearError).codesValid = s.codesValid := rfl
@[simp] theorem State.clearError_eofSeen : (s.clearError).eofSeen = s.eofSeen := rfl
@[simp] theorem State.clearError_ovr : (s.clearError).ovr = false := rfl
@[simp] theorem State.clearError_errorCode : (s.clearError).errorCode = 0 := rfl
@[simp] theorem State.clearError_errorOp : (s.clearError).errorOp = 0 := rfl
@[simp] theorem State.clearError_resultSym : (s.clearError).resultSym = s.resultSym := rfl
@[simp] theorem State.clearError_resultValid : (s.clearError).resultValid = s.resultValid := rfl
@[simp] theorem State.clearError_total : (s.clearError).total = s.total := rfl
@[simp] theorem State.clearError_root : (s.clearError).root = s.root := rfl
@[simp] theorem State.clearError_nodeCount : (s.clearError).nodeCount = s.nodeCount := rfl
@[simp] theorem State.clearError_freq : (s.clearError).freq = s.freq := rfl
@[simp] theorem State.clearError_node : (s.clearError).node = s.node := rfl
@[simp] theorem State.clearError_code : (s.clearError).code = s.code := rfl
@[simp] theorem State.clearError_inBytes : (s.clearError).inBytes = s.inBytes := rfl
@[simp] theorem State.clearError_inPos : (s.clearError).inPos = s.inPos := rfl
@[simp] theorem State.clearError_outBits : (s.clearError).outBits = s.outBits := rfl
@[simp] theorem State.clearError_outClosed : (s.clearError).outClosed = s.outClosed := rfl
@[simp] theorem State.clearError_host : (s.clearError).host = s.host := rfl
@[simp] theorem State.clearError_log : (s.clearError).log = s.log := rfl
@[simp] theorem State.clearError_draw : (s.clearError).draw = s.draw := rfl

/-! ### clearRegisters -/

@[simp] theorem State.clearRegisters_params : (s.clearRegisters).params = s.params := rfl
@[simp] theorem State.clearRegisters_cmd : (s.clearRegisters).cmd = s.cmd := rfl
@[simp] theorem State.clearRegisters_err : (s.clearRegisters).err = false := rfl
@[simp] theorem State.clearRegisters_freqValid : (s.clearRegisters).freqValid = false := rfl
@[simp] theorem State.clearRegisters_treeValid : (s.clearRegisters).treeValid = false := rfl
@[simp] theorem State.clearRegisters_codesValid : (s.clearRegisters).codesValid = false := rfl
@[simp] theorem State.clearRegisters_eofSeen : (s.clearRegisters).eofSeen = false := rfl
@[simp] theorem State.clearRegisters_ovr : (s.clearRegisters).ovr = false := rfl
@[simp] theorem State.clearRegisters_errorCode : (s.clearRegisters).errorCode = 0 := rfl
@[simp] theorem State.clearRegisters_errorOp : (s.clearRegisters).errorOp = 0 := rfl
@[simp] theorem State.clearRegisters_resultSym : (s.clearRegisters).resultSym = 0 := rfl
@[simp] theorem State.clearRegisters_resultValid : (s.clearRegisters).resultValid = false := rfl
@[simp] theorem State.clearRegisters_total : (s.clearRegisters).total = 0 := rfl
@[simp] theorem State.clearRegisters_root : (s.clearRegisters).root = 0 := rfl
@[simp] theorem State.clearRegisters_nodeCount : (s.clearRegisters).nodeCount = 0 := rfl
@[simp] theorem State.clearRegisters_freq : (s.clearRegisters).freq = s.freq := rfl
@[simp] theorem State.clearRegisters_node : (s.clearRegisters).node = s.node := rfl
@[simp] theorem State.clearRegisters_code : (s.clearRegisters).code = s.code := rfl
@[simp] theorem State.clearRegisters_inBytes : (s.clearRegisters).inBytes = s.inBytes := rfl
@[simp] theorem State.clearRegisters_inPos : (s.clearRegisters).inPos = s.inPos := rfl
@[simp] theorem State.clearRegisters_outBits : (s.clearRegisters).outBits = s.outBits := rfl
@[simp] theorem State.clearRegisters_outClosed : (s.clearRegisters).outClosed = s.outClosed := rfl
@[simp] theorem State.clearRegisters_host : (s.clearRegisters).host = s.host := rfl
@[simp] theorem State.clearRegisters_log : (s.clearRegisters).log = s.log := rfl
@[simp] theorem State.clearRegisters_draw : (s.clearRegisters).draw = s.draw := rfl

/-! ### dropTree -/

@[simp] theorem State.dropTree_params : (s.dropTree).params = s.params := rfl
@[simp] theorem State.dropTree_cmd : (s.dropTree).cmd = s.cmd := rfl
@[simp] theorem State.dropTree_err : (s.dropTree).err = s.err := rfl
@[simp] theorem State.dropTree_freqValid : (s.dropTree).freqValid = s.freqValid := rfl
@[simp] theorem State.dropTree_treeValid : (s.dropTree).treeValid = false := rfl
@[simp] theorem State.dropTree_codesValid : (s.dropTree).codesValid = false := rfl
@[simp] theorem State.dropTree_eofSeen : (s.dropTree).eofSeen = false := rfl
@[simp] theorem State.dropTree_ovr : (s.dropTree).ovr = s.ovr := rfl
@[simp] theorem State.dropTree_errorCode : (s.dropTree).errorCode = s.errorCode := rfl
@[simp] theorem State.dropTree_errorOp : (s.dropTree).errorOp = s.errorOp := rfl
@[simp] theorem State.dropTree_resultSym : (s.dropTree).resultSym = s.resultSym := rfl
@[simp] theorem State.dropTree_resultValid : (s.dropTree).resultValid = s.resultValid := rfl
@[simp] theorem State.dropTree_total : (s.dropTree).total = s.total := rfl
@[simp] theorem State.dropTree_root : (s.dropTree).root = s.root := rfl
@[simp] theorem State.dropTree_nodeCount : (s.dropTree).nodeCount = s.nodeCount := rfl
@[simp] theorem State.dropTree_freq : (s.dropTree).freq = s.freq := rfl
@[simp] theorem State.dropTree_node : (s.dropTree).node = s.node := rfl
@[simp] theorem State.dropTree_code : (s.dropTree).code = s.code := rfl
@[simp] theorem State.dropTree_inBytes : (s.dropTree).inBytes = s.inBytes := rfl
@[simp] theorem State.dropTree_inPos : (s.dropTree).inPos = s.inPos := rfl
@[simp] theorem State.dropTree_outBits : (s.dropTree).outBits = s.outBits := rfl
@[simp] theorem State.dropTree_outClosed : (s.dropTree).outClosed = s.outClosed := rfl
@[simp] theorem State.dropTree_host : (s.dropTree).host = s.host := rfl
@[simp] theorem State.dropTree_log : (s.dropTree).log = s.log := rfl
@[simp] theorem State.dropTree_draw : (s.dropTree).draw = s.draw := rfl

/-! ### setTree -/

@[simp] theorem State.setTree_params (mem : Vector Node 513) (r c : BitVec 10) : (s.setTree mem r c).params = s.params := rfl
@[simp] theorem State.setTree_cmd (mem : Vector Node 513) (r c : BitVec 10) : (s.setTree mem r c).cmd = s.cmd := rfl
@[simp] theorem State.setTree_err (mem : Vector Node 513) (r c : BitVec 10) : (s.setTree mem r c).err = s.err := rfl
@[simp] theorem State.setTree_freqValid (mem : Vector Node 513) (r c : BitVec 10) : (s.setTree mem r c).freqValid = s.freqValid := rfl
@[simp] theorem State.setTree_treeValid (mem : Vector Node 513) (r c : BitVec 10) : (s.setTree mem r c).treeValid = true := rfl
@[simp] theorem State.setTree_codesValid (mem : Vector Node 513) (r c : BitVec 10) : (s.setTree mem r c).codesValid = s.codesValid := rfl
@[simp] theorem State.setTree_eofSeen (mem : Vector Node 513) (r c : BitVec 10) : (s.setTree mem r c).eofSeen = s.eofSeen := rfl
@[simp] theorem State.setTree_ovr (mem : Vector Node 513) (r c : BitVec 10) : (s.setTree mem r c).ovr = s.ovr := rfl
@[simp] theorem State.setTree_errorCode (mem : Vector Node 513) (r c : BitVec 10) : (s.setTree mem r c).errorCode = s.errorCode := rfl
@[simp] theorem State.setTree_errorOp (mem : Vector Node 513) (r c : BitVec 10) : (s.setTree mem r c).errorOp = s.errorOp := rfl
@[simp] theorem State.setTree_resultSym (mem : Vector Node 513) (r c : BitVec 10) : (s.setTree mem r c).resultSym = s.resultSym := rfl
@[simp] theorem State.setTree_resultValid (mem : Vector Node 513) (r c : BitVec 10) : (s.setTree mem r c).resultValid = s.resultValid := rfl
@[simp] theorem State.setTree_total (mem : Vector Node 513) (r c : BitVec 10) : (s.setTree mem r c).total = s.total := rfl
@[simp] theorem State.setTree_root (mem : Vector Node 513) (r c : BitVec 10) : (s.setTree mem r c).root = r := rfl
@[simp] theorem State.setTree_nodeCount (mem : Vector Node 513) (r c : BitVec 10) : (s.setTree mem r c).nodeCount = c := rfl
@[simp] theorem State.setTree_freq (mem : Vector Node 513) (r c : BitVec 10) : (s.setTree mem r c).freq = s.freq := rfl
@[simp] theorem State.setTree_node (mem : Vector Node 513) (r c : BitVec 10) : (s.setTree mem r c).node = mem := rfl
@[simp] theorem State.setTree_code (mem : Vector Node 513) (r c : BitVec 10) : (s.setTree mem r c).code = s.code := rfl
@[simp] theorem State.setTree_inBytes (mem : Vector Node 513) (r c : BitVec 10) : (s.setTree mem r c).inBytes = s.inBytes := rfl
@[simp] theorem State.setTree_inPos (mem : Vector Node 513) (r c : BitVec 10) : (s.setTree mem r c).inPos = s.inPos := rfl
@[simp] theorem State.setTree_outBits (mem : Vector Node 513) (r c : BitVec 10) : (s.setTree mem r c).outBits = s.outBits := rfl
@[simp] theorem State.setTree_outClosed (mem : Vector Node 513) (r c : BitVec 10) : (s.setTree mem r c).outClosed = s.outClosed := rfl
@[simp] theorem State.setTree_host (mem : Vector Node 513) (r c : BitVec 10) : (s.setTree mem r c).host = s.host := rfl
@[simp] theorem State.setTree_log (mem : Vector Node 513) (r c : BitVec 10) : (s.setTree mem r c).log = s.log := rfl
@[simp] theorem State.setTree_draw (mem : Vector Node 513) (r c : BitVec 10) : (s.setTree mem r c).draw = s.draw := rfl

/-! ### looseTree -/

@[simp] theorem State.looseTree_params : (s.looseTree).params = s.params := rfl
@[simp] theorem State.looseTree_cmd : (s.looseTree).cmd = s.cmd := rfl
@[simp] theorem State.looseTree_err : (s.looseTree).err = s.err := rfl
@[simp] theorem State.looseTree_freqValid : (s.looseTree).freqValid = s.freqValid := rfl
@[simp] theorem State.looseTree_treeValid : (s.looseTree).treeValid = s.treeValid := rfl
@[simp] theorem State.looseTree_codesValid : (s.looseTree).codesValid = s.codesValid := rfl
@[simp] theorem State.looseTree_eofSeen : (s.looseTree).eofSeen = s.eofSeen := rfl
@[simp] theorem State.looseTree_ovr : (s.looseTree).ovr = s.ovr := rfl
@[simp] theorem State.looseTree_errorCode : (s.looseTree).errorCode = s.errorCode := rfl
@[simp] theorem State.looseTree_errorOp : (s.looseTree).errorOp = s.errorOp := rfl
@[simp] theorem State.looseTree_resultSym : (s.looseTree).resultSym = s.resultSym := rfl
@[simp] theorem State.looseTree_resultValid : (s.looseTree).resultValid = s.resultValid := rfl
@[simp] theorem State.looseTree_total : (s.looseTree).total = s.total := rfl
@[simp] theorem State.looseTree_root : (s.looseTree).root = (Config.freeTree s.draw).extractLsb' 0 10 := rfl
@[simp] theorem State.looseTree_nodeCount : (s.looseTree).nodeCount = (Config.freeTree s.draw).extractLsb' 10 10 := rfl
@[simp] theorem State.looseTree_freq : (s.looseTree).freq = s.freq := rfl
@[simp] theorem State.looseTree_node : (s.looseTree).node = freeNodeTable s.params s.draw := rfl
@[simp] theorem State.looseTree_code : (s.looseTree).code = s.code := rfl
@[simp] theorem State.looseTree_inBytes : (s.looseTree).inBytes = s.inBytes := rfl
@[simp] theorem State.looseTree_inPos : (s.looseTree).inPos = s.inPos := rfl
@[simp] theorem State.looseTree_outBits : (s.looseTree).outBits = s.outBits := rfl
@[simp] theorem State.looseTree_outClosed : (s.looseTree).outClosed = s.outClosed := rfl
@[simp] theorem State.looseTree_host : (s.looseTree).host = s.host := rfl
@[simp] theorem State.looseTree_log : (s.looseTree).log = s.log := rfl
@[simp] theorem State.looseTree_draw : (s.looseTree).draw = s.draw + 1 := rfl

/-! ### inAfter -/

@[simp] theorem State.inAfter_params (rest : Option (List Bool)) : (s.inAfter rest).params = s.params := by cases rest <;> rfl
@[simp] theorem State.inAfter_cmd (rest : Option (List Bool)) : (s.inAfter rest).cmd = s.cmd := by cases rest <;> rfl
@[simp] theorem State.inAfter_err (rest : Option (List Bool)) : (s.inAfter rest).err = s.err := by cases rest <;> rfl
@[simp] theorem State.inAfter_freqValid (rest : Option (List Bool)) : (s.inAfter rest).freqValid = s.freqValid := by cases rest <;> rfl
@[simp] theorem State.inAfter_treeValid (rest : Option (List Bool)) : (s.inAfter rest).treeValid = s.treeValid := by cases rest <;> rfl
@[simp] theorem State.inAfter_codesValid (rest : Option (List Bool)) : (s.inAfter rest).codesValid = s.codesValid := by cases rest <;> rfl
@[simp] theorem State.inAfter_eofSeen (rest : Option (List Bool)) : (s.inAfter rest).eofSeen = s.eofSeen := by cases rest <;> rfl
@[simp] theorem State.inAfter_ovr (rest : Option (List Bool)) : (s.inAfter rest).ovr = s.ovr := by cases rest <;> rfl
@[simp] theorem State.inAfter_errorCode (rest : Option (List Bool)) : (s.inAfter rest).errorCode = s.errorCode := by cases rest <;> rfl
@[simp] theorem State.inAfter_errorOp (rest : Option (List Bool)) : (s.inAfter rest).errorOp = s.errorOp := by cases rest <;> rfl
@[simp] theorem State.inAfter_resultSym (rest : Option (List Bool)) : (s.inAfter rest).resultSym = s.resultSym := by cases rest <;> rfl
@[simp] theorem State.inAfter_resultValid (rest : Option (List Bool)) : (s.inAfter rest).resultValid = s.resultValid := by cases rest <;> rfl
@[simp] theorem State.inAfter_total (rest : Option (List Bool)) : (s.inAfter rest).total = s.total := by cases rest <;> rfl
@[simp] theorem State.inAfter_root (rest : Option (List Bool)) : (s.inAfter rest).root = s.root := by cases rest <;> rfl
@[simp] theorem State.inAfter_nodeCount (rest : Option (List Bool)) : (s.inAfter rest).nodeCount = s.nodeCount := by cases rest <;> rfl
@[simp] theorem State.inAfter_freq (rest : Option (List Bool)) : (s.inAfter rest).freq = s.freq := by cases rest <;> rfl
@[simp] theorem State.inAfter_node (rest : Option (List Bool)) : (s.inAfter rest).node = s.node := by cases rest <;> rfl
@[simp] theorem State.inAfter_code (rest : Option (List Bool)) : (s.inAfter rest).code = s.code := by cases rest <;> rfl
@[simp] theorem State.inAfter_inBytes (rest : Option (List Bool)) : (s.inAfter rest).inBytes = s.inBytes := by cases rest <;> rfl
@[simp] theorem State.inAfter_outBits (rest : Option (List Bool)) : (s.inAfter rest).outBits = s.outBits := by cases rest <;> rfl
@[simp] theorem State.inAfter_outClosed (rest : Option (List Bool)) : (s.inAfter rest).outClosed = s.outClosed := by cases rest <;> rfl
@[simp] theorem State.inAfter_host (rest : Option (List Bool)) : (s.inAfter rest).host = s.host := by cases rest <;> rfl
@[simp] theorem State.inAfter_log (rest : Option (List Bool)) : (s.inAfter rest).log = s.log := by cases rest <;> rfl
@[simp] theorem State.inAfter_draw (rest : Option (List Bool)) : (s.inAfter rest).draw = s.draw := by cases rest <;> rfl

/-! ### dropResult -/

@[simp] theorem State.dropResult_params : (s.dropResult).params = s.params := rfl
@[simp] theorem State.dropResult_cmd : (s.dropResult).cmd = s.cmd := rfl
@[simp] theorem State.dropResult_err : (s.dropResult).err = s.err := rfl
@[simp] theorem State.dropResult_freqValid : (s.dropResult).freqValid = s.freqValid := rfl
@[simp] theorem State.dropResult_treeValid : (s.dropResult).treeValid = s.treeValid := rfl
@[simp] theorem State.dropResult_codesValid : (s.dropResult).codesValid = s.codesValid := rfl
@[simp] theorem State.dropResult_eofSeen : (s.dropResult).eofSeen = false := rfl
@[simp] theorem State.dropResult_ovr : (s.dropResult).ovr = s.ovr := rfl
@[simp] theorem State.dropResult_errorCode : (s.dropResult).errorCode = s.errorCode := rfl
@[simp] theorem State.dropResult_errorOp : (s.dropResult).errorOp = s.errorOp := rfl
@[simp] theorem State.dropResult_resultSym : (s.dropResult).resultSym = s.resultSym := rfl
@[simp] theorem State.dropResult_resultValid : (s.dropResult).resultValid = false := rfl
@[simp] theorem State.dropResult_total : (s.dropResult).total = s.total := rfl
@[simp] theorem State.dropResult_root : (s.dropResult).root = s.root := rfl
@[simp] theorem State.dropResult_nodeCount : (s.dropResult).nodeCount = s.nodeCount := rfl
@[simp] theorem State.dropResult_freq : (s.dropResult).freq = s.freq := rfl
@[simp] theorem State.dropResult_node : (s.dropResult).node = s.node := rfl
@[simp] theorem State.dropResult_code : (s.dropResult).code = s.code := rfl
@[simp] theorem State.dropResult_inBytes : (s.dropResult).inBytes = s.inBytes := rfl
@[simp] theorem State.dropResult_inPos : (s.dropResult).inPos = s.inPos := rfl
@[simp] theorem State.dropResult_outBits : (s.dropResult).outBits = s.outBits := rfl
@[simp] theorem State.dropResult_outClosed : (s.dropResult).outClosed = s.outClosed := rfl
@[simp] theorem State.dropResult_host : (s.dropResult).host = s.host := rfl
@[simp] theorem State.dropResult_log : (s.dropResult).log = s.log := rfl
@[simp] theorem State.dropResult_draw : (s.dropResult).draw = s.draw := rfl

/-! ### setResult -/

@[simp] theorem State.setResult_params (v : Symbol) : (s.setResult v).params = s.params := rfl
@[simp] theorem State.setResult_cmd (v : Symbol) : (s.setResult v).cmd = s.cmd := rfl
@[simp] theorem State.setResult_err (v : Symbol) : (s.setResult v).err = s.err := rfl
@[simp] theorem State.setResult_freqValid (v : Symbol) : (s.setResult v).freqValid = s.freqValid := rfl
@[simp] theorem State.setResult_treeValid (v : Symbol) : (s.setResult v).treeValid = s.treeValid := rfl
@[simp] theorem State.setResult_codesValid (v : Symbol) : (s.setResult v).codesValid = s.codesValid := rfl
@[simp] theorem State.setResult_eofSeen (v : Symbol) : (s.setResult v).eofSeen = s.eofSeen := rfl
@[simp] theorem State.setResult_ovr (v : Symbol) : (s.setResult v).ovr = s.ovr := rfl
@[simp] theorem State.setResult_errorCode (v : Symbol) : (s.setResult v).errorCode = s.errorCode := rfl
@[simp] theorem State.setResult_errorOp (v : Symbol) : (s.setResult v).errorOp = s.errorOp := rfl
@[simp] theorem State.setResult_resultSym (v : Symbol) : (s.setResult v).resultSym = v := rfl
@[simp] theorem State.setResult_resultValid (v : Symbol) : (s.setResult v).resultValid = true := rfl
@[simp] theorem State.setResult_total (v : Symbol) : (s.setResult v).total = s.total := rfl
@[simp] theorem State.setResult_root (v : Symbol) : (s.setResult v).root = s.root := rfl
@[simp] theorem State.setResult_nodeCount (v : Symbol) : (s.setResult v).nodeCount = s.nodeCount := rfl
@[simp] theorem State.setResult_freq (v : Symbol) : (s.setResult v).freq = s.freq := rfl
@[simp] theorem State.setResult_node (v : Symbol) : (s.setResult v).node = s.node := rfl
@[simp] theorem State.setResult_code (v : Symbol) : (s.setResult v).code = s.code := rfl
@[simp] theorem State.setResult_inBytes (v : Symbol) : (s.setResult v).inBytes = s.inBytes := rfl
@[simp] theorem State.setResult_inPos (v : Symbol) : (s.setResult v).inPos = s.inPos := rfl
@[simp] theorem State.setResult_outBits (v : Symbol) : (s.setResult v).outBits = s.outBits := rfl
@[simp] theorem State.setResult_outClosed (v : Symbol) : (s.setResult v).outClosed = s.outClosed := rfl
@[simp] theorem State.setResult_host (v : Symbol) : (s.setResult v).host = s.host := rfl
@[simp] theorem State.setResult_log (v : Symbol) : (s.setResult v).log = s.log := rfl
@[simp] theorem State.setResult_draw (v : Symbol) : (s.setResult v).draw = s.draw := rfl

/-! ### setLast -/

@[simp] theorem State.setLast_params (last : Option Symbol) : (s.setLast last).params = s.params := by cases last <;> rfl
@[simp] theorem State.setLast_cmd (last : Option Symbol) : (s.setLast last).cmd = s.cmd := by cases last <;> rfl
@[simp] theorem State.setLast_err (last : Option Symbol) : (s.setLast last).err = s.err := by cases last <;> rfl
@[simp] theorem State.setLast_freqValid (last : Option Symbol) : (s.setLast last).freqValid = s.freqValid := by cases last <;> rfl
@[simp] theorem State.setLast_treeValid (last : Option Symbol) : (s.setLast last).treeValid = s.treeValid := by cases last <;> rfl
@[simp] theorem State.setLast_codesValid (last : Option Symbol) : (s.setLast last).codesValid = s.codesValid := by cases last <;> rfl
@[simp] theorem State.setLast_eofSeen (last : Option Symbol) : (s.setLast last).eofSeen = s.eofSeen := by cases last <;> rfl
@[simp] theorem State.setLast_ovr (last : Option Symbol) : (s.setLast last).ovr = s.ovr := by cases last <;> rfl
@[simp] theorem State.setLast_errorCode (last : Option Symbol) : (s.setLast last).errorCode = s.errorCode := by cases last <;> rfl
@[simp] theorem State.setLast_errorOp (last : Option Symbol) : (s.setLast last).errorOp = s.errorOp := by cases last <;> rfl
@[simp] theorem State.setLast_total (last : Option Symbol) : (s.setLast last).total = s.total := by cases last <;> rfl
@[simp] theorem State.setLast_root (last : Option Symbol) : (s.setLast last).root = s.root := by cases last <;> rfl
@[simp] theorem State.setLast_nodeCount (last : Option Symbol) : (s.setLast last).nodeCount = s.nodeCount := by cases last <;> rfl
@[simp] theorem State.setLast_freq (last : Option Symbol) : (s.setLast last).freq = s.freq := by cases last <;> rfl
@[simp] theorem State.setLast_node (last : Option Symbol) : (s.setLast last).node = s.node := by cases last <;> rfl
@[simp] theorem State.setLast_code (last : Option Symbol) : (s.setLast last).code = s.code := by cases last <;> rfl
@[simp] theorem State.setLast_inBytes (last : Option Symbol) : (s.setLast last).inBytes = s.inBytes := by cases last <;> rfl
@[simp] theorem State.setLast_inPos (last : Option Symbol) : (s.setLast last).inPos = s.inPos := by cases last <;> rfl
@[simp] theorem State.setLast_outBits (last : Option Symbol) : (s.setLast last).outBits = s.outBits := by cases last <;> rfl
@[simp] theorem State.setLast_outClosed (last : Option Symbol) : (s.setLast last).outClosed = s.outClosed := by cases last <;> rfl
@[simp] theorem State.setLast_host (last : Option Symbol) : (s.setLast last).host = s.host := by cases last <;> rfl
@[simp] theorem State.setLast_log (last : Option Symbol) : (s.setLast last).log = s.log := by cases last <;> rfl
@[simp] theorem State.setLast_draw (last : Option Symbol) : (s.setLast last).draw = s.draw := by cases last <;> rfl

/-! ### commandEnd -/

@[simp] theorem State.commandEnd_params : (s.commandEnd).params = s.params := rfl
@[simp] theorem State.commandEnd_cmd : (s.commandEnd).cmd = none := rfl
@[simp] theorem State.commandEnd_err : (s.commandEnd).err = s.err := rfl
@[simp] theorem State.commandEnd_freqValid : (s.commandEnd).freqValid = s.freqValid := rfl
@[simp] theorem State.commandEnd_treeValid : (s.commandEnd).treeValid = s.treeValid := rfl
@[simp] theorem State.commandEnd_codesValid : (s.commandEnd).codesValid = s.codesValid := rfl
@[simp] theorem State.commandEnd_eofSeen : (s.commandEnd).eofSeen = s.eofSeen := rfl
@[simp] theorem State.commandEnd_ovr : (s.commandEnd).ovr = s.ovr := rfl
@[simp] theorem State.commandEnd_errorCode : (s.commandEnd).errorCode = s.errorCode := rfl
@[simp] theorem State.commandEnd_errorOp : (s.commandEnd).errorOp = s.errorOp := rfl
@[simp] theorem State.commandEnd_resultSym : (s.commandEnd).resultSym = s.resultSym := rfl
@[simp] theorem State.commandEnd_resultValid : (s.commandEnd).resultValid = s.resultValid := rfl
@[simp] theorem State.commandEnd_total : (s.commandEnd).total = s.total := rfl
@[simp] theorem State.commandEnd_root : (s.commandEnd).root = s.root := rfl
@[simp] theorem State.commandEnd_nodeCount : (s.commandEnd).nodeCount = s.nodeCount := rfl
@[simp] theorem State.commandEnd_freq : (s.commandEnd).freq = s.freq := rfl
@[simp] theorem State.commandEnd_node : (s.commandEnd).node = s.node := rfl
@[simp] theorem State.commandEnd_code : (s.commandEnd).code = s.code := rfl
@[simp] theorem State.commandEnd_inBytes : (s.commandEnd).inBytes = s.inBytes := rfl
@[simp] theorem State.commandEnd_inPos : (s.commandEnd).inPos = s.inPos := rfl
@[simp] theorem State.commandEnd_outBits : (s.commandEnd).outBits = s.outBits := rfl
@[simp] theorem State.commandEnd_outClosed : (s.commandEnd).outClosed = s.outClosed := rfl
@[simp] theorem State.commandEnd_host : (s.commandEnd).host = s.host := rfl
@[simp] theorem State.commandEnd_log : (s.commandEnd).log = s.log := rfl
@[simp] theorem State.commandEnd_draw : (s.commandEnd).draw = s.draw + 1 := rfl

end Sys2Proof.Machine
end

