-- ==== Sys2Proof/Laws/Exec.lean ====
section
/-!
SUPPORT. What each shared guard and each command can do, said once: if it answers a next state, one of these cases
holds (spec/60_exceptions.md R231 to R244 and the rule of each command).
-/

namespace Sys2Proof.Machine

variable {s t : State}

/-! ### Guards -/

/-- The error-state filter (R231). -/
theorem unlessErr_next {run : Outcome} (h : unlessErr s run = .next t) :
    (s.err = true ∧ t = s) ∨ (s.err = false ∧ run = .next t) := by
  unfold unlessErr at h
  split at h
  · cases h; exact .inl ⟨‹_›, rfl⟩
  · exact .inr ⟨by simpa using ‹¬ s.err = true›, h⟩

theorem unlessErr_run {run : Outcome} (h : s.err = false) : unlessErr s run = run := by simp [unlessErr, h]

theorem unlessErr_ignored {run : Outcome} (h : s.err = true) : unlessErr s run = .next s := by simp [unlessErr, h]

/-- The SEQUENCE check (R240). -/
theorem needsValid_next {flag : Bool} {op : BitVec 4} {run : Outcome} (h : needsValid s flag op run = .next t) :
    (flag = false ∧ t = s.raise .sequence op) ∨ (flag = true ∧ run = .next t) := by
  unfold needsValid at h
  split at h
  · exact .inr ⟨‹_›, h⟩
  · cases h; exact .inl ⟨by simpa using ‹¬ flag = true›, rfl⟩

/-- The OUTPUT_CLOSED check (R232). -/
theorem needsOpen_next {op : BitVec 4} {run : Outcome} (h : needsOpen s op run = .next t) :
    (s.outClosed = true ∧ t = s.raise .outputClosed op) ∨ (s.outClosed = false ∧ run = .next t) := by
  unfold needsOpen at h
  split at h
  · cases h; exact .inl ⟨‹_›, rfl⟩
  · exact .inr ⟨by simpa using ‹¬ s.outClosed = true›, h⟩

/-- The operand check (R103). -/
theorem withSymbol_next {op : BitVec 4} {sym : Symbol} {run : Nat → Outcome} (h : withSymbol s op sym run = .next t) :
    (256 < sym.toNat ∧ t = s.raise .illegalCommand op) ∨ (sym.toNat ≤ 256 ∧ run sym.toNat = .next t) := by
  unfold withSymbol legalSymbol at h
  split at h
  · exact .inr ⟨‹_›, h⟩
  · cases h; exact .inl ⟨by omega, rfl⟩

/-- A walk of the tree below ROOT (R150, R160). -/
theorem withTree_next {run : HTree → Outcome} (h : withTree s run = .next t) :
    ∃ tree, s.tree = some tree ∧ run tree = .next t := by
  unfold withTree at h
  split at h
  · exact ⟨_, ‹_›, h⟩
  · cases h

/-- Raising an error outside the error state (R233). -/
theorem raise_of_noErr (h : s.err = false) (e : HccError) (op : BitVec 4) :
    s.raise e op = { s with err := true, errorCode := e.number, errorOp := op } := by simp [State.raise, h]

/-- Raising an error in the error state changes nothing (R233). -/
theorem raise_of_err (h : s.err = true) (e : HccError) (op : BitVec 4) : s.raise e op = s := by simp [State.raise, h]

theorem number_range (e : HccError) : 1 ≤ e.number.toNat ∧ e.number.toNat ≤ 8 := by cases e <;> decide

/-! ### Commands -/

/-- The state COUNT's loop leaves, before its end (R130). -/
def State.counted (s : State) : State :=
  let run := countLoop (maxCount s.params) (streamBytes s.inRest) freqStart 1
  { s with freqValid := false, freq := run.freq, total := run.total }

theorem execCount_next (h : execCount s = .next t) :
    (s.err = true ∧ t = s) ∨ s.err = false ∧
      (((countLoop (maxCount s.params) (streamBytes s.inRest) freqStart 1).overflow = none ∧
          t = { s.counted.inToEnd with freqValid := true }) ∨
        ∃ rest, (countLoop (maxCount s.params) (streamBytes s.inRest) freqStart 1).overflow = some rest ∧
          t = (s.counted.inAdvanceBytes ((streamBytes s.inRest).length - rest.length)).raise .countOverflow 0x1) := by
  rcases unlessErr_next h with h | ⟨he, h⟩
  · exact .inl h
  · refine .inr ⟨he, ?_⟩
    simp only at h
    split at h
    · cases h; exact .inl ⟨‹_›, rfl⟩
    · cases h; exact .inr ⟨_, ‹_›, rfl⟩

/-- The state a BUILD that runs leaves (R140). -/
def State.built (s : State) : State :=
  s.dropTree.setTree (fillNodes s.node (buildNodes s.params s.freq))
    (BitVec.ofNat 10 (buildNodes s.params s.freq).length - 1) (BitVec.ofNat 10 (buildNodes s.params s.freq).length)

theorem execBuild_next (h : execBuild s = .next t) :
    (s.err = true ∧ t = s) ∨ s.err = false ∧
      ((s.freqValid = false ∧ t = s.raise .sequence 0x2) ∨ (s.freqValid = true ∧ t = s.built)) := by
  rcases unlessErr_next h with h | ⟨he, h⟩
  · exact .inl h
  · refine .inr ⟨he, ?_⟩
    rcases needsValid_next h with h | ⟨hv, h⟩
    · exact .inl h
    · cases h; exact .inr ⟨hv, rfl⟩

theorem execGencodes_next (h : execGencodes s = .next t) :
    (s.err = true ∧ t = s) ∨ s.err = false ∧
      ((s.treeValid = false ∧ t = s.raise .sequence 0x3) ∨
        s.treeValid = true ∧ ∃ tree, s.tree = some tree ∧ t = { s with code := codesOf tree, codesValid := true }) := by
  rcases unlessErr_next h with h | ⟨he, h⟩
  · exact .inl h
  · refine .inr ⟨he, ?_⟩
    rcases needsValid_next h with h | ⟨hv, h⟩
    · exact .inl h
    · obtain ⟨tree, ht, h⟩ := withTree_next h
      cases h; exact .inr ⟨hv, tree, ht, rfl⟩

theorem execWrTree_next (h : execWrTree s = .next t) :
    (s.err = true ∧ t = s) ∨ s.err = false ∧
      ((s.treeValid = false ∧ t = s.raise .sequence 0x4) ∨ s.treeValid = true ∧
        ((s.outClosed = true ∧ t = s.raise .outputClosed 0x4) ∨
          s.outClosed = false ∧ ∃ tree, s.tree = some tree ∧ t = s.outAppend tree.encoding)) := by
  rcases unlessErr_next h with h | ⟨he, h⟩
  · exact .inl h
  · refine .inr ⟨he, ?_⟩
    rcases needsValid_next h with h | ⟨hv, h⟩
    · exact .inl h
    · refine .inr ⟨hv, ?_⟩
      rcases needsOpen_next h with h | ⟨ho, h⟩
      · exact .inl h
      · obtain ⟨tree, ht, h⟩ := withTree_next h
        cases h; exact .inr ⟨ho, tree, ht, rfl⟩

/-- The state a failing RD_TREE leaves (R244). -/
def State.treeFailed (s : State) (rest : Option (List Bool)) : State :=
  (s.dropTree.looseTree.inAfter rest).raise .malformedTree 0x5

/-- The state an RD_TREE that read `tree` leaves (R164, R165). -/
def State.treeRead (s : State) (tree : HTree) (rest : List Bool) : State :=
  (s.dropTree.setTree (fillNodes s.node (tree.layout 0)) 0 (BitVec.ofNat 10 tree.size)).inAdvance rest

theorem execRdTree_next (h : execRdTree s = .next t) :
    (s.err = true ∧ t = s) ∨ s.err = false ∧
      ((∃ rest, t = s.treeFailed rest ∧
          (parseTree 257 0 s.inRest = .malformed rest ∨
            ∃ tree k bits, parseTree 257 0 s.inRest = .tree tree bits k ∧ tree.badRoot = true ∧ rest = some bits)) ∨
        ∃ tree rest k, parseTree 257 0 s.inRest = .tree tree rest k ∧ tree.badRoot = false ∧
          t = s.treeRead tree rest) := by
  rcases unlessErr_next h with h | ⟨he, h⟩
  · exact .inl h
  · refine .inr ⟨he, ?_⟩
    split at h
    · cases h; exact .inl ⟨_, rfl, .inl ‹_›⟩
    · split at h
      · cases h; exact .inl ⟨_, rfl, .inr ⟨_, _, _, ‹_›, ‹_›, rfl⟩⟩
      · cases h; exact .inr ⟨_, _, _, ‹_›, by simpa using ‹¬ HTree.badRoot _ = true›, rfl⟩

theorem execWrHeader_next (h : execWrHeader s = .next t) :
    (s.err = true ∧ t = s) ∨ s.err = false ∧
      ((s.outClosed = true ∧ t = s.raise .outputClosed 0x6) ∨
        s.outClosed = false ∧ t = s.outAppend (fieldBits 32 s.params.magic.toNat)) := by
  rcases unlessErr_next h with h | ⟨he, h⟩
  · exact .inl h
  · refine .inr ⟨he, ?_⟩
    rcases needsOpen_next h with h | ⟨ho, h⟩
    · exact .inl h
    · cases h; exact .inr ⟨ho, rfl⟩

theorem execRewind_next (h : execRewind s = .next t) :
    (s.err = true ∧ t = s) ∨ (s.err = false ∧ t = s.inRewind) := by
  rcases unlessErr_next h with h | ⟨he, h⟩
  · exact .inl h
  · cases h; exact .inr ⟨he, rfl⟩

theorem execEncSym_next {sym : Symbol} (h : execEncSym sym s = .next t) :
    (s.err = true ∧ t = s) ∨ s.err = false ∧
      ((256 < sym.toNat ∧ t = s.raise .illegalCommand 0x8) ∨ sym.toNat ≤ 256 ∧
        ((s.codesValid = false ∧ t = s.raise .sequence 0x8) ∨ s.codesValid = true ∧
          ((s.outClosed = true ∧ t = s.raise .outputClosed 0x8) ∨ s.outClosed = false ∧
            (((s.codeOf sym.toNat).valid = false ∧ t = s.raise .noCode 0x8) ∨
              (s.codeOf sym.toNat).valid = true ∧ t = s.outAppend (s.codeOf sym.toNat).path)))) := by
  rcases unlessErr_next h with h | ⟨he, h⟩
  · exact .inl h
  · refine .inr ⟨he, ?_⟩
    rcases withSymbol_next h with h | ⟨hs, h⟩
    · exact .inl h
    · refine .inr ⟨hs, ?_⟩
      rcases needsValid_next h with h | ⟨hv, h⟩
      · exact .inl h
      · refine .inr ⟨hv, ?_⟩
        rcases needsOpen_next h with h | ⟨ho, h⟩
        · exact .inl h
        · refine .inr ⟨ho, ?_⟩
          simp only at h
          split at h
          · cases h; exact .inr ⟨‹_›, rfl⟩
          · cases h; exact .inl ⟨by simpa using ‹¬ (s.codeOf sym.toNat).valid = true›, rfl⟩

/-- The state of ENCODE after its loop over the bytes (R186). -/
def State.encoded (s : State) : State := s.outAppend (encodeLoop s.codeOf (streamBytes s.inRest)).bits

theorem execEncode_next (h : execEncode s = .next t) :
    (s.err = true ∧ t = s) ∨ s.err = false ∧
      ((s.codesValid = false ∧ t = s.raise .sequence 0x9) ∨ s.codesValid = true ∧
        ((s.outClosed = true ∧ t = s.raise .outputClosed 0x9) ∨ s.outClosed = false ∧
          ((∃ rest, (encodeLoop s.codeOf (streamBytes s.inRest)).noCode = some rest ∧
              t = (s.encoded.inAdvanceBytes ((streamBytes s.inRest).length - rest.length)).raise .noCode 0x9) ∨
            (encodeLoop s.codeOf (streamBytes s.inRest)).noCode = none ∧
              (((s.codeOf 256).valid = true ∧ t = (s.encoded.outAppend (s.codeOf 256).path).inToEnd) ∨
                ((s.codeOf 256).valid = false ∧ t = s.encoded.inToEnd.raise .noCode 0x9))))) := by
  rcases unlessErr_next h with h | ⟨he, h⟩
  · exact .inl h
  · refine .inr ⟨he, ?_⟩
    rcases needsValid_next h with h | ⟨hv, h⟩
    · exact .inl h
    · refine .inr ⟨hv, ?_⟩
      rcases needsOpen_next h with h | ⟨ho, h⟩
      · exact .inl h
      · refine .inr ⟨ho, ?_⟩
        simp only at h
        split at h
        · cases h; exact .inl ⟨_, ‹_›, rfl⟩
        · refine .inr ⟨‹_›, ?_⟩
          split at h
          · cases h; exact .inl ⟨‹_›, rfl⟩
          · cases h; exact .inr ⟨by simpa using ‹¬ (s.codeOf 256).valid = true›, rfl⟩

theorem execRdHeader_next (h : execRdHeader s = .next t) :
    (s.err = true ∧ t = s) ∨ s.err = false ∧
      ((inRead 32 s.inRest = none ∧ t = s.inToEnd.raise .badHeader 0xB) ∨
        ∃ v rest, inRead 32 s.inRest = some (v, rest) ∧
          ((v = s.params.magic.toNat ∧ t = s.inAdvance rest) ∨
            (v ≠ s.params.magic.toNat ∧ t = (s.inAdvance rest).raise .badHeader 0xB))) := by
  rcases unlessErr_next h with h | ⟨he, h⟩
  · exact .inl h
  · refine .inr ⟨he, ?_⟩
    split at h
    · cases h; exact .inl ⟨‹_›, rfl⟩
    · refine .inr ⟨_, _, ‹_›, ?_⟩
      split at h
      · cases h; exact .inl ⟨‹_›, rfl⟩
      · cases h; exact .inr ⟨‹_›, rfl⟩

/-- The state of DEC_SYM once a symbol has been decoded (R202). -/
def State.symbolDecoded (s : State) (v : Symbol) (rest : List Bool) : State :=
  (s.dropResult.inAdvance rest).setResult v

theorem execDecSym_next (h : execDecSym s = .next t) :
    (s.err = true ∧ t = s) ∨ s.err = false ∧
      ((s.treeValid = false ∧ t = s.raise .sequence 0xC) ∨ s.treeValid = true ∧
        ((s.outClosed = true ∧ t = s.raise .outputClosed 0xC) ∨ s.outClosed = false ∧
          ((decodeOne s.node s.root.toNat s.inRest = .eos ∧
              t = s.dropResult.inToEnd.raise .truncatedStream 0xC) ∨
            ∃ v rest, decodeOne s.node s.root.toNat s.inRest = .symbol v rest ∧
              ((v = eofSym ∧ t = { s.symbolDecoded v rest with eofSeen := true }) ∨
                (v ≠ eofSym ∧ t = (s.symbolDecoded v rest).outAppend (fieldBits 8 v.toNat)))))) := by
  rcases unlessErr_next h with h | ⟨he, h⟩
  · exact .inl h
  · refine .inr ⟨he, ?_⟩
    rcases needsValid_next h with h | ⟨hv, h⟩
    · exact .inl h
    · refine .inr ⟨hv, ?_⟩
      rcases needsOpen_next h with h | ⟨ho, h⟩
      · exact .inl h
      · refine .inr ⟨ho, ?_⟩
        split at h
        · cases h
        · cases h; exact .inl ⟨‹_›, rfl⟩
        · refine .inr ⟨_, _, ‹_›, ?_⟩
          simp only at h
          split at h
          · cases h; exact .inl ⟨‹_›, rfl⟩
          · cases h; exact .inr ⟨‹_›, rfl⟩

/-- What DECODE's loop does from a state (R206). -/
def State.decodeRun (s : State) : DecodeRun :=
  decodeLoop s.node s.root.toNat (s.inRest.length + 1) s.inRest none

/-- The state of DECODE after its loop (R206). -/
def State.decoded (s : State) : State := (s.dropResult.outAppend s.decodeRun.bits).setLast s.decodeRun.last

theorem execDecode_next (h : execDecode s = .next t) :
    (s.err = true ∧ t = s) ∨ s.err = false ∧
      ((s.treeValid = false ∧ t = s.raise .sequence 0xD) ∨ s.treeValid = true ∧
        ((s.outClosed = true ∧ t = s.raise .outputClosed 0xD) ∨ s.outClosed = false ∧
          ((s.decodeRun.stop = .eos ∧ t = s.decoded.inToEnd.raise .truncatedStream 0xD) ∨
            ∃ rest, s.decodeRun.stop = .sentinel rest ∧ t = { s.decoded.inAdvance rest with eofSeen := true }))) := by
  rcases unlessErr_next h with h | ⟨he, h⟩
  · exact .inl h
  · refine .inr ⟨he, ?_⟩
    rcases needsValid_next h with h | ⟨hv, h⟩
    · exact .inl h
    · refine .inr ⟨hv, ?_⟩
      rcases needsOpen_next h with h | ⟨ho, h⟩
      · exact .inl h
      · refine .inr ⟨ho, ?_⟩
        simp only at h
        split at h
        · cases h
        · cases h; exact .inl ⟨‹_›, rfl⟩
        · cases h; exact .inr ⟨_, ‹_›, rfl⟩

/-! ### Commands that end without an error -/

/-- Where ENCODE raises nothing, every byte it read and the sentinel had a code (R186). -/
theorem execEncode_succeeds (he : s.err = false) (h : execEncode s = .next t) (ht : t.err = false) :
    s.codesValid = true ∧ s.outClosed = false ∧
      (∀ b ∈ streamBytes s.inRest, (s.codeOf b.toNat).valid = true) ∧ (s.codeOf 256).valid = true := by
  rcases execEncode_next h with ⟨h, -⟩ | ⟨-, ⟨-, rfl⟩ | ⟨hc, ⟨-, rfl⟩ | ⟨ho, ⟨rest, -, rfl⟩ | ⟨hn, ⟨h256, -⟩ | ⟨-, rfl⟩⟩⟩⟩⟩
  · rw [he] at h; cases h
  · simp at ht
  · simp at ht
  · simp at ht
  · refine ⟨hc, ho, ?_, h256⟩
    rcases encodeLoop_cases s.codeOf (streamBytes s.inRest) with hl | ⟨before, b, after, hb, h1, h2⟩
    · exact hl
    · rw [hb, encodeLoop_noCode _ _ _ _ h1 h2] at hn; cases hn
  · simp at ht

/-- Where DECODE raises nothing, its loop ended at the sentinel (R206). -/
theorem execDecode_succeeds (he : s.err = false) (h : execDecode s = .next t) (ht : t.err = false) :
    s.treeValid = true ∧ s.outClosed = false ∧
      ∃ rest, s.decodeRun.stop = .sentinel rest ∧ t = { s.decoded.inAdvance rest with eofSeen := true } := by
  rcases execDecode_next h with ⟨h, -⟩ | ⟨-, ⟨-, rfl⟩ | ⟨hv, ⟨-, rfl⟩ | ⟨ho, ⟨-, rfl⟩ | h⟩⟩⟩
  · rw [he] at h; cases h
  · simp at ht
  · simp at ht
  · simp at ht
  · exact ⟨hv, ho, h⟩

end Sys2Proof.Machine
end

