-- ==== Sys2Proof/Laws/Ports.lean ====
section
/-!
SUPPORT. Laws of the port accesses (spec/20_memory.md R72 to R75, R79): what a list of them does to the ports, and that the
accesses of each command do to the ports what the command does.
-/

namespace Sys2Proof.Machine

/-! ### What a list of accesses does -/

/-- Where an access leaves the input position, `T` being its end (R72, R73). -/
def PortAccess.pos (T p : Nat) : PortAccess → Nat
  | .read n => if T < p + n then T else p + n
  | .rewind => 0
  | .write _ _ | .close => p

/-- The bits an access appends, but for the padding of a close (R74). -/
def PortAccess.written : PortAccess → List Bool
  | .write n v => fieldBits n v
  | .read _ | .rewind | .close => []

/-- Where a list of accesses leaves the input position. -/
def posAfter (T p : Nat) (list : List PortAccess) : Nat := list.foldl (PortAccess.pos T) p

@[simp] theorem posAfter_nil (T p : Nat) : posAfter T p [] = p := rfl
@[simp] theorem posAfter_cons (T p : Nat) (a : PortAccess) (list : List PortAccess) :
    posAfter T p (a :: list) = posAfter T (a.pos T p) list := rfl
@[simp] theorem posAfter_append (T p : Nat) (l m : List PortAccess) :
    posAfter T p (l ++ m) = posAfter T (posAfter T p l) m := List.foldl_append

variable {s t : State}

/-- An access changes the input position, the output bits and the closed flag, and nothing else. -/
theorem access_frame (s : State) (a : PortAccess) :
    s.access a = { s with
      inPos := (s.access a).inPos, outBits := (s.access a).outBits, outClosed := (s.access a).outClosed } := by
  cases a <;> simp only [State.access]
  · split <;> rfl
  · rfl
  · rfl
  · unfold State.outClose; split <;> rfl

theorem access_inPos (s : State) (a : PortAccess) : (s.access a).inPos = a.pos s.inEnd s.inPos := by
  cases a <;> simp only [State.access, PortAccess.pos]
  · split <;> rfl
  · rfl
  · rfl
  · unfold State.outClose; split <;> rfl

@[simp] theorem accesses_nil (s : State) : s.accesses [] = s := rfl
@[simp] theorem accesses_cons (s : State) (a : PortAccess) (list : List PortAccess) :
    s.accesses (a :: list) = (s.access a).accesses list := rfl

theorem accesses_frame (s : State) (list : List PortAccess) :
    s.accesses list = { s with
      inPos := (s.accesses list).inPos, outBits := (s.accesses list).outBits,
      outClosed := (s.accesses list).outClosed } := by
  induction list generalizing s with
  | nil => rfl
  | cons a list ih =>
    have h := ih (s.access a)
    rw [accesses_cons]
    generalize (s.access a).accesses list = t at h ⊢
    rw [h, access_frame s a]

@[simp] theorem State.accesses_params (s : State) (list : List PortAccess) : (s.accesses list).params = s.params := by
  rw [accesses_frame]
@[simp] theorem State.accesses_cmd (s : State) (list : List PortAccess) : (s.accesses list).cmd = s.cmd := by
  rw [accesses_frame]
@[simp] theorem State.accesses_err (s : State) (list : List PortAccess) : (s.accesses list).err = s.err := by
  rw [accesses_frame]
@[simp] theorem State.accesses_freqValid (s : State) (list : List PortAccess) : (s.accesses list).freqValid = s.freqValid := by
  rw [accesses_frame]
@[simp] theorem State.accesses_treeValid (s : State) (list : List PortAccess) : (s.accesses list).treeValid = s.treeValid := by
  rw [accesses_frame]
@[simp] theorem State.accesses_codesValid (s : State) (list : List PortAccess) : (s.accesses list).codesValid = s.codesValid := by
  rw [accesses_frame]
@[simp] theorem State.accesses_eofSeen (s : State) (list : List PortAccess) : (s.accesses list).eofSeen = s.eofSeen := by
  rw [accesses_frame]
@[simp] theorem State.accesses_ovr (s : State) (list : List PortAccess) : (s.accesses list).ovr = s.ovr := by
  rw [accesses_frame]
@[simp] theorem State.accesses_errorCode (s : State) (list : List PortAccess) : (s.accesses list).errorCode = s.errorCode := by
  rw [accesses_frame]
@[simp] theorem State.accesses_errorOp (s : State) (list : List PortAccess) : (s.accesses list).errorOp = s.errorOp := by
  rw [accesses_frame]
@[simp] theorem State.accesses_resultSym (s : State) (list : List PortAccess) : (s.accesses list).resultSym = s.resultSym := by
  rw [accesses_frame]
@[simp] theorem State.accesses_resultValid (s : State) (list : List PortAccess) : (s.accesses list).resultValid = s.resultValid := by
  rw [accesses_frame]
@[simp] theorem State.accesses_total (s : State) (list : List PortAccess) : (s.accesses list).total = s.total := by
  rw [accesses_frame]
@[simp] theorem State.accesses_root (s : State) (list : List PortAccess) : (s.accesses list).root = s.root := by
  rw [accesses_frame]
@[simp] theorem State.accesses_nodeCount (s : State) (list : List PortAccess) : (s.accesses list).nodeCount = s.nodeCount := by
  rw [accesses_frame]
@[simp] theorem State.accesses_freq (s : State) (list : List PortAccess) : (s.accesses list).freq = s.freq := by
  rw [accesses_frame]
@[simp] theorem State.accesses_node (s : State) (list : List PortAccess) : (s.accesses list).node = s.node := by
  rw [accesses_frame]
@[simp] theorem State.accesses_code (s : State) (list : List PortAccess) : (s.accesses list).code = s.code := by
  rw [accesses_frame]
@[simp] theorem State.accesses_inBytes (s : State) (list : List PortAccess) : (s.accesses list).inBytes = s.inBytes := by
  rw [accesses_frame]
@[simp] theorem State.accesses_host (s : State) (list : List PortAccess) : (s.accesses list).host = s.host := by
  rw [accesses_frame]
@[simp] theorem State.accesses_log (s : State) (list : List PortAccess) : (s.accesses list).log = s.log := by
  rw [accesses_frame]
@[simp] theorem State.accesses_draw (s : State) (list : List PortAccess) : (s.accesses list).draw = s.draw := by
  rw [accesses_frame]

theorem access_inEnd (s : State) (a : PortAccess) : (s.access a).inEnd = s.inEnd := by rw [access_frame]; rfl

/-- The input position after a list of accesses. -/
theorem accesses_inPos (s : State) (list : List PortAccess) :
    (s.accesses list).inPos = posAfter s.inEnd s.inPos list := by
  induction list generalizing s with
  | nil => rfl
  | cons a list ih => rw [accesses_cons, ih, access_inEnd, access_inPos, posAfter_cons]

/-- The output after a list of accesses none of which is a close. -/
theorem accesses_out (s : State) {list : List PortAccess} (h : .close ∉ list) :
    (s.accesses list).outBits = s.outBits ++ list.flatMap PortAccess.written ∧
      (s.accesses list).outClosed = s.outClosed := by
  induction list generalizing s with
  | nil => simp
  | cons a list ih =>
    have ha : a ≠ .close := fun e => h (by simp [e])
    obtain ⟨h1, h2⟩ := ih (s.access a) fun hm => h (by simp [hm])
    rw [accesses_cons, h1, h2]
    cases a with
    | read n => simp only [State.access]; split <;> simp [PortAccess.written]
    | rewind => simp [State.access, PortAccess.written]
    | write n v => simp [State.access, PortAccess.written, State.outWrite]
    | close => exact absurd rfl ha

@[simp] theorem State.access_within {a : PortAccess} (h : s.inPos ≤ s.inEnd) : (s.access a).inPos ≤ (s.access a).inEnd := by
  rw [access_inEnd, access_inPos]
  cases a <;> simp only [PortAccess.pos]
  · split <;> omega
  · omega
  · exact h
  · exact h

/-- Accesses keep the input position within the input (R70). -/
theorem accesses_within (list : List PortAccess) (h : s.inPos ≤ s.inEnd) :
    (s.accesses list).inPos ≤ (s.accesses list).inEnd := by
  induction list generalizing s with
  | nil => exact h
  | cons a list ih => exact ih (State.access_within h)

/-! ### Reads -/

/-- Reads of n bits that all find enough. -/
theorem posAfter_reads {T p k n : Nat} (hn : 0 < n) (h : k * n ≤ T - p) :
    posAfter T p (List.replicate k (.read n)) = p + k * n := by
  induction k generalizing p with
  | zero => simp
  | succ k ih =>
    rw [Nat.succ_mul] at h ⊢
    rw [List.replicate_succ, posAfter_cons, PortAccess.pos, if_neg (by omega), ih (by omega)]
    omega

/-- Reads of n bits of which one finds too few (R72). -/
theorem posAfter_reads_eos {T p k n : Nat} (hn : 0 < n) (h : T < p + (k + 1) * n) :
    posAfter T p (List.replicate (k + 1) (.read n)) = T := by
  induction k generalizing p with
  | zero => simp [PortAccess.pos]; omega
  | succ k ih =>
    rw [List.replicate_succ, posAfter_cons, PortAccess.pos]
    rw [Nat.succ_mul] at h
    split
    · exact ih (by have : 0 < (k + 1) * n := Nat.mul_pos (by omega) hn; omega)
    · exact ih (by omega)

theorem written_reads (k n : Nat) : (List.replicate k (PortAccess.read n)).flatMap PortAccess.written = [] := by
  simp [List.flatMap_eq_nil_iff, PortAccess.written]

/-! ### Writes -/

theorem posAfter_bitWrites (T p : Nat) (bits : List Bool) : posAfter T p (bitWrites bits) = p := by
  induction bits with
  | nil => rfl
  | cons b bits ih => exact ih

theorem written_bitWrites (bits : List Bool) : (bitWrites bits).flatMap PortAccess.written = bits := by
  induction bits with
  | nil => rfl
  | cons b bits ih =>
    rw [bitWrites, List.map_cons, List.flatMap_cons, ← bitWrites, ih]
    cases b <;> rfl

theorem posAfter_writes (T p : Nat) (tree : HTree) : posAfter T p tree.writes = p := by
  induction tree with
  | leaf => rfl
  | node l r ihl ihr => rw [HTree.writes, posAfter_append, posAfter_cons, PortAccess.pos, ihl, ihr]

/-- WR_TREE's writes are the encoding of its tree (R105, R160). -/
theorem written_writes (tree : HTree) : tree.writes.flatMap PortAccess.written = tree.encoding := by
  induction tree with
  | leaf => simp [HTree.writes, PortAccess.written, HTree.encoding]
  | node l r ihl ihr => simp [HTree.writes, PortAccess.written, HTree.encoding, ihl, ihr]

/-! ### The reads of RD_TREE -/

theorem treeReads_mem {eos : Bool} {skip : Nat} {bits : List Bool} {a : PortAccess} (h : a ∈ treeReads eos skip bits) :
    a = .read 1 ∨ a = .read 9 := by
  induction bits generalizing skip with
  | nil => cases skip <;> cases eos <;> simp_all [treeReads]
  | cons b bits ih =>
    cases skip with
    | succ skip => exact ih h
    | zero =>
      cases b <;> simp only [treeReads, List.mem_cons] at h
      · rcases h with h | h
        exacts [.inl h, ih h]
      · rcases h with h | h | h
        exacts [.inl h, .inr h, ih h]

theorem written_treeReads (eos : Bool) (skip : Nat) (bits : List Bool) :
    (treeReads eos skip bits).flatMap PortAccess.written = [] := by
  rw [List.flatMap_eq_nil_iff]
  intro a ha
  rcases treeReads_mem ha with rfl | rfl <;> rfl

/-- Where RD_TREE meets the end of the input, its reads leave the position there (R72). -/
theorem posAfter_treeReads_eos {T p p0 skip : Nat} {bits : List Bool} (hb : bits.length = T - p0)
    (hp : p = min (p0 + skip) T ∨ (skip = 0 ∧ p = p0)) : posAfter T p (treeReads true skip bits) = T := by
  induction bits generalizing p p0 skip with
  | nil =>
    simp only [List.length_nil] at hb
    cases skip with
    | zero => simp only [treeReads, if_true, posAfter_cons, posAfter_nil, PortAccess.pos]; split <;> omega
    | succ skip => simp only [treeReads, posAfter_nil]; omega
  | cons b bits ih =>
    simp only [List.length_cons] at hb
    cases skip with
    | succ skip => exact ih (p0 := p0 + 1) (by omega) (.inl (by omega))
    | zero =>
      cases b <;> simp only [treeReads, posAfter_cons, PortAccess.pos]
      · exact ih (p0 := p0 + 1) (by omega) (.inr ⟨rfl, by split <;> omega⟩)
      · exact ih (p0 := p0 + 1) (by omega) (.inl (by split <;> split <;> omega))

/-- Bits that are whole fields of a tree encoding: RD_TREE's reads consume them all and no more. -/
def WholeFields (bits : List Bool) : Prop :=
  ∀ (T p : Nat) (more : List Bool), bits.length ≤ T - p →
    posAfter T p (treeReads false 0 (bits ++ more)) = posAfter T (p + bits.length) (treeReads false 0 more)

theorem WholeFields.append {a b : List Bool} (ha : WholeFields a) (hb : WholeFields b) : WholeFields (a ++ b) := by
  intro T p more h
  rw [List.length_append] at h ⊢
  rw [List.append_assoc, ha T p _ (by omega), hb T _ _ (by omega), Nat.add_assoc]

theorem wholeFields_item (i : TreeItem) : WholeFields (itemBits i) := by
  intro T p more h
  cases i with
  | none =>
    simp only [itemBits, List.length_cons, List.length_nil] at h
    simp only [itemBits, List.cons_append, List.nil_append, treeReads, posAfter_cons, PortAccess.pos, List.length_cons,
      List.length_nil, if_neg (show ¬ T < p + 1 by omega)]
  | some v =>
    have hl : (itemBits (some v)).length = 10 := rfl
    rw [hl] at h ⊢
    have e : treeReads false 0 (itemBits (some v) ++ more) = .read 1 :: .read 9 :: treeReads false 0 more := rfl
    rw [e]
    simp only [posAfter_cons, PortAccess.pos, if_neg (show ¬ T < p + 1 by omega), if_neg (show ¬ T < p + 1 + 9 by omega)]

theorem wholeFields_items (items : List TreeItem) : WholeFields (itemsBits items) := by
  induction items with
  | nil => intro T p more _; rfl
  | cons i items ih => exact (wholeFields_item i).append ih

/-- RD_TREE's reads over whole fields. -/
theorem WholeFields.pos {bits : List Bool} (h : WholeFields bits) {T p : Nat} (hb : bits.length ≤ T - p) :
    posAfter T p (treeReads false 0 bits) = p + bits.length := by
  have := h T p [] hb
  rwa [List.append_nil] at this

/-! ### The items of an encoding -/

/-- The items of a tree in preorder (R105). -/
def HTree.items : HTree → List TreeItem
  | .leaf v => [some v]
  | .node l r => none :: l.items ++ r.items

theorem itemBits_leaf (v : Symbol) : itemBits (some v) = fieldBits 1 1 ++ fieldBits 9 v.toNat := by
  simp [itemBits, fieldBits, BitVec.testBit_toNat]

theorem itemsBits_items (t : HTree) : itemsBits t.items = t.encoding := by
  induction t with
  | leaf v => simp [HTree.items, itemsBits, itemBits_leaf, HTree.encoding]
  | node l r ihl ihr =>
    simp only [itemsBits] at ihl ihr
    simp [HTree.items, itemsBits, HTree.encoding, ihl, ihr, itemBits, fieldBits]

theorem subtreesLeft_items (t : HTree) (n : Nat) (more : List TreeItem) :
    subtreesLeft (n + 1) (t.items ++ more) = subtreesLeft n more := by
  induction t generalizing n more with
  | leaf v => rfl
  | node l r ihl ihr =>
    simp only [HTree.items, List.cons_append, List.append_assoc, subtreesLeft]
    rw [ihl, ihr]

theorem items_internals (t : HTree) : t.items.countP Option.isNone = t.internals := by
  induction t with
  | leaf v => rfl
  | node l r ihl ihr => simp [HTree.items, HTree.internals, ihl, ihr]; omega

theorem items_symbols (t : HTree) (v : Symbol) : some v ∈ t.items ↔ v ∈ t.symbols := by
  induction t with
  | leaf w => simp [HTree.items, HTree.symbols]
  | node l r ihl ihr => simp [HTree.items, HTree.symbols, ihl, ihr]

/-- Where des() fails (R164, R166, R167, R169): after some items of an encoding that is not complete, the input ends, or a
leaf value above 256 comes, or an internal node where 256 have come already. -/
theorem parseTree_malformed {fuel k : Nat} {bits : List Bool} {r : Option (List Bool)}
    (h : parseTree fuel k bits = .malformed r) (hk : k ≤ 256) (hf : 257 ≤ fuel + k) :
    ∃ items tail, bits = itemsBits items ++ tail ∧ (∃ m, ∀ j, subtreesLeft (j + 1) items = some (j + m + 1)) ∧
      k + items.countP Option.isNone ≤ 256 ∧ (∀ v, some v ∈ items → v.toNat ≤ 256) ∧
      ((r = none ∧ (tail = [] ∨ ∃ few, tail = true :: few ∧ few.length < 9)) ∨
        (∃ v rest, 256 < v.toNat ∧ tail = itemBits (some v) ++ rest ∧ r = some rest) ∨
        (k + items.countP Option.isNone = 256 ∧ ∃ rest, tail = false :: rest ∧ r = some rest)) := by
  induction fuel generalizing k bits r with
  | zero => omega
  | succ fuel ih =>
    rw [parseTree] at h
    split at h
    · rename_i h1
      cases h
      refine ⟨[], bits, rfl, ⟨0, fun j => rfl⟩, by simpa using hk, by simp, .inl ⟨rfl, .inl ?_⟩⟩
      unfold inRead at h1
      split at h1
      · exact List.length_eq_zero_iff.mp (by omega)
      · cases h1
    · rename_i tag bits1 h1
      obtain ⟨rfl, htag⟩ := inRead_some h1
      split at h
      · subst tag
        have e0 : fieldBits 1 0 = [false] := rfl
        rw [e0]
        split at h
        · cases h
          exact ⟨[], _, rfl, ⟨0, fun j => rfl⟩, by simp; omega, by simp, .inr (.inr ⟨by simp; omega, bits1, rfl, rfl⟩)⟩
        · split at h
          · cases h
            obtain ⟨items, tail, rfl, ⟨m, hm⟩, hc, hv, hr⟩ := ih ‹_› (by omega) (by omega)
            have hcount : k + (none :: items).countP Option.isNone = k + 1 + items.countP Option.isNone := by
              simp; omega
            refine ⟨none :: items, tail, rfl, ⟨m + 1, fun j => ?_⟩, by omega, by simpa using hv, ?_⟩
            · rw [subtreesLeft, hm (j + 1)]; congr 1; omega
            · rw [hcount]; exact hr
          · rename_i l bits2 k2 hl
            obtain ⟨rfl, rfl, hkl, hsl⟩ := parseTree_sound hl (by omega)
            split at h
            · cases h
              obtain ⟨items, tail, rfl, ⟨m, hm⟩, hc, hv, hr⟩ := ih ‹_› hkl (by omega)
              have hcount : k + (none :: l.items ++ items).countP Option.isNone =
                  k + 1 + l.internals + items.countP Option.isNone := by
                simp [items_internals]; omega
              refine ⟨none :: l.items ++ items, tail, ?_, ⟨m, fun j => ?_⟩, by omega, fun v hm => ?_, ?_⟩
              · have := itemsBits_items l
                simp only [itemsBits] at this ⊢
                simp [this, itemBits]
              · rw [List.cons_append, subtreesLeft, subtreesLeft_items, hm j]
              · simp only [List.cons_append, List.mem_cons, reduceCtorEq, false_or, List.mem_append] at hm
                rcases hm with hm | hm
                exacts [hsl v ((items_symbols l v).mp hm), hv v hm]
              · rw [hcount]; exact hr
            · cases h
      · have htag1 : tag = 1 := by omega
        subst htag1
        have e1 : fieldBits 1 1 = [true] := rfl
        split at h
        · rename_i h2
          cases h
          refine ⟨[], _, rfl, ⟨0, fun j => rfl⟩, by simpa using hk, by simp, .inl ⟨rfl, .inr ⟨bits1, rfl, ?_⟩⟩⟩
          unfold inRead at h2
          split at h2
          · assumption
          · cases h2
        · rename_i v bits2 h2
          obtain ⟨rfl, hv9⟩ := inRead_some h2
          split at h
          · cases h
            have hv : (BitVec.ofNat 9 v).toNat = v := by rw [BitVec.toNat_ofNat]; exact Nat.mod_eq_of_lt hv9
            exact ⟨[], _, rfl, ⟨0, fun j => rfl⟩, by simpa using hk, by simp,
              .inr (.inl ⟨BitVec.ofNat 9 v, bits2, by omega, by rw [itemBits_leaf, hv, List.append_assoc]; rfl, rfl⟩)⟩
          · cases h

/-! ### The accesses of COUNT, RD_TREE, ENCODE, DEC_SYM and DECODE -/

/-- COUNT's reads leave the position where COUNT does (R130 to R132). -/
theorem posAfter_count (s : State) :
    posAfter s.inEnd s.inPos (countAccesses s) =
      match (countLoop (maxCount s.params) (streamBytes s.inRest) freqStart 1).overflow with
      | none => s.inEnd
      | some rest => s.inPos + 8 * ((streamBytes s.inRest).length - rest.length) := by
  have hl := inRest_length s
  have hb := streamBytes_length s.inRest
  simp only [countAccesses]
  cases (countLoop (maxCount s.params) (streamBytes s.inRest) freqStart 1).overflow with
  | none => exact posAfter_reads_eos (by omega) (by rw [hb, hl]; omega)
  | some rest =>
    simp only
    rw [posAfter_reads (by omega) (by omega)]
    omega

/-- The bits before what remains are those that have been consumed. -/
theorem take_front (front rest : List Bool) : (front ++ rest).take ((front ++ rest).length - rest.length) = front := by
  rw [List.length_append, Nat.add_sub_cancel, List.take_left]

/-- RD_TREE's reads leave the position where RD_TREE does (R164, R169). -/
theorem posAfter_rdTree (s : State) :
    posAfter s.inEnd s.inPos (rdTreeAccesses s) =
      match parseTree 257 0 s.inRest with
      | .malformed none => s.inEnd
      | .malformed (some rest) => s.inPos + (s.inRest.length - rest.length)
      | .tree _ rest _ => s.inPos + (s.inRest.length - rest.length) := by
  have hl := inRest_length s
  unfold rdTreeAccesses
  cases h : parseTree 257 0 s.inRest with
  | tree t rest k =>
    obtain ⟨hb, -⟩ := parseTree_sound h (by omega)
    have hw : WholeFields t.encoding := itemsBits_items t ▸ wholeFields_items _
    rw [hb] at hl ⊢
    simp only [take_front]
    simp only [List.length_append] at hl
    rw [hw.pos (by omega), List.length_append, Nat.add_sub_cancel]
  | malformed r =>
    cases r with
    | none => exact posAfter_treeReads_eos (p0 := s.inPos) hl (.inr ⟨rfl, rfl⟩)
    | some rest =>
      obtain ⟨items, tail, hb, -, -, -, hr⟩ := parseTree_malformed h (by omega) (by omega)
      have hf : ∃ last : TreeItem, s.inRest = itemsBits items ++ itemBits last ++ rest := by
        rcases hr with ⟨hr, -⟩ | ⟨v, rest', -, rfl, hr⟩ | ⟨-, rest', rfl, hr⟩ <;> cases hr
        · exact ⟨some v, by rw [hb, List.append_assoc]⟩
        · exact ⟨none, by rw [hb, List.append_assoc]; rfl⟩
      obtain ⟨last, hf⟩ := hf
      have hw := (wholeFields_items items).append (wholeFields_item last)
      rw [hf] at hl ⊢
      simp only [take_front]
      simp only [List.length_append] at hl hw
      rw [hw.pos (by simp only [List.length_append]; omega)]
      simp only [List.length_append, Nat.add_sub_cancel]

theorem written_rdTree (s : State) : (rdTreeAccesses s).flatMap PortAccess.written = [] := by
  unfold rdTreeAccesses
  split <;> exact written_treeReads _ _ _

/-- ENCODE's writes are the codes its loop finds, and then the terminator (R186). -/
theorem written_encode (code : Nat → CodeEntry) (bytes : List Byte) :
    (encodeAccesses code bytes).flatMap PortAccess.written =
      (encodeLoop code bytes).bits ++
        if (encodeLoop code bytes).noCode = none ∧ (code 256).valid = true then (code 256).path else [] := by
  induction bytes with
  | nil =>
    simp only [encodeAccesses, encodeLoop, List.flatMap_cons, PortAccess.written, true_and, List.nil_append]
    split
    · exact written_bitWrites _
    · rfl
  | cons b bytes ih =>
    by_cases hv : (code b.toNat).valid = true
    · simp [encodeAccesses, encodeLoop, PortAccess.written, hv, written_bitWrites, ih]
    · simp [encodeAccesses, encodeLoop, PortAccess.written, hv]

/-- ENCODE's reads leave the position where ENCODE does (R186). -/
theorem posAfter_encode (code : Nat → CodeEntry) {T p : Nat} {bytes : List Byte} (h : 8 * bytes.length ≤ T - p)
    (he : T < p + 8 * bytes.length + 8) :
    posAfter T p (encodeAccesses code bytes) =
      match (encodeLoop code bytes).noCode with
      | none => T
      | some rest => p + 8 * (bytes.length - rest.length) := by
  induction bytes generalizing p with
  | nil =>
    simp only [List.length_nil] at he
    simp only [encodeAccesses, encodeLoop, posAfter_cons, PortAccess.pos, if_pos (show T < p + 8 by omega)]
    split
    · exact posAfter_bitWrites _ _ _
    · rfl
  | cons b bytes ih =>
    simp only [List.length_cons] at h he
    by_cases hv : (code b.toNat).valid = true
    · simp only [encodeAccesses, encodeLoop, hv, if_true, posAfter_cons, PortAccess.pos, posAfter_append,
        posAfter_bitWrites, if_neg (show ¬ T < p + 8 by omega)]
      rw [ih (by omega) (by omega)]
      cases hn : (encodeLoop code bytes).noCode with
      | none => rfl
      | some rest =>
        have : rest.length ≤ bytes.length := by
          rcases encodeLoop_cases code bytes with hc | ⟨before, c, rest', rfl, h1, h2⟩
          · rw [encodeLoop_valid _ _ hc] at hn; cases hn
          · rw [encodeLoop_noCode _ _ _ _ h1 h2] at hn; cases hn; simp; omega
        simp only [List.length_cons]; omega
    · simp only [encodeAccesses, encodeLoop, hv, Bool.false_eq_true, if_false, posAfter_cons, posAfter_nil, PortAccess.pos,
        if_neg (show ¬ T < p + 8 by omega), List.length_cons, Nat.add_sub_cancel_left]

/-- decodeOne()'s reads leave the position behind the symbol's bits, or at the end (R201). -/
theorem posAfter_walk {mem : Vector Node 513} {root T p : Nat} {bits : List Bool} (h : bits.length = T - p) :
    posAfter T p (walkReads bits (decodeOne mem root bits)) =
      match decodeOne mem root bits with
      | .symbol _ rest => p + (bits.length - rest.length)
      | .eos => T
      | .broken => p := by
  cases hd : decodeOne mem root bits with
  | symbol v rest => simp only [walkReads]; rw [posAfter_reads (by omega) (by omega)]; omega
  | eos => exact posAfter_reads_eos (by omega) (by omega)
  | broken => rfl

theorem written_walk (bits : List Bool) (r : WalkResult) : (walkReads bits r).flatMap PortAccess.written = [] := by
  cases r with
  | symbol v rest => exact written_reads _ _
  | eos => exact written_reads _ _
  | broken => rfl

theorem posAfter_symbolWrites (T p : Nat) (v : Symbol) : posAfter T p (symbolWrites v) = p := by
  unfold symbolWrites; split <;> rfl

theorem written_symbolWrites (v : Symbol) :
    (symbolWrites v).flatMap PortAccess.written = if v = eofSym then [] else fieldBits 8 v.toNat := by
  unfold symbolWrites; split <;> simp [PortAccess.written]

/-- DECODE's writes are those of its loop (R206). -/
theorem written_decode (mem : Vector Node 513) (root fuel : Nat) (bits : List Bool) (last : Option Symbol) :
    (decodeAccesses mem root fuel bits).flatMap PortAccess.written = (decodeLoop mem root fuel bits last).bits := by
  induction fuel generalizing bits last with
  | zero => rfl
  | succ fuel ih =>
    rw [decodeAccesses, decodeLoop]
    cases decodeOne mem root bits with
    | broken => rfl
    | eos => exact written_walk _ _
    | symbol v rest =>
      simp only [List.flatMap_append, written_walk, written_symbolWrites, List.nil_append]
      by_cases hv : v = eofSym
      · simp [hv]
      · simp [hv, ih rest (some v)]

/-- DECODE's reads leave the position where DECODE does (R206). -/
theorem posAfter_decode {mem : Vector Node 513} {root fuel T p : Nat} {bits : List Bool} {last : Option Symbol}
    (h : bits.length = T - p) :
    match (decodeLoop mem root fuel bits last).stop with
    | .sentinel rest => posAfter T p (decodeAccesses mem root fuel bits) = p + (bits.length - rest.length)
    | .eos => posAfter T p (decodeAccesses mem root fuel bits) = T
    | .broken => True := by
  induction fuel generalizing bits p last with
  | zero => trivial
  | succ fuel ih =>
    rw [decodeLoop, decodeAccesses]
    have hw := posAfter_walk (mem := mem) (root := root) h
    cases hd : decodeOne mem root bits with
    | broken => trivial
    | eos => rw [hd] at hw; exact hw
    | symbol v rest =>
      rw [hd] at hw
      obtain ⟨front, hfront⟩ := decodeOne_suffix hd
      have hlen : bits.length = front.length + rest.length := by rw [hfront, List.length_append]
      by_cases hv : v = eofSym
      · simp only [hv, if_true, posAfter_append, posAfter_nil, posAfter_symbolWrites]
        rw [hv] at hw; exact hw
      · simp only [hv, if_false, posAfter_append, posAfter_symbolWrites]
        simp only at hw
        rw [hw]
        have := ih (p := p + (bits.length - rest.length)) (bits := rest) (last := some v) (by omega)
        cases hs : (decodeLoop mem root fuel rest (some v)).stop with
        | broken => trivial
        | eos => rw [hs] at this; exact this
        | sentinel rest2 =>
          rw [hs] at this
          simp only at this ⊢
          obtain ⟨front2, hfront2⟩ := decodeLoop_suffix hs
          have : rest.length = front2.length + rest2.length := by rw [hfront2, List.length_append]
          omega

/-! ### Which accesses each command makes (R70) -/

theorem accessesIf_mem {ok : Bool} {list : List PortAccess} {a : PortAccess} (h : a ∈ s.accessesIf ok list) :
    s.err = false ∧ ok = true ∧ a ∈ list := by
  unfold State.accessesIf at h
  split at h
  · simp_all
  · cases h

theorem count_mem {a : PortAccess} (h : a ∈ countAccesses s) : a = .read 8 := by
  simp only [countAccesses] at h
  split at h <;> exact List.eq_of_mem_replicate h

theorem bitWrites_mem {bits : List Bool} {a : PortAccess} (h : a ∈ bitWrites bits) : ∃ v, a = .write 1 v := by
  obtain ⟨b, -, rfl⟩ := List.mem_map.mp h
  exact ⟨_, rfl⟩

theorem writes_mem {tree : HTree} {a : PortAccess} (h : a ∈ tree.writes) : ∃ n v, a = .write n v ∧ (n = 1 ∨ n = 9) := by
  induction tree with
  | leaf sym =>
    simp only [HTree.writes, List.mem_cons, List.not_mem_nil, or_false] at h
    rcases h with rfl | rfl
    exacts [⟨1, _, rfl, .inl rfl⟩, ⟨9, _, rfl, .inr rfl⟩]
  | node l r ihl ihr =>
    simp only [HTree.writes, List.cons_append, List.mem_cons, List.mem_append] at h
    rcases h with rfl | h | h
    exacts [⟨1, _, rfl, .inl rfl⟩, ihl h, ihr h]

theorem rdTree_mem {a : PortAccess} (h : a ∈ rdTreeAccesses s) : a = .read 1 ∨ a = .read 9 := by
  unfold rdTreeAccesses at h
  split at h <;> exact treeReads_mem h

theorem encSym_mem {sym : Nat} {a : PortAccess} (h : a ∈ encSymAccesses s sym) : ∃ v, a = .write 1 v := by
  unfold encSymAccesses at h
  split at h
  · exact bitWrites_mem h
  · cases h

theorem encode_mem {code : Nat → CodeEntry} {bytes : List Byte} {a : PortAccess} (h : a ∈ encodeAccesses code bytes) :
    a = .read 8 ∨ ∃ v, a = .write 1 v := by
  induction bytes with
  | nil =>
    rw [encodeAccesses, List.mem_cons] at h
    rcases h with rfl | h
    · exact .inl rfl
    · split at h
      · exact .inr (bitWrites_mem h)
      · cases h
  | cons b bytes ih =>
    rw [encodeAccesses, List.mem_cons] at h
    rcases h with rfl | h
    · exact .inl rfl
    · split at h
      · rcases List.mem_append.mp h with h | h
        exacts [.inr (bitWrites_mem h), ih h]
      · cases h

theorem walk_mem {bits : List Bool} {r : WalkResult} {a : PortAccess} (h : a ∈ walkReads bits r) : a = .read 1 := by
  cases r with
  | symbol v rest => exact List.eq_of_mem_replicate h
  | eos => exact List.eq_of_mem_replicate h
  | broken => cases h

theorem symbolWrites_mem {v : Symbol} {a : PortAccess} (h : a ∈ symbolWrites v) : ∃ v, a = .write 8 v := by
  unfold symbolWrites at h
  split at h
  · cases h
  · exact ⟨_, List.mem_singleton.mp h⟩

theorem decSym_mem {a : PortAccess} (h : a ∈ decSymAccesses s) : a = .read 1 ∨ ∃ v, a = .write 8 v := by
  rcases List.mem_append.mp h with h | h
  · exact .inl (walk_mem h)
  · split at h
    · exact .inr (symbolWrites_mem h)
    · cases h
    · cases h

theorem decode_mem {mem : Vector Node 513} {root fuel : Nat} {bits : List Bool} {a : PortAccess}
    (h : a ∈ decodeAccesses mem root fuel bits) : a = .read 1 ∨ ∃ v, a = .write 8 v := by
  induction fuel generalizing bits with
  | zero => cases h
  | succ fuel ih =>
    rw [decodeAccesses] at h
    split at h
    · cases h
    · exact .inl (walk_mem h)
    · rcases List.mem_append.mp h with h | h
      · rcases List.mem_append.mp h with h | h
        exacts [.inl (walk_mem h), .inr (symbolWrites_mem h)]
      · split at h
        · cases h
        · exact ih h

end Sys2Proof.Machine
end

