-- ==== Sys2Proof/Laws/Registers.lean ====
section
/-!
SUPPORT. Laws of the register map: which register or window each offset shows (spec/20_memory.md R80, R81).
-/

namespace Sys2Proof.Machine

variable (s : State)

/-- The number a word stands for when it is put together from two fields. -/
theorem append_toNat {n m : Nat} (a : BitVec n) (b : BitVec m) : (a ++ b).toNat = a.toNat * 2 ^ m + b.toNat := by
  rw [BitVec.toNat_append, Nat.shiftLeft_eq, Nat.mul_comm, ← Nat.two_pow_add_eq_or_of_lt b.isLt]

/-- No register or window shows what the host has still to do or has been given. -/
theorem readWord_hostSide (rest : List HostAction) (log : List Observation) (off : Nat) :
    ({ s with host := rest, log := log } : State).readWord off = s.readWord off := rfl

theorem readWord_status : s.readWord 0x4 = s.status := rfl
theorem readWord_error : s.readWord 0x8 = s.errorWord := rfl
theorem readWord_result : s.readWord 0xC = s.resultWord := rfl
theorem readWord_total : s.readWord 0x10 = s.totalWord := rfl
theorem readWord_tree : s.readWord 0x14 = s.treeWord := rfl
theorem readWord_magic : s.readWord 0x18 = s.params.magic := rfl
theorem readWord_param : s.readWord 0x1C = s.paramWord := rfl

/-- Beyond the eight registers an offset shows a window or nothing. -/
theorem readWord_beyond {off : Nat} (h : 0x1C < off) :
    s.readWord off =
      if 0x1000 ≤ off ∧ off ≤ 0x1400 then s.freqWindow ((off - 0x1000) / 4)
      else if 0x2000 ≤ off ∧ off ≤ 0x2400 then s.codeWindow off ((off - 0x2000) / 4)
      else if 0x3000 ≤ off ∧ off ≤ 0x501C then
        s.codeBitsWindow off ((off - 0x3000) / 32) ((off - 0x3000) / 4 % 8)
      else if 0x6000 ≤ off ∧ off ≤ 0x7004 then
        s.nodeWindow off ((off - 0x6000) / 8) ((off - 0x6000) / 4 % 2 == 1)
      else 0 := by
  unfold State.readWord
  rw [if_neg (by omega), if_neg (by omega), if_neg (by omega), if_neg (by omega), if_neg (by omega), if_neg (by omega),
    if_neg (by omega)]

/-- The FREQ window (R41). -/
theorem readWord_freq {sym : Nat} (h : sym < 257) : s.readWord (0x1000 + 4 * sym) = s.freqWindow sym := by
  rw [readWord_beyond s (by omega), if_pos (by omega)]; congr 1; omega

/-- The CODE window (R46). -/
theorem readWord_code {sym : Nat} (h : sym < 257) :
    s.readWord (0x2000 + 4 * sym) = s.codeWindow (0x2000 + 4 * sym) sym := by
  rw [readWord_beyond s (by omega), if_neg (by omega), if_pos (by omega)]; congr 1; omega

/-- The CODEBITS window (R46). -/
theorem readWord_codeBits {sym k : Nat} (h : sym < 257) (hk : k < 8) :
    s.readWord (0x3000 + 32 * sym + 4 * k) = s.codeBitsWindow (0x3000 + 32 * sym + 4 * k) sym k := by
  rw [readWord_beyond s (by omega), if_neg (by omega), if_neg (by omega), if_pos (by omega)]
  congr 1 <;> omega

/-- The NODE window, first word (R43). -/
theorem readWord_nodeWeight {i : Nat} (h : i < 513) :
    s.readWord (0x6000 + 8 * i) = s.nodeWindow (0x6000 + 8 * i) i false := by
  rw [readWord_beyond s (by omega), if_neg (by omega), if_neg (by omega), if_neg (by omega), if_pos (by omega)]
  congr 1
  · omega
  · simp only [beq_eq_false_iff_ne]; omega

/-- The NODE window, second word (R43). -/
theorem readWord_nodeLinks {i : Nat} (h : i < 513) :
    s.readWord (0x6004 + 8 * i) = s.nodeWindow (0x6004 + 8 * i) i true := by
  rw [readWord_beyond s (by omega), if_neg (by omega), if_neg (by omega), if_neg (by omega), if_pos (by omega)]
  congr 1
  · omega
  · simp only [beq_iff_eq]; omega

end Sys2Proof.Machine
end

