-- ==== Sys2Proof/Laws/Step.lean ====
section
/-!
SUPPORT. Laws of the step: whose turn it is, what an access to the block does, what the reset input does (spec/00_scope.md
R12, spec/20_memory.md R82, spec/60_exceptions.md R230, spec/70_reset_and_hazards.md R260).
-/

namespace Sys2Proof.Machine

variable {s t : State}

/-- The core has the turn while a command runs and the host waits or has nothing left to do (R12, R111). -/
theorem coreTurn_some {w : Word} (hc : s.cmd = some w) (hh : s.host = [] ∨ ∃ rest, s.host = .wait :: rest) :
    s.coreTurn = some w := by
  rcases hh with h | ⟨rest, h⟩ <;> simp [State.coreTurn, hc, h]

/-- The host has the turn before every action but a wait on a running command. -/
theorem coreTurn_none {a : HostAction} {rest : List HostAction} (hh : s.host = a :: rest)
    (ha : a ≠ .wait ∨ s.cmd = none) : s.coreTurn = none := by
  unfold State.coreTurn
  rw [hh]
  cases a <;> cases h : s.cmd <;> simp [h] at ha ⊢

theorem step_ofCore {w : Word} (h : s.coreTurn = some w) : step s = runCommand w s := by simp [step, h]

theorem step_ofHost {a : HostAction} {rest : List HostAction} (hh : s.host = a :: rest)
    (ha : a ≠ .wait ∨ s.cmd = none) : step s = hostAct a { s with host := rest } := by
  simp [step, coreTurn_none hh ha, hostTurn, hh]

@[simp] theorem mapNext_next (f : State → State) (s : State) : mapNext f (.next s) = .next (f s) := rfl
@[simp] theorem mapNext_fault (f : State → State) (r : Fault) : mapNext f (.fault r) = .fault r := rfl
@[simp] theorem mapNext_refused (f : State → State) (r : Refusal) : mapNext f (.refused r) = .refused r := rfl

/-- What an access to the block can do (R82). -/
theorem busAccess_cases (s : State) (addr width : Nat) (run : Nat → Outcome) :
    ((addr < s.params.base ∨ s.params.base + 0x8000 ≤ addr) ∧ busAccess s addr width run = .refused (.outsideBlock addr)) ∨
      (s.params.base ≤ addr ∧ addr < s.params.base + 0x8000 ∧
        ((width = 4 ∧ (addr - s.params.base) % 4 = 0 ∧ busAccess s addr width run = run (addr - s.params.base)) ∨
          ((width ≠ 4 ∨ (addr - s.params.base) % 4 ≠ 0) ∧
            busAccess s addr width run = .refused (.undefinedAccess addr width)))) := by
  by_cases h : addr < s.params.base ∨ s.params.base + 0x8000 ≤ addr
  · exact .inl ⟨h, if_pos h⟩
  · refine .inr ⟨by omega, by omega, ?_⟩
    by_cases h' : width = 4 ∧ (addr - s.params.base) % 4 = 0
    · exact .inl ⟨h'.1, h'.2, by rw [busAccess, if_neg h, if_pos h']⟩
    · exact .inr ⟨by omega, by rw [busAccess, if_neg h, if_neg h']⟩

/-- A defined access to an offset of the block (R82). -/
theorem busAccess_offset (s : State) {off : Nat} (ho : off < 0x8000) (ha : off % 4 = 0) (run : Nat → Outcome) :
    busAccess s (s.params.base + off) 4 run = run off := by
  have h : ¬ (s.params.base + off < s.params.base ∨ s.params.base + 0x8000 ≤ s.params.base + off) := by omega
  rw [busAccess, if_neg h, Nat.add_sub_cancel_left, if_pos ⟨rfl, ha⟩]

/-- The reset input with no command running (R260). -/
theorem assertReset_idle (hc : s.cmd = none) : assertReset s = .next s.hardReset := by simp [assertReset, hc]

/-- The reset input while a command runs (R260). -/
theorem assertReset_running {w : Word} (hc : s.cmd = some w) : assertReset s = .next (s.abandon w).hardReset := by
  simp [assertReset, hc]

/-- Abandoning a command changes the ports alone (R260). -/
theorem abandon_frame (s : State) (w : Word) :
    s.abandon w = { s with
      inPos := (s.abandon w).inPos, outBits := (s.abandon w).outBits, outClosed := (s.abandon w).outClosed } :=
  accesses_frame s _

/-- The registers after the reset input (R260). -/
theorem hardReset_words (s : State) :
    s.hardReset.status = BitVec.ofNat 32 (s.outClosed.toNat * 64) ∧ s.hardReset.errorWord = 0 ∧
      s.hardReset.resultWord = 0 ∧ s.hardReset.totalWord = 0 ∧ s.hardReset.treeWord = 0 := by
  refine ⟨?_, ?_, ?_, ?_, ?_⟩
  · simp only [State.status, State.busy, State.hardReset, State.clearRegisters_ovr, State.clearRegisters_eofSeen,
      State.clearRegisters_codesValid, State.clearRegisters_treeValid, State.clearRegisters_freqValid,
      State.clearRegisters_err, State.clearRegisters_outClosed, Option.isSome_none]
    cases s.outClosed <;> decide
  · simp [State.errorWord, State.hardReset]
  · simp [State.resultWord, State.hardReset]
  · simp [State.totalWord, Params.cut, State.hardReset]
  · simp [State.treeWord, State.hardReset]

end Sys2Proof.Machine
end

