-- ==== Sys2Proof/Laws/Invariant.lean ====
section
/-!
SUPPORT. What the commands do in the states that meet the invariant (spec/10_state.md R22, spec/41_tree_builder.md R140 to
R146): the slots BUILD and RD_TREE fill, the tree they hold, and the updates that keep each clause of Inv.
-/

namespace Sys2Proof.Machine

/-! ### The slots BUILD fills -/

theorem built_node (s : State) (m : Nat) : s.built.node[m]? = if m < (buildNodes s.params s.freq).length then (buildNodes s.params s.freq)[m]? else s.node[m]? := by
  have hl := symsOf_length s.freq
  have hb := buildNodes_length s.params s.freq
  show (fillNodes _ _)[m]? = _
  by_cases hm : m < 513
  · rw [Vector.getElem?_eq_getElem hm, fillNodes_getElem]
    split
    · rename_i h; rw [List.getElem?_eq_getElem h]; rfl
    · rename_i h; rw [List.getElem?_eq_none (by omega), Vector.getElem?_eq_getElem hm]; rfl
  · rw [if_neg (by omega), Vector.getElem?_eq_none (by omega), Vector.getElem?_eq_none (by omega)]

theorem built_count (s : State) : s.built.nodeCount.toNat = (buildNodes s.params s.freq).length := by
  have hl := symsOf_length s.freq
  have hb := buildNodes_length s.params s.freq
  show (BitVec.ofNat 10 _).toNat = _
  rw [BitVec.toNat_ofNat]; omega

theorem built_root (s : State) (h : s.freq[256] = 1#32) : s.built.root.toNat = (buildNodes s.params s.freq).length - 1 := by
  have hl := symsOf_length s.freq
  have hp := symsOf_pos s.freq h
  have hb := buildNodes_length s.params s.freq
  show (BitVec.ofNat 10 _ - 1).toNat = _
  rw [BitVec.toNat_sub, BitVec.toNat_ofNat, show (1 : BitVec 10).toNat = 1 from rfl]; omega

/-- The slots BUILD filled hold one tree of a legal shape, whose leaves carry the symbols with a count (R22, R141, R144). -/
theorem built_tree (s : State) (h : s.freq[256] = 1#32) :
    ∃ t, s.built.tree = some t ∧ TreeShape t ∧ s.built.nodeCount.toNat = t.size ∧
      List.Perm t.symbols ((symsOf s.freq).map fun sym => BitVec.ofNat 9 sym) := by
  obtain ⟨t, ht, hsize, hperm⟩ := buildNodes_holds s.params s.freq (by rw [h]; decide)
  rw [leaves_eq, List.map_map] at hperm
  have hperm : List.Perm t.symbols ((symsOf s.freq).map fun sym => BitVec.ofNat 9 sym) := hperm
  have hl := symsOf_length s.freq
  have hcount : t.internals + 1 = (symsOf s.freq).length := by
    rw [← t.symbols_length, hperm.length_eq, List.length_map]
  have hsym : ∀ v, v ∈ t.symbols ↔ ∃ sym, sym ∈ symsOf s.freq ∧ BitVec.ofNat 9 sym = v := fun v => by
    rw [hperm.mem_iff, List.mem_map]
  refine ⟨t, ?_, ⟨by omega, fun v hv => ?_, ?_⟩, by rw [built_count, hsize], hperm⟩
  · rw [State.tree, built_root s h]
    refine HoldsTree.readTree (ht.mono fun i n hi => ?_) (by have := t.depth_le; omega)
    exact fillNodes_getElem? _ (by have := t.size_eq; omega) hi
  · obtain ⟨sym, hs, rfl⟩ := (hsym v).mp hv
    have := List.mem_range.mp (List.mem_filter.mp hs).1
    rw [BitVec.toNat_ofNat]
    omega
  · cases t with
    | node l r => rfl
    | leaf sym =>
      have : eofSym ∈ (HTree.leaf sym).symbols := (hsym _).mpr ⟨256, by simp [symsOf, h], rfl⟩
      simp only [HTree.symbols, List.mem_singleton] at this
      simp [HTree.badRoot, ← this]

/-- The symbols of a tree BUILD makes are different ones (R141). -/
theorem symsOf_nodup (freq : Vector Word 257) : ((symsOf freq).map fun sym => BitVec.ofNat 9 sym).Nodup := by
  refine (List.nodup_range.filter _).map_on fun a ha b hb hab => ?_
  have ha := List.mem_range.mp (List.mem_filter.mp ha).1
  have hb := List.mem_range.mp (List.mem_filter.mp hb).1
  have := congrArg BitVec.toNat hab
  simp only [BitVec.toNat_ofNat] at this
  omega

/-! ### Updates that keep the invariant -/

variable {s : State}

theorem Inv.raise (h : Inv s) (e : HccError) (op : BitVec 4) : Inv (s.raise e op) := by
  have hn := number_range e
  unfold State.raise
  split
  · exact h
  · exact { h with noError := nofun, someError := fun _ => hn }

theorem Inv.inAt (h : Inv s) {p : Nat} (hp : p ≤ s.inEnd) : Inv { s with inPos := p } := { h with inPos := hp }

theorem Inv.inToEnd (h : Inv s) : Inv s.inToEnd := h.inAt (Nat.le_refl _)

theorem Inv.inRewind (h : Inv s) : Inv s.inRewind := h.inAt (Nat.zero_le _)

theorem Inv.inAdvance (h : Inv s) (rest : List Bool) : Inv (s.inAdvance rest) :=
  h.inAt (by have := inRest_length s; have := h.inPos; omega)

theorem Inv.inAdvanceBytes (h : Inv s) {k : Nat} (hk : k ≤ (streamBytes s.inRest).length) :
    Inv (s.inAdvanceBytes k) :=
  h.inAt (by
    have := inRest_length s
    have := h.inPos
    rw [streamBytes_length] at hk
    omega)

theorem Inv.outAppend (h : Inv s) (ho : s.outClosed = false) (bits : List Bool) : Inv (s.outAppend bits) :=
  { h with closed := fun hc => by rw [State.outAppend_outClosed, ho] at hc; cases hc }

theorem Inv.outClose (h : Inv s) : Inv s.outClose := by
  have hw := outClose_whole s h.closed
  unfold State.outClose at hw ⊢
  split
  · exact h
  · rw [if_neg ‹_›] at hw; exact { h with closed := fun _ => hw }

theorem Inv.clearError (h : Inv s) : Inv s.clearError :=
  { h with noError := fun _ => ⟨rfl, rfl⟩, someError := nofun }

theorem Inv.clearRegisters (h : Inv s) : Inv s.clearRegisters :=
  { h.clearError with
    result := by simp
    total := by simp
    freq := nofun
    tree := nofun
    codes := nofun }

theorem Inv.result_of (h : Inv s) {v : Symbol} (hv : v.toNat ≤ 256) (valid eof : Bool) :
    Inv { s with resultSym := v, resultValid := valid, eofSeen := eof } := { h with result := hv }

theorem Inv.dropResult (h : Inv s) : Inv s.dropResult := { h with }

theorem Inv.dropTree (h : Inv s) : Inv s.dropTree := { h with tree := nofun, codes := nofun }

/-- A value cut to W_FREQ bits fits in them. -/
theorem cut_lt (p : Params) (v : Nat) : (p.cut v).toNat < 2 ^ p.wFreq.val := by
  rw [Params.cut, BitVec.toNat_ofNat]
  exact lt_of_le_of_lt (Nat.mod_le _ _) (Nat.mod_lt _ (by positivity))

/-- Cutting a value that fits changes nothing. -/
theorem cut_of_lt (p : Params) {w : Word} (h : w.toNat < 2 ^ p.wFreq.val) : p.cut w.toNat = w := by
  rw [Params.cut, Nat.mod_eq_of_lt h]; simp

theorem freeNodeTable_weight (p : Params) (d : Nat) {i : Nat} (h : i < 513) :
    (freeNodeTable p d)[i].weight.toNat < 2 ^ p.wFreq.val := by
  simp only [freeNodeTable, Vector.getElem_ofFn, freeNodeSlot]
  exact cut_lt _ _

theorem freeFreqTable_count (p : Params) (d : Nat) {i : Nat} (h : i < 257) :
    (freeFreqTable p d)[i].toNat < 2 ^ p.wFreq.val := by
  simp only [freeFreqTable, Vector.getElem_ofFn]
  exact cut_lt _ _

theorem Inv.looseTree (h : Inv s) (ht : s.treeValid = false) : Inv s.looseTree :=
  { h with
    weights := fun _ hi => freeNodeTable_weight _ _ hi
    tree := fun hv => by rw [State.looseTree_treeValid, ht] at hv; cases hv
    codes := fun hv => by have := (h.codes hv).1; rw [ht] at this; cases this }

theorem Inv.inAfter (h : Inv s) (rest : Option (List Bool)) : Inv (s.inAfter rest) := by
  cases rest
  · exact h.inToEnd
  · exact h.inAdvance _

/-- A new tree of a legal shape in slots whose weights fit (R22, R37). -/
theorem Inv.setTree (h : Inv s) {nodes : List Node} {root count : BitVec 10} {t : HTree}
    (hw : ∀ n ∈ nodes, n.weight.toNat < 2 ^ s.params.wFreq.val)
    (ht : readTree (fillNodes s.node nodes) 513 root.toNat = some t) (hs : TreeShape t) (hc : count.toNat = t.size) :
    Inv (s.dropTree.setTree (fillNodes s.node nodes) root count) :=
  { h with
    weights := fun i hi => by
      simp only [State.setTree_node, fillNodes_getElem _ _ hi]
      cases hn : nodes[i]? with
      | none => exact h.weights i hi
      | some n => exact hw n (List.mem_of_getElem? hn)
    tree := fun _ => ⟨t, ht, hs, hc⟩
    codes := nofun }

theorem Inv.gencodes (h : Inv s) (hv : s.treeValid = true) {t : HTree} (ht : s.tree = some t) :
    Inv { s with code := codesOf t, codesValid := true } :=
  { h with codes := fun _ => ⟨hv, fun t' ht' => by
      have : s.tree = some t' := ht'
      rw [ht] at this; cases this; rfl⟩ }

theorem Inv.commandEnd (h : Inv s) : Inv s.commandEnd := { h with }

theorem layout_weight (t : HTree) (i : Nat) : ∀ n ∈ t.layout i, n.weight = 0 := by
  induction t generalizing i with
  | leaf => simp [HTree.layout]
  | node l r ihl ihr =>
    intro n hn
    simp only [HTree.layout, List.cons_append, List.mem_cons, List.mem_append] at hn
    rcases hn with rfl | hn | hn
    exacts [rfl, ihl _ n hn, ihr _ n hn]

/-- A memory with the preorder slots of a tree from slot i on holds them there (R165). -/
theorem preorderSlots_of_layout (node : Vector Node 513) (t : HTree) (i : Nat) (hi : i + t.size ≤ 1024)
    (h : ∀ j n, (t.layout i)[j]? = some n → node[i + j]? = some n) : preorderSlots node t i := by
  induction t generalizing i with
  | leaf v => exact h 0 _ rfl
  | node l r ihl ihr =>
    have hr0 := r.size_pos
    simp only [HTree.size] at hi
    refine ⟨⟨_, h 0 _ rfl, rfl, rfl, rfl, ?_, ?_⟩, ihl (i + 1) (by omega) fun j n hj => ?_,
      ihr (i + 1 + l.size) (by omega) fun j n hj => ?_⟩
    · simp only [BitVec.toNat_ofNat]; omega
    · simp only [BitVec.toNat_ofNat]; omega
    · have hj' : j < (l.layout (i + 1)).length := (List.getElem?_eq_some_iff.mp hj).1
      rw [show i + 1 + j = i + (j + 1) by omega]
      exact h (j + 1) n (by rw [HTree.layout, List.cons_append, List.getElem?_cons_succ, List.getElem?_append_left hj', hj])
    · rw [show i + 1 + l.size + j = i + (l.size + j + 1) by omega]
      refine h (l.size + j + 1) n ?_
      rw [HTree.layout, List.cons_append, List.getElem?_cons_succ, List.getElem?_append_right (by simp), HTree.layout_length,
        Nat.add_sub_cancel_left, hj]

/-- The weights of the slots BUILD fills fit (R145). -/
theorem buildNodes_weight (p : Params) (freq : Vector Word 257) (hs : freqSum freq < 2 ^ p.wFreq.val) :
    ∀ n ∈ buildNodes p freq, n.weight.toNat < 2 ^ p.wFreq.val := by
  intro n hn
  rw [buildNodes_eq, List.mem_append] at hn
  rcases hn with hn | hn
  · obtain ⟨i, hi, -, rfl⟩ := leavesFrom_mem hn
    rw [Vector.length_toList] at hi
    have := le_freqSum freq hi
    simp only [leafNode, Vector.getElem_toList]
    omega
  · obtain ⟨a, b, rfl, -⟩ := mergeLoop_fits p _ (by rw [keySum_buildKeys]; exact hs) n hn
    exact cut_lt _ _

/-! ### Trees of a legal shape -/

theorem TreeShape.depth_le {t : HTree} (h : TreeShape t) : t.depth ≤ 256 := t.depth_le.trans h.internals

/-- No code is longer than 256 (R154). -/
theorem TreeShape.path_length {t : HTree} (h : TreeShape t) {leaf : Symbol × List Bool} (hl : leaf ∈ t.paths []) :
    leaf.2.length ≤ 256 := (t.path_length hl).trans h.depth_le

/-- Every leaf carries a symbol 0..256 (R167). -/
theorem TreeShape.path_symbol {t : HTree} (h : TreeShape t) {leaf : Symbol × List Bool} (hl : leaf ∈ t.paths []) :
    leaf.1.toNat ≤ 256 := by
  refine h.symbols _ ?_
  rw [← t.paths_symbols []]
  exact List.mem_map.mpr ⟨leaf, hl, rfl⟩

/-- A payload of symbols other than the sentinel has at least a bit for each (R208). -/
theorem TreeShape.payload_length {t : HTree} (h : TreeShape t) {leaves : List (Symbol × List Bool)}
    (hl : LeavesOf t leaves) (hne : ∀ leaf ∈ leaves, leaf.1 ≠ eofSym) : leaves.length ≤ (payload leaves).length := by
  induction leaves with
  | nil => simp
  | cons leaf leaves ih =>
    have hp := HTree.path_ne_nil_of_ne h.root (v := leaf.1) (p := leaf.2) (hl leaf (by simp)) (hne leaf (by simp))
    have hpos := List.length_pos_iff.mpr hp
    have := ih (fun l hm => hl l (by simp [hm])) fun l hm => hne l (by simp [hm])
    simp only [payload, List.length_cons, List.flatMap_cons, List.length_append] at this ⊢
    omega

/-- A valid tree is in the node memory (R22). -/
theorem Inv.holds (h : Inv s) (hv : s.treeValid = true) :
    ∃ t, s.tree = some t ∧ TreeShape t ∧ HoldsTree (fun j => s.node[j]?) s.root.toNat t := by
  obtain ⟨t, ht, hs, -⟩ := h.tree hv
  exact ⟨t, ht, hs, holdsTree_of_readTree ht⟩

theorem codeOf_eq {s : State} {sym : Nat} (h : sym < 257) : s.codeOf sym = s.code[sym] := by
  rw [State.codeOf, Vector.getElem?_eq_getElem h]; rfl

/-! ### COUNT and the reset input -/

/-- What COUNT has counted meets the invariant, and FREQ and TOTAL agree (R130, R133). -/
theorem Inv.counted (h : Inv s) :
    Inv s.counted ∧ s.counted.freq[256] = 1#32 ∧ s.counted.freqTotal = s.counted.total.toNat := by
  obtain ⟨c, hc, -, hf, ht, hs, -⟩ := countLoop_start s.params (streamBytes s.inRest)
  have hlt : s.counted.total.toNat < 2 ^ s.params.wFreq.val := by
    have h1 := one_le_maxCount s.params
    have h2 := maxCount_lt s.params
    have hl : c.length ≤ maxCount s.params - 1 := by rw [hc, List.length_take]; omega
    change (countLoop (maxCount s.params) (streamBytes s.inRest) freqStart 1).total.toNat < _
    omega
  refine ⟨{ h with
    total := hlt
    counts := fun sym hsym => lt_of_le_of_lt (le_freqSum s.counted.freq hsym) ?_
    freq := nofun }, hf, hs⟩
  rw [show freqSum s.counted.freq = s.counted.total.toNat from hs]
  exact hlt

/-- The reset state over ports that meet the invariant (R260). -/
theorem hardReset_inv {s : State} (hp : s.inPos ≤ s.inEnd) (hc : s.outClosed = true → s.outBits.length % 8 = 0) :
    Inv s.hardReset where
  inPos := hp
  closed := hc
  noError := fun _ => ⟨rfl, rfl⟩
  someError := nofun
  result := by simp [State.hardReset]
  total := by simp [State.hardReset]
  counts := fun _ h => freeFreqTable_count _ _ h
  weights := fun _ h => freeNodeTable_weight _ _ h
  freq := nofun
  tree := nofun
  codes := nofun

/-! ### Lists of commands -/

theorem execAll_cons {i : Instr} {is : List Instr} {s t : State} (h : exec i s = .next t) :
    execAll (i :: is) s = execAll is t := by rw [execAll, h]

end Sys2Proof.Machine
end

