-- ==== Sys2Proof/Laws/PerInstr.lean ====
section
/-!
SUPPORT. The families of per-instruction statements named in LAWS.json. Fields: the word of a command has its opcode
in OP, its operand in SYM, and 0 in the reserved fields (spec/30_encoding.md R100, R102).
-/

namespace Sys2Proof.Laws.Fields

/-- The fields of a command's word (R100, R102). -/
def Statement (i : Instr) : Prop :=
  wordOp (encode i) = opcode i ∧ wordSym (encode i) = symOperand i ∧ wordRsv0 (encode i) = 0 ∧ wordRsv1 (encode i) = 0

/-- The fields of a word put together as R100 lays them out. -/
theorem fields_of_word (sym : Symbol) (op : BitVec 4) (w : Word)
    (h : w = op.setWidth 32 ||| sym.setWidth 32 <<< 8) :
    wordOp w = op ∧ wordSym w = sym ∧ wordRsv0 w = 0 ∧ wordRsv1 w = 0 := by
  subst h
  refine ⟨?_, ?_, ?_, ?_⟩ <;> apply BitVec.eq_of_getLsbD_eq <;> intro i hi <;>
    simp [wordOp, wordSym, wordRsv0, wordRsv1] <;> grind

theorem nop : Statement .nop := fields_of_word _ _ _ rfl
theorem count : Statement .count := fields_of_word _ _ _ rfl
theorem build : Statement .build := fields_of_word _ _ _ rfl
theorem gencodes : Statement .gencodes := fields_of_word _ _ _ rfl
theorem wrTree : Statement .wrTree := fields_of_word _ _ _ rfl
theorem rdTree : Statement .rdTree := fields_of_word _ _ _ rfl
theorem wrHeader : Statement .wrHeader := fields_of_word _ _ _ rfl
theorem rewind : Statement .rewind := fields_of_word _ _ _ rfl
theorem encSym (sym : Symbol) : Statement (.encSym sym) := fields_of_word _ _ _ rfl
theorem encode : Statement .encode := fields_of_word _ _ _ rfl
theorem close : Statement .close := fields_of_word _ _ _ rfl
theorem rdHeader : Statement .rdHeader := fields_of_word _ _ _ rfl
theorem decSym : Statement .decSym := fields_of_word _ _ _ rfl
theorem decode : Statement .decode := fields_of_word _ _ _ rfl
theorem clrerr : Statement .clrerr := fields_of_word _ _ _ rfl
theorem init : Statement .init := fields_of_word _ _ _ rfl

end Sys2Proof.Laws.Fields
end

