-- ==== Sys2Proof/Tests/Slice0.lean ====
section
/-!
SUPPORT. Tests: the checks of WellFormed, words written out from the encoding (spec/30_encoding.md R100 to R104), one step of
each command with the results spec/40 to 46 and spec/95_test_vectors.md give, and for each statement of Certificates/Slice0
that has premises a state and operands that meet them.
-/

namespace Sys2Proof.Tests

set_option Elab.async false

open Sys2Proof.Machine

/-! ### Small states -/

/-- The parameters of the examples of spec/95 (P_MAGIC from there), P_BASE an example. -/
def params : Params := { magic := 0xFACE8201, wFreq := ⟨32, by decide⟩, base := 0x40000000 }

/-- W_FREQ = 2: at most 2^2 - 1 = 3 counts. -/
def narrow : Params := { params with wFreq := ⟨2, by decide⟩ }

/-- The launch state over an input (R261). -/
def launched (bytes : List Byte) : State := State.launch params bytes

/-- What a command leaves; a stop leaves the state. -/
def after (i : Instr) (s : State) : State :=
  match exec i s with
  | .next t => t
  | .fault _ => s
  | .refused _ => s

/-- The tree of the example of R140: leaf 41, and a node over the leaves 42 and 256. -/
def aabTree : HTree := .node (.leaf 0x41) (.node (.leaf 0x42) (.leaf 256))

/-- The slots of the example of R140. -/
def aabNodes : List Node := [
  { leaf := true, sym := 0x41, weight := 2, left := 0, right := 0 },
  { leaf := true, sym := 0x42, weight := 1, left := 0, right := 0 },
  { leaf := true, sym := 256, weight := 1, left := 0, right := 0 },
  { leaf := false, sym := 0, weight := 2, left := 1, right := 2 },
  { leaf := false, sym := 0, weight := 4, left := 0, right := 3 }]

/-- FREQ of the example of R130, input 41 41 42. -/
def aabFreq : Vector Word 257 := (((Vector.replicate 257 0).set 0x41 2).set 0x42 1).set 256 1

/-- FREQ, the tree and the codes of 41 41 42, all valid, the input at its start. -/
def ready : State :=
  { launched [0x41, 0x41, 0x42] with
    freqValid := true
    treeValid := true
    codesValid := true
    freq := aabFreq
    total := 4
    node := fillNodes (freeNodeTable params 0) aabNodes
    root := 4
    nodeCount := 5
    code := codesOf aabTree }

/-- The same over another input. -/
def readyOver (bytes : List Byte) : State := { ready with inBytes := bytes }

/-! ### WellFormed: each ill-formed term is refused (R103) -/

theorem test_illformed_symbol : ¬ WellFormed (.encSym 257) := by decide
theorem test_illformed_symbol_top : ¬ WellFormed (.encSym 511) := by decide
theorem test_wellformed_sentinel : WellFormed (.encSym 256) := by decide

/-! ### Words, bit by bit: RSV1 [31:17], SYM [16:8], RSV0 [7:4], OP [3:0] (R100, R102) -/

theorem test_word_nop : decode (0b000000000000000#15 ++ 0b000000000#9 ++ 0b0000#4 ++ 0b0000#4) = .ok .nop := by rfl
theorem test_word_count : decode (0b000000000000000#15 ++ 0b000000000#9 ++ 0b0000#4 ++ 0b0001#4) = .ok .count := by rfl
theorem test_word_build : decode (0b000000000000000#15 ++ 0b000000000#9 ++ 0b0000#4 ++ 0b0010#4) = .ok .build := by rfl
theorem test_word_gencodes :
    decode (0b000000000000000#15 ++ 0b000000000#9 ++ 0b0000#4 ++ 0b0011#4) = .ok .gencodes := by rfl
theorem test_word_wrTree : decode (0b000000000000000#15 ++ 0b000000000#9 ++ 0b0000#4 ++ 0b0100#4) = .ok .wrTree := by rfl
theorem test_word_rdTree : decode (0b000000000000000#15 ++ 0b000000000#9 ++ 0b0000#4 ++ 0b0101#4) = .ok .rdTree := by rfl
theorem test_word_wrHeader :
    decode (0b000000000000000#15 ++ 0b000000000#9 ++ 0b0000#4 ++ 0b0110#4) = .ok .wrHeader := by rfl
theorem test_word_rewind : decode (0b000000000000000#15 ++ 0b000000000#9 ++ 0b0000#4 ++ 0b0111#4) = .ok .rewind := by rfl
/-- ENC_SYM 65 (R110). -/
theorem test_word_encSym :
    decode (0b000000000000000#15 ++ 0b001000001#9 ++ 0b0000#4 ++ 0b1000#4) = .ok (.encSym 65) := by rfl
/-- ENC_SYM EOF (R110, R112): the top bit of SYM. -/
theorem test_word_encEof : decode (0b000000000000000#15 ++ 0b100000000#9 ++ 0b0000#4 ++ 0b1000#4) = .ok encEof := by rfl
theorem test_word_encode : decode (0b000000000000000#15 ++ 0b000000000#9 ++ 0b0000#4 ++ 0b1001#4) = .ok .encode := by rfl
theorem test_word_close : decode (0b000000000000000#15 ++ 0b000000000#9 ++ 0b0000#4 ++ 0b1010#4) = .ok .close := by rfl
theorem test_word_rdHeader :
    decode (0b000000000000000#15 ++ 0b000000000#9 ++ 0b0000#4 ++ 0b1011#4) = .ok .rdHeader := by rfl
theorem test_word_decSym : decode (0b000000000000000#15 ++ 0b000000000#9 ++ 0b0000#4 ++ 0b1100#4) = .ok .decSym := by rfl
theorem test_word_decode : decode (0b000000000000000#15 ++ 0b000000000#9 ++ 0b0000#4 ++ 0b1101#4) = .ok .decode := by rfl
theorem test_word_clrerr : decode (0b000000000000000#15 ++ 0b000000000#9 ++ 0b0000#4 ++ 0b1110#4) = .ok .clrerr := by rfl
theorem test_word_init : decode (0b000000000000000#15 ++ 0b000000000#9 ++ 0b0000#4 ++ 0b1111#4) = .ok .init := by rfl
/-- Each condition of R103 refuses a word by its name. -/
theorem test_word_reservedLow :
    decode (0b000000000000000#15 ++ 0b000000000#9 ++ 0b0001#4 ++ 0b0000#4) = .error .reservedLow := by rfl
theorem test_word_reservedHigh :
    decode (0b100000000000000#15 ++ 0b000000000#9 ++ 0b0000#4 ++ 0b0000#4) = .error .reservedHigh := by rfl
theorem test_word_symbolRange :
    decode (0b000000000000000#15 ++ 0b100000001#9 ++ 0b0000#4 ++ 0b1000#4) = .error .symbolRange := by rfl
theorem test_word_symbolUnused :
    decode (0b000000000000000#15 ++ 0b000000001#9 ++ 0b0000#4 ++ 0b0001#4) = .error .symbolUnused := by rfl
/-- The encoder puts SYM at bit 8: ENC_SYM 65 is 0x00004108 (R110). -/
theorem test_encode_encSym : encode (.encSym 65) = 0x00004108#32 := by rfl
theorem test_table_word : decodeTableWord 32 0x4108 = some (.encSym 65) := by rfl

/-! ### One step of each command -/

theorem test_nop : (after .nop ready).status = ready.status := by rfl

/-- R130, example: 41 41 42. -/
theorem test_count : (after .count (launched [0x41, 0x41, 0x42])).freq[0x41] = 2#32 ∧
    (after .count (launched [0x41, 0x41, 0x42])).totalWord = 4#32 := by decide +kernel
/-- R132 with W_FREQ = 2: the third byte does not fit. -/
theorem test_count_overflow : (after .count (State.launch narrow [0x41, 0x42, 0x43])).errorWord = 0x106#32 ∧
    (after .count (State.launch narrow [0x41, 0x42, 0x43])).inPos = 24 := by decide +kernel

/-- R140, example: ROOT 4, NODE_COUNT 5, and the two merges. -/
theorem test_build : (after .build { ready with root := 0, nodeCount := 0 }).treeWord = 0x00050004#32 ∧
    (after .build { ready with node := freeNodeTable params 0 }).node[3]? = aabNodes[3]? ∧
    (after .build { ready with node := freeNodeTable params 0 }).node[4]? = aabNodes[4]? := by decide +kernel
theorem test_build_sequence : (after .build (launched [])).errorWord = 0x205#32 := by decide +kernel

/-- R150, example: codes 0, 10, 11. -/
theorem test_gencodes : let s := after .gencodes { ready with code := Vector.replicate 257 CodeEntry.empty }
    (s.codeOf 0x41).path = [false] ∧ (s.codeOf 0x42).path = [true, false] ∧ (s.codeOf 256).path = [true, true] := by
  decide +kernel

/-- R160, example: 0 1 001000001 0 1 001000010 1 100000000. -/
theorem test_wrTree : streamBytes (after .wrTree ready).outBits = [0x48, 0x29, 0x0B, 0x00] := by decide +kernel

/-- R164, example. -/
theorem test_rdTree : (after .rdTree (launched [0x48, 0x29, 0x0B, 0x00])).treeWord = 0x00050000#32 ∧
    (after .rdTree (launched [0x48, 0x29, 0x0B, 0x00])).node[2] =
      { leaf := false, sym := 0, weight := 0, left := 3, right := 4 } := by decide +kernel
/-- R180, example. -/
theorem test_wrHeader : streamBytes (after .wrHeader (launched [])).outBits = [0xFA, 0xCE, 0x82, 0x01] := by decide +kernel

theorem test_rewind : (after .rewind { ready with inPos := 24 }).inPos = 0 := by rfl

/-- R182, example: ENC_SYM 66 writes 1 0. -/
theorem test_encSym : (after (.encSym 66) ready).outBits = [true, false] := by decide +kernel
theorem test_encSym_noCode : (after (.encSym 67) ready).errorWord = 0x807#32 := by decide +kernel

/-- R186, example: 41 41 42 writes 0 0 10 11. -/
theorem test_encode : (after .encode ready).outBits = [false, false, true, false, true, true] := by decide +kernel
/-- R244: a byte with no code is consumed, the codes before it stay written. -/
theorem test_encode_noCode : (after .encode (readyOver [0x42, 0x43, 0x41])).errorWord = 0x907#32 ∧
    (after .encode (readyOver [0x42, 0x43, 0x41])).inPos = 16 ∧
    (after .encode (readyOver [0x42, 0x43, 0x41])).outBits = [true, false] := by decide +kernel

/-- R190: a partial byte is padded with zeros. -/
theorem test_close : (after .close { ready with outBits := [true, true, true] }).outBits =
    [true, true, true, false, false, false, false, false] := by decide +kernel
theorem test_close_inError : (after .close { ready with err := true }).outClosed = true := by rfl

/-- R200, example. -/
theorem test_rdHeader : (after .rdHeader (launched [0xFA, 0xCE, 0x82, 0x01])).status = 0#32 := by decide +kernel
theorem test_rdHeader_bad : (after .rdHeader (launched [0xFA, 0xCE, 0x82, 0x00])).errorWord = 0xB01#32 := by decide +kernel

/-- R202, example: input bits 1 0. -/
theorem test_decSym : (after .decSym (readyOver [0x80])).resultWord = 0x80000042#32 ∧
    (after .decSym (readyOver [0x80])).inPos = 2 ∧ streamBytes (after .decSym (readyOver [0x80])).outBits = [0x42] := by
  decide +kernel
theorem test_decSym_truncated : (after .decSym (readyOver [])).errorWord = 0xC03#32 := by decide +kernel

/-- R206: the payload 0 0 10 11 of 41 41 42, then two bits of padding. -/
theorem test_decode : (after .decode (readyOver [0x2C])).resultWord = 0x80000100#32 ∧
    streamBytes (after .decode (readyOver [0x2C])).outBits = [0x41, 0x41, 0x42] ∧
    (after .decode (readyOver [0x2C])).inPos = 6 := by decide +kernel
/-- R244: the input ends before the sentinel; 0 0 10 is decoded. -/
theorem test_decode_truncated : (after .decode (readyOver [0x20])).errorWord = 0xD03#32 ∧
    streamBytes (after .decode (readyOver [0x20])).outBits = [0x41, 0x41, 0x42, 0x41, 0x41, 0x41, 0x41] := by decide +kernel

theorem test_clrerr : (after .clrerr { ready with err := true, ovr := true, errorCode := 1 }).status = 0x1C#32 := by decide +kernel

/-- R222: TREE and STATUS are cleared, the tables are not. -/
theorem test_init : (after .init ready).treeWord = 0#32 ∧ (after .init ready).status = 0#32 ∧
    (after .init ready).freq[0x41] = 2#32 := by decide +kernel

/-! ### The step -/

/-- The first command after reset is fetched and run: COUNT of the empty input. -/
theorem test_step_first : (match step (State.reset.withFetchWord 32 1) with
    | .next t => t.status.toNat
    | .fault _ => 0
    | .refused _ => 0) = 4 := by decide +kernel
/-- A CMD write while BUSY = 1 sets OVR (R230). -/
theorem test_step_overrun : (match step { launched [] with cmd := some 1, host := [.write params.base 4 2] } with
    | .next t => t.ovr
    | .fault _ => false
    | .refused _ => false) = true := by decide +kernel

/-! ### Every statement with premises has a state and operands that meet them, each clause at a boundary -/

/-- The command answers a next state. -/
def answers (i : Instr) (s : State) : Bool :=
  match exec i s with
  | .next _ => true
  | .fault _ => false
  | .refused _ => false

theorem after_eq {i : Instr} {s : State} (h : answers i s = true) : exec i s = .next (after i s) := by
  unfold answers at h
  unfold after
  split at h <;> simp_all

/-- The state after a command line's CMD write, before the core runs it. -/
def running (w : Word) (s : State) : State := { s with cmd := some w }

/-- The host's next action. -/
def facing (a : HostAction) (s : State) : State := { s with host := a :: s.host }

/-- The tree of `ready` is in its slots. -/
theorem ready_tree : ready.tree = some aabTree := by decide +kernel

theorem aab_shape : TreeShape aabTree := ⟨by decide, by decide, by decide⟩

theorem ready_inv : Inv ready where
  inPos := by decide +kernel
  closed := nofun
  noError := fun _ => ⟨rfl, rfl⟩
  someError := nofun
  result := by decide
  total := BitVec.isLt _
  counts := fun _ _ => BitVec.isLt _
  weights := fun _ _ => BitVec.isLt _
  freq := fun _ => ⟨by decide +kernel, by decide +kernel⟩
  tree := fun _ => ⟨aabTree, ready_tree, aab_shape, rfl⟩
  codes := fun _ => ⟨rfl, fun t ht => by rw [ready_tree] at ht; cases ht; rfl⟩

theorem test_witness_DecodeInvertsEncode : WellFormed (.encSym 256) ∧ WellFormed (.encSym 0) ∧ WellFormed .init := by
  decide
theorem test_witness_EncodeInvertsDecode : decode 0x10008#32 = .ok (.encSym 256) ∧ decode 0x8#32 = .ok (.encSym 0) := by
  exact ⟨rfl, rfl⟩
/-- A word for each condition of R103, running. -/
theorem test_witness_IllegalWordsAreRefused :
    [0x10#32, 0x20000#32, 0x10F#32, 0x10108#32].map (fun w => decoded (decode w)) = [none, none, none, none] ∧
    (running 0x10108 ready).cmd = some 0x10108 ∧ (running 0x10108 ready).host = [] ∧ (running 0x10108 ready).err = false ∧
    ∃ e, decode 0x10108#32 = .error e := ⟨by decide, rfl, rfl, rfl, _, rfl⟩
theorem test_witness_StepRunsDecodedCommand :
    (running 0x10008 ready).cmd = some 0x10008 ∧ (running 0x10008 ready).host = [] ∧
      (∃ rest, (facing .wait (running 0x10008 ready)).host = .wait :: rest) ∧ decode 0x10008#32 = .ok (.encSym 256) :=
  ⟨rfl, rfl, ⟨_, rfl⟩, rfl⟩
theorem test_witness_CommandAcceptance :
    (facing (.write params.base 4 1) ready).host = .write ready.params.base 4 1 :: [] ∧ ready.busy = false ∧
      (running 2 ready).busy = true := ⟨rfl, rfl, rfl⟩
theorem test_witness_ErrorStateIgnoresCommands :
    (running 1 { ready with err := true }).err = true ∧ wordOp 1 ≠ 0xA#4 ∧ wordOp 1 ≠ 0xE#4 ∧ wordOp 1 ≠ 0xF#4 ∧
      runsInError .count = false ∧ exec .close { ready with err := false } = .next (after .close ready) := by
  exact ⟨rfl, by decide, by decide, by decide, rfl, rfl⟩
/-- CLOSE in the error state: it stays in it. -/
theorem test_witness_FirstErrorIsKept : exec .close { ready with err := true } = .next (after .close { ready with err := true }) ∧
    (after .close { ready with err := true }).err = true := ⟨rfl, rfl⟩
theorem test_witness_ErrorNamesTheCommand : ready.err = false ∧ exec .decode (readyOver [0x20]) = .next (after .decode (readyOver [0x20])) ∧
    (after .decode (readyOver [0x20])).err = true := ⟨rfl, after_eq (by decide +kernel), by decide +kernel⟩
/-- A command whose flag is 0; one whose flag is 1, and one without a flag, each raising another error. -/
theorem test_witness_SequenceErrors : WellFormed (.encSym 256) ∧ (launched []).err = false ∧
    neededFlag (launched []) (.encSym 256) = some false ∧ neededFlag (readyOver []) .decSym = some true ∧
    exec .decSym (readyOver []) = .next (after .decSym (readyOver [])) ∧ (after .decSym (readyOver [])).err = true ∧
    neededFlag (launched [0x90]) .rdTree = none ∧ exec .rdTree (launched [0x90]) = .next (after .rdTree (launched [0x90])) ∧
    (after .rdTree (launched [0x90])).err = true :=
  ⟨by decide, rfl, rfl, rfl, after_eq (by decide +kernel), by decide +kernel, rfl, after_eq (by decide +kernel),
    by decide +kernel⟩
theorem test_witness_OutputClosedErrors :
    let s := { ready with outClosed := true }
    let u := { launched [] with outClosed := true }
    (s.err = false ∧ writesOutput .encode = true ∧ neededFlag s .encode ≠ some false ∧ neededFlag s .wrHeader ≠ some false ∧
      s.outClosed = true) ∧
    (u.err = false ∧ writesOutput .encode = true ∧ neededFlag u .encode = some false ∧ u.outClosed = true) ∧
    (writesOutput .count = false ∧ Instr.count ≠ .close ∧ exec .count ready = .next (after .count ready)) ∧
    writesOutput .rdTree = false ∧ exec .rdTree u = .next (after .rdTree u) ∧ (after .rdTree u).err = true :=
  ⟨by decide +kernel, by decide +kernel, ⟨rfl, by decide, after_eq (by decide +kernel)⟩, rfl, after_eq (by decide +kernel),
    by decide +kernel⟩
/-- One byte: 8 bits are there, 9 are not. -/
theorem test_witness_InputIsReadMostSignificantFirst :
    (launched [0xA5]).inPos + 8 ≤ 8 * (launched [0xA5]).inBytes.length ∧
    8 * (launched [0xA5]).inBytes.length < (launched [0xA5]).inPos + 9 := by decide +kernel
theorem test_witness_OutputIsWrittenMostSignificantFirst :
    let s := { ready with outClosed := true }
    s.outClosed = true ∧ exec .wrHeader s = .next (after .wrHeader s) := ⟨rfl, rfl⟩
theorem test_witness_BytesAndBitsAgree :
    8 * 1 + 8 ≤ (List.replicate 16 true).length ∧ (7 : Nat) < 8 ∧ (List.replicate 16 true).length % 8 = 0 := by decide
theorem test_witness_OutputOnlyGrows : exec .wrHeader ready = .next (after .wrHeader ready) ∧ Instr.wrHeader ≠ .close :=
  ⟨rfl, by decide⟩
theorem test_witness_RewindResult : (launched [1]).err = false := rfl
theorem test_witness_WrHeaderResult : (launched []).err = false ∧ (launched []).outClosed = false := ⟨rfl, rfl⟩
/-- Exactly 32 bits that are P_MAGIC; exactly 32 others; 31 bits. -/
theorem test_witness_RdHeaderResult :
    let magicBits := (List.range 32).map fun k => params.magic.getLsbD (31 - k)
    (launched [0xFA, 0xCE, 0x82, 0x01]).inRest = magicBits ++ [] ∧
    (32 ≤ (launched [0xFA, 0xCE, 0x82, 0x00]).inRest.length ∧
      (launched [0xFA, 0xCE, 0x82, 0x00]).inRest.take 32 ≠ magicBits) ∧
    { launched [0xFA, 0xCE, 0x82, 0x01] with inPos := 1 }.inRest.length = 31 := by decide +kernel
/-- W_FREQ = 2: two bytes fit. -/
theorem test_witness_CountResult : (State.launch narrow [0x41, 0x42]).err = false ∧
    (streamBytes (State.launch narrow [0x41, 0x42]).inRest).length + 1 ≤ 2 ^ narrow.wFreq.val - 1 := by decide +kernel
/-- W_FREQ = 2: three do not. -/
theorem test_witness_CountOverflow : (State.launch narrow [0x41, 0x42, 0x43]).err = false ∧
    2 ^ narrow.wFreq.val - 1 < (streamBytes (State.launch narrow [0x41, 0x42, 0x43]).inRest).length + 1 := by
  decide +kernel
theorem test_witness_BuildLayout : Inv ready ∧ ready.err = false ∧ ready.freqValid = true ∧
    ((List.range 257).filter fun sym => (ready.freq[sym]?).getD 0 != 0) = [0x41, 0x42, 256] :=
  ⟨ready_inv, rfl, rfl, by decide +kernel⟩
/-- The last merge, slot 4. -/
theorem test_witness_BuildMergesTheTwoLeast : Inv ready ∧ ready.err = false ∧ ready.freqValid = true ∧
    exec .build ready = .next (after .build ready) ∧ 4 < (after .build ready).nodeCount.toNat ∧
    (after .build ready).node[4]? = some { leaf := false, sym := 0, weight := 4, left := 0, right := 3 } ∧
    ∃ (active : Nat → Nat → Prop) (weight : Nat → Nat),
      (∀ m i, active m i ↔ i < m ∧ ∀ j < m, ∀ n, (after .build ready).node[j]? = some n → n.leaf = false →
        n.left.toNat ≠ i ∧ n.right.toNat ≠ i) ∧
      ∀ i n, (after .build ready).node[i]? = some n → weight i = n.weight.toNat :=
  ⟨ready_inv, rfl, rfl, rfl, by decide +kernel, by decide +kernel, _,
    fun i => (((after .build ready).node[i]?).map fun n => n.weight.toNat).getD 0, fun _ _ => Iff.rfl,
    fun i n h => by simp only [h, Option.map_some, Option.getD_some]⟩
theorem test_witness_BuildWeights : Inv ready ∧ ready.freqValid = true ∧ exec .build ready = .next (after .build ready) ∧
    ((after .build ready).node[4]?).map Node.leaf = some false ∧ ((after .build ready).node[0]?).isSome ∧
    ((after .build ready).node[3]?).isSome := ⟨ready_inv, rfl, rfl, by decide +kernel, by decide +kernel, by decide +kernel⟩
theorem test_witness_BuildHoldsTheTree : Inv ready ∧ ready.err = false ∧ ready.freqValid = true ∧
    exec .build ready = .next (after .build ready) := ⟨ready_inv, rfl, rfl, rfl⟩
/-- Two leaves with one symbol: the later one counts; symbol 0x42 has no leaf. -/
theorem test_witness_GencodesResult : ready.err = false ∧ ready.treeValid = true ∧ ready.tree = some aabTree ∧
    TreeShape aabTree ∧ aabTree.paths [] = [(0x41, [false])] ++ (0x42, [true, false]) :: [(256, [true, true])] ∧
    (∀ leaf ∈ [((256 : Symbol), [true, true])], leaf.1.toNat ≠ 0x42) ∧ (∀ leaf ∈ aabTree.paths [], leaf.1.toNat ≠ 0x43) ∧
    (HTree.node (.leaf 0x41) (.leaf 0x41)).paths [] = [(0x41, [false])] ++ (0x41, [true]) :: [] :=
  ⟨rfl, rfl, ready_tree, aab_shape, by decide, by decide, by decide, by decide⟩
theorem test_witness_CodesArePrefixFree : Inv ready ∧ ready.codesValid = true ∧ (0x42 : Nat) < 257 ∧ (256 : Nat) < 257 ∧
    (ready.codeOf 0x42).valid = true ∧ (ready.codeOf 256).valid = true :=
  ⟨ready_inv, rfl, by decide, by decide, by decide +kernel, by decide +kernel⟩
theorem test_witness_SentinelHasACode : Inv ready ∧ ready.treeValid = true ∧ ready.tree = some aabTree ∧
    exec .gencodes ready = .next (after .gencodes ready) ∧ exec .build ready = .next (after .build ready) :=
  ⟨ready_inv, rfl, ready_tree, after_eq (by decide +kernel), rfl⟩
theorem test_witness_WrTreeResult : ready.err = false ∧ ready.treeValid = true ∧ ready.outClosed = false ∧
    ready.tree = some aabTree := ⟨rfl, rfl, rfl, ready_tree⟩
theorem test_witness_RdTreeResult : (launched [0x48, 0x29, 0x0B, 0x00]).err = false ∧ TreeShape aabTree ∧
    (launched [0x48, 0x29, 0x0B, 0x00]).inRest = aabTree.encoding ++ [] := ⟨rfl, aab_shape, by decide +kernel⟩
/-- An input that des() refuses, or whose root is a leaf other than the sentinel, begins with no legal tree. -/
theorem not_legal {s : State}
    (h : (match parseTree 257 0 s.inRest with
      | .tree t _ _ => t.badRoot
      | .malformed _ => true) = true) : ¬ ∃ tree rest, TreeShape tree ∧ s.inRest = HTree.encoding tree ++ rest := by
  rintro ⟨tree, rest, hs, hb⟩
  have hp := parseTree_encoding tree 257 0 rest (by omega) (by have := hs.internals; omega) hs.symbols
  rw [hb, hp] at h
  simp only [hs.root] at h
  cases h
/-- The end on a tag; inside the nine bits; the leaf value 257; the 257th internal node; a leaf root 0x41. -/
theorem test_witness_RdTreeMalformed :
    ∀ bytes ∈ [[], [0x80], [0xC0, 0x40], List.replicate 33 0, [0x90, 0x40]],
      (launched bytes).err = false ∧ (launched bytes).inPos ≤ (launched bytes).inEnd ∧
      ¬ ∃ tree rest, TreeShape tree ∧ (launched bytes).inRest = HTree.encoding tree ++ rest := by
  intro bytes h
  refine ⟨rfl, Nat.zero_le _, not_legal ?_⟩
  simp only [List.mem_cons, List.not_mem_nil, or_false] at h
  rcases h with rfl | rfl | rfl | rfl | rfl <;> decide +kernel
/-- Where each of them leaves the input: R169, R167, R166, R168. -/
theorem test_rdTree_consumed : ([[], [0x80], [0xC0, 0x40], List.replicate 33 0, [0x90, 0x40]] : List (List Byte)).map
    (fun bytes => (after .rdTree (launched bytes)).inPos) = [0, 8, 10, 257, 10] := by decide +kernel
theorem test_witness_TreeRoundTrip : Inv ready ∧ ready.treeValid = true ∧ ready.outClosed = false ∧
    exec .wrTree ready = .next (after .wrTree ready) ∧
    (after .wrTree ready).outBits = ready.outBits ++ aabTree.encoding ∧
    (launched [0x48, 0x29, 0x0B, 0x00]).inRest = aabTree.encoding ++ [] :=
  ⟨ready_inv, rfl, rfl, after_eq (by decide +kernel), by decide +kernel, by decide +kernel⟩
/-- SYM = 257 is above the range; 256 is its top, with a code; 0x43 has none. -/
theorem test_witness_EncSymResult : ready.err = false ∧ 256 < (257#9).toNat ∧ (256#9).toNat ≤ 256 ∧ ready.codesValid = true ∧
    ready.outClosed = false ∧ (ready.code[256]?).map CodeEntry.valid = some true ∧
    (ready.code[0x43]?).map CodeEntry.valid = some false := by decide +kernel
theorem test_witness_EncodeResult : ready.err = false ∧ ready.codesValid = true ∧ ready.outClosed = false ∧
    (∀ b ∈ streamBytes ready.inRest, (ready.codeOf b.toNat).valid = true) ∧ (ready.codeOf 256).valid = true := by
  decide +kernel
/-- A byte with no code after one with a code; and a table without a code for 256. -/
theorem test_witness_EncodeNoCode :
    (streamBytes (readyOver [0x42, 0x43, 0x41]).inRest = [0x42] ++ 0x43 :: [0x41] ∧
      (∀ c ∈ [(0x42 : Byte)], (ready.codeOf c.toNat).valid = true) ∧ (ready.codeOf 0x43).valid = false) ∧
    let s := { ready with code := codesOf (.node (.leaf 0x41) (.leaf 0x42)) }
    (∀ c ∈ streamBytes s.inRest, (s.codeOf c.toNat).valid = true) ∧ (s.codeOf 256).valid = false := by decide +kernel
theorem test_witness_EncodeIsEncSyms : ready.err = false ∧ exec .encode ready = .next (after .encode ready) ∧
    (after .encode ready).err = false := ⟨rfl, after_eq (by decide +kernel), by decide +kernel⟩
/-- A byte, the sentinel, a leaf root that reads no bit, and an input that ends inside a code. -/
theorem test_witness_DecSymResult : ready.tree = some aabTree ∧
    ((0x42, [true, false]) ∈ aabTree.paths [] ∧ (readyOver [0x80]).inRest = [true, false] ++ List.replicate 6 false) ∧
    ((256, [true, true]) ∈ aabTree.paths [] ∧ (readyOver [0xC0]).inRest = [true, true] ++ List.replicate 6 false) ∧
    (256, []) ∈ (HTree.leaf 256).paths [] ∧
    ∀ leaf ∈ aabTree.paths [], ¬ leaf.2 <+: { readyOver [0x01] with inPos := 7 }.inRest := by decide +kernel
/-- The payload 0 0 10 11 of 41 41 42. -/
theorem test_witness_DecodeResult : ready.tree = some aabTree ∧ TreeShape aabTree ∧
    LeavesOf aabTree [(0x41, [false]), (0x41, [false]), (0x42, [true, false])] ∧
    (∀ leaf ∈ [((0x41 : Symbol), [false]), (0x41, [false]), (0x42, [true, false])], leaf.1 ≠ eofSym) ∧
    (eofSym, [true, true]) ∈ aabTree.paths [] ∧
    (readyOver [0x2C]).inRest =
      payload [(0x41, [false]), (0x41, [false]), (0x42, [true, false])] ++ [true, true] ++ [false, false] :=
  ⟨ready_tree, aab_shape, by decide, by decide, by decide, by decide +kernel⟩
/-- The input ends inside a code after seven leaves; and it is empty. -/
theorem test_witness_DecodeTruncated : ready.tree = some aabTree ∧
    (LeavesOf aabTree (List.replicate 7 (0x41, [false])) ∧
      (∀ leaf ∈ List.replicate 7 ((0x41 : Symbol), [false]), leaf.1 ≠ eofSym) ∧
      (readyOver [0x01]).inRest = payload (List.replicate 7 (0x41, [false])) ++ [true] ∧
      ∀ leaf ∈ aabTree.paths [], ¬ leaf.2 <+: [true]) ∧
    (readyOver []).inRest = payload [] ++ [] ∧ ∀ leaf ∈ aabTree.paths [], ¬ leaf.2 <+: [] := by decide +kernel
/-- DEC_SYM of the sentinel; DEC_SYM of a byte, after which DECODE succeeds. -/
theorem test_witness_DecodeIsDecSyms :
    (exec .decSym (readyOver [0xC0]) = .next (after .decSym (readyOver [0xC0])) ∧
      (after .decSym (readyOver [0xC0])).err = false ∧ (after .decSym (readyOver [0xC0])).eofSeen = true) ∧
    exec .decSym (readyOver [0x2C]) = .next (after .decSym (readyOver [0x2C])) ∧
    (after .decSym (readyOver [0x2C])).err = false ∧ (after .decSym (readyOver [0x2C])).eofSeen = false ∧
    exec .decode (after .decSym (readyOver [0x2C])) = .next (after .decode (after .decSym (readyOver [0x2C]))) ∧
    (after .decode (after .decSym (readyOver [0x2C]))).err = false :=
  ⟨⟨after_eq (by decide +kernel), by decide +kernel, by decide +kernel⟩, after_eq (by decide +kernel), by decide +kernel,
    by decide +kernel, after_eq (by decide +kernel), by decide +kernel⟩
theorem test_witness_PayloadRoundTrip : Inv ready ∧ ready.err = false ∧ exec .encode ready = .next (after .encode ready) ∧
    (after .encode ready).err = false ∧
    (after .encode ready).outBits = ready.outBits ++ [false, false, true, false, true, true] ∧
    (readyOver [0x2C]).treeValid = true ∧ (readyOver [0x2C]).outClosed = false ∧ (readyOver [0x2C]).tree = ready.tree ∧
    (readyOver [0x2C]).inRest = [false, false, true, false, true, true] ++ [false, false] :=
  ⟨ready_inv, rfl, after_eq (by decide +kernel), by decide +kernel, by decide +kernel, rfl, rfl, rfl, by decide +kernel⟩
theorem test_witness_CompressThenDecompress : Inv ready ∧ ready.err = false ∧ ready.inPos = 0 ∧ ready.outBits = [] ∧
    ready.outClosed = false ∧ ready.inBytes.length + 1 ≤ 2 ^ ready.params.wFreq.val - 1 ∧
    ∀ t : State, ∃ u : State, u.params.magic = ready.params.magic ∧ u.err = false ∧ u.inBytes = streamBytes t.outBits ∧
      u.inPos = 0 ∧ u.outBits = [] ∧ u.outClosed = false :=
  ⟨ready_inv, rfl, rfl, rfl, rfl, by decide +kernel, fun t => ⟨launched (streamBytes t.outBits), rfl, rfl, rfl, rfl, rfl, rfl⟩⟩
theorem test_witness_StepKeepsInvariant : Inv ready ∧ step ready = .next ready := ⟨ready_inv, rfl⟩
theorem test_witness_CommandsComplete : Inv ready := ready_inv
theorem test_witness_OnlyHostMisuseStops : Inv (facing (.read params.base 2) ready) ∧
    step (facing (.read params.base 2) ready) = .refused (.undefinedAccess params.base 2) := ⟨{ ready_inv with }, rfl⟩
theorem test_witness_ParametersAreConstant : exec .init ready = .next (after .init ready) ∧ step ready = .next ready :=
  ⟨rfl, rfl⟩
theorem test_witness_TablesHaveOneWriter : exec .wrTree ready = .next (after .wrTree ready) := after_eq (by decide +kernel)
theorem test_witness_FlagsFollowTheirRules : exec .count ready = .next (after .count ready) ∧
    (after .count ready).err = false ∧ ready.err = false := ⟨after_eq (by decide +kernel), by decide +kernel, rfl⟩
theorem test_witness_ResetResult : ready.cmd = none ∧ (facing .assertReset ready).host = .assertReset :: [] := ⟨rfl, rfl⟩
/-- COUNT abandoned (it moves forward), REWIND abandoned (it moves back). -/
theorem test_witness_ResetAbandonsACommand :
    (running 1 (facing .assertReset ready)).cmd = some 1 ∧
    (running 1 (facing .assertReset ready)).host = .assertReset :: [] ∧
    execute 1 (running 1 ready) = .next (after .count (running 1 ready)) ∧
    (running 1 ready).inPos ≤ (after .count (running 1 ready)).inPos ∧
    execute 7 (running 7 { ready with inPos := 8 }) = .next (after .rewind (running 7 { ready with inPos := 8 })) ∧
    (after .rewind (running 7 { ready with inPos := 8 })).inPos < 8 :=
  ⟨rfl, rfl, after_eq (i := .count) (by decide +kernel), by decide +kernel, after_eq (i := .rewind) (by decide +kernel),
    by decide +kernel⟩
/-- The port accesses, in order: ENCODE of 41 41 42 reads a byte and writes its code, then EOS and the terminator (R186). -/
theorem test_accesses_encode : commandAccesses .encode ready =
    [.read 8, .write 1 0, .read 8, .write 1 0, .read 8, .write 1 1, .write 1 0, .read 8, .write 1 1, .write 1 1] := by
  decide +kernel
/-- RD_TREE of a leaf 256 reads a tag and nine bits (R164); DEC_SYM of 42 reads 1, 0 and writes a byte (R202). -/
theorem test_accesses_reads : commandAccesses .rdTree (launched [0xC0, 0x00]) = [.read 1, .read 9] ∧
    commandAccesses .decSym (readyOver [0x80]) = [.read 1, .read 1, .write 8 0x42] := by decide +kernel
/-- A read of FREQ[256]; a write to STATUS; the first and the last offset of each reserved range, which read 0. -/
theorem test_witness_ReadsHaveNoSideEffect :
    (ready.cmd = none ∧ (facing (.read (params.base + 0x1400) 4) ready).host = .read (ready.params.base + 0x1400) 4 :: []) ∧
    (facing (.write (params.base + 4) 4 1) ready).host = .write (ready.params.base + 4) 4 1 :: [] ∧
    ∀ off ∈ [0, 0x20, 0x0FFC, 0x1404, 0x1FFC, 0x2404, 0x2FFC, 0x5020, 0x5FFC, 0x7008, 0x7FFC],
      off % 4 = 0 ∧ off < 0x8000 ∧ (off = 0 ∨ (0x20 ≤ off ∧ off ≤ 0x0FFF) ∨ (0x1404 ≤ off ∧ off ≤ 0x1FFF) ∨
        (0x2404 ≤ off ∧ off ≤ 0x2FFF) ∨ (0x5020 ≤ off ∧ off ≤ 0x5FFF) ∨ 0x7008 ≤ off) ∧ ready.readWord off = 0 := by
  decide +kernel
theorem test_witness_ReadsWhileBusy :
    (running 1 (facing (.read (params.base + 4) 4) ready)).cmd ≠ none ∧
    (running 1 (facing (.read (params.base + 4) 4) ready)).host = .read (ready.params.base + 4) 4 :: [] := by decide +kernel
theorem test_witness_RegisterFields : ready.total.toNat < 2 ^ ready.params.wFreq.val := by decide +kernel
/-- The top symbol and the top slot. -/
theorem test_witness_WindowsShowTheTables : Inv ready ∧ ready.codesValid = true ∧ ready.treeValid = true ∧
    (256 : Nat) < 257 ∧ (4 : Nat) < 513 ∧ 4 < ready.nodeCount.toNat ∧ ready.readWord 0x1400 = 1#32 ∧
    ready.readWord 0x6020 = 4#32 ∧ ready.readWord 0x6024 = 0xC00#32 :=
  ⟨ready_inv, rfl, rfl, by decide, by decide, by decide, by decide +kernel, by decide +kernel, by decide +kernel⟩
/-- A narrow read, a wide one, a misaligned one. -/
theorem test_witness_UndefinedAccessesAreRefused :
    ∀ p ∈ [(0x7FFC, 2), (0x7FFC, 8), (2, 4), (0x7FFD, 1)],
      (facing (.read (params.base + p.1) p.2) ready).host = .read (ready.params.base + p.1) p.2 :: [] ∧ p.1 < 0x8000 ∧
      (p.2 ≠ 4 ∨ p.1 % 4 ≠ 0) := by decide +kernel
theorem test_witness_StreamActions :
    ready.cmd = none ∧ (running 1 ready).cmd ≠ none ∧
    (∀ a ∈ [HostAction.attachInput [1, 2], .attachOutput, .takeOutput],
      (facing a ready).host = a :: [] ∧ (running 1 (facing a ready)).host = a :: []) ∧
    ready.outClosed = false ∧ { ready with outClosed := true }.outClosed = true := by decide +kernel
/-- Eleven bits of an open stream: AttachOutput hands over one byte, and not the partial one (R78, R266). -/
theorem test_attachOutput_open : ({ ready with
    outBits := [true, true, true, true, false, false, false, false, true, true, true] }.attachOutput).log =
    [.bytes [0xF0]] := by decide +kernel

end Sys2Proof.Tests
end

section
/-!
PROOFS of family 00_scope.md, O48: from a state that meets the invariant every command answers a next state that meets
it (R13). The argument follows a command's own order (R235): one rule for each shared guard, then one lemma per command,
whose content is which update of the state it makes and why that update keeps Inv.
-/

namespace Sys2Proof.Machine

variable {s : State}

/-- The outcome of a command that completes in a state that meets the invariant (R13). -/
def Completes (o : Outcome) : Prop := ∃ t, o = .next t ∧ Inv t

theorem completes_next (h : Inv s) : Completes (.next s) := ⟨s, rfl, h⟩

/-! ### Guards -/

/-- The error-state filter (R231). -/
theorem unlessErr_completes {run : Outcome} (h : Inv s) (hr : Completes run) : Completes (unlessErr s run) := by
  unfold unlessErr
  split
  · exact completes_next h
  · exact hr

/-- The SEQUENCE check (R240). -/
theorem needsValid_completes {flag : Bool} {op : BitVec 4} {run : Outcome} (h : Inv s)
    (hr : flag = true → Completes run) : Completes (needsValid s flag op run) := by
  unfold needsValid
  split
  · exact hr ‹_›
  · exact completes_next (h.raise _ _)

/-- The OUTPUT_CLOSED check (R232). -/
theorem needsOpen_completes {op : BitVec 4} {run : Outcome} (h : Inv s)
    (hr : s.outClosed = false → Completes run) : Completes (needsOpen s op run) := by
  unfold needsOpen
  split
  · exact completes_next (h.raise _ _)
  · exact hr (by simpa using ‹¬ s.outClosed = true›)

/-- The operand check (R103). -/
theorem withSymbol_completes {op : BitVec 4} {sym : Symbol} {run : Nat → Outcome} (h : Inv s)
    (hr : Completes (run sym.toNat)) : Completes (withSymbol s op sym run) := by
  unfold withSymbol
  split
  · exact hr
  · exact completes_next (h.raise _ _)

/-- A walk of the whole tree: under the invariant a valid tree is there (R22). -/
theorem withTree_completes {run : HTree → Outcome} (h : Inv s) (hv : s.treeValid = true)
    (hr : ∀ tree, s.tree = some tree → Completes (run tree)) : Completes (withTree s run) := by
  obtain ⟨tree, ht, -⟩ := h.tree hv
  simp only [withTree, ht]
  exact hr tree ht

/-! ### Updates of the state -/

/-- EOF_SEEN is free in the invariant. -/
theorem Inv.withEofSeen (h : Inv s) (eof : Bool) : Inv { s with eofSeen := eof } := { h with }

theorem Inv.setResult (h : Inv s) {v : Symbol} (hv : v.toNat ≤ 256) : Inv (s.setResult v) := { h with result := hv }

theorem Inv.setLast (h : Inv s) {last : Option Symbol} (hl : ∀ v ∈ last, v.toNat ≤ 256) : Inv (s.setLast last) := by
  cases last with
  | none => exact h
  | some v => exact h.setResult (hl v rfl)

/-- What a failing RD_TREE leaves (R244). -/
theorem Inv.treeFailed (h : Inv s) (rest : Option (List Bool)) : Inv (s.treeFailed rest) :=
  ((h.dropTree.looseTree rfl).inAfter rest).raise _ _

/-- A tree that RD_TREE accepts has a legal shape (R166 to R168). -/
theorem treeShape_of_parseTree {bits rest : List Bool} {tree : HTree} {k : Nat}
    (hp : parseTree 257 0 bits = .tree tree rest k) (hb : tree.badRoot = false) : TreeShape tree := by
  obtain ⟨-, rfl, hk, hs⟩ := parseTree_sound hp (Nat.zero_le _)
  exact ⟨by omega, hs, hb⟩

/-- What an RD_TREE that read a tree of a legal shape leaves (R165). -/
theorem Inv.treeRead (h : Inv s) {tree : HTree} (hs : TreeShape tree) (rest : List Bool) :
    Inv (s.treeRead tree rest) := by
  have hroot : readTree (fillNodes s.node (tree.layout 0)) 513 (0#10).toNat = some tree :=
    readTree_layout s.node tree hs.internals
  refine (h.setTree (fun n hn => ?_) hroot hs ?_).inAdvance rest
  · rw [layout_weight tree 0 n hn]
    exact Nat.two_pow_pos _
  · have hsize := tree.size_eq
    have hk := hs.internals
    rw [BitVec.toNat_ofNat]
    omega

/-- What a BUILD that runs leaves: no sum of weights passes TOTAL, so all of them fit (R145). -/
theorem Inv.built (h : Inv s) (hv : s.freqValid = true) : Inv s.built := by
  obtain ⟨h256, hsum⟩ := h.freq hv
  obtain ⟨tree, ht, hs, hc, -⟩ := built_tree s h256
  refine h.setTree (buildNodes_weight s.params s.freq ?_) ht hs hc
  rw [show freqSum s.freq = s.total.toNat from hsum]
  exact h.total

/-! ### Commands -/

theorem execCount_completes (h : Inv s) : Completes (execCount s) := by
  obtain ⟨hc, h256, hsum⟩ := h.counted
  refine unlessErr_completes h ?_
  dsimp only
  split
  · exact completes_next { hc.inToEnd with freq := fun _ => ⟨h256, hsum⟩ }
  · exact completes_next ((hc.inAdvanceBytes (Nat.sub_le _ _)).raise _ _)

theorem execBuild_completes (h : Inv s) : Completes (execBuild s) :=
  unlessErr_completes h <| needsValid_completes h fun hv => completes_next (h.built hv)

theorem execGencodes_completes (h : Inv s) : Completes (execGencodes s) :=
  unlessErr_completes h <| needsValid_completes h fun hv => withTree_completes h hv fun _ ht =>
    completes_next (h.gencodes hv ht)

theorem execWrTree_completes (h : Inv s) : Completes (execWrTree s) :=
  unlessErr_completes h <| needsValid_completes h fun hv => needsOpen_completes h fun ho =>
    withTree_completes h hv fun tree _ => completes_next (h.outAppend ho tree.encoding)

theorem execRdTree_completes (h : Inv s) : Completes (execRdTree s) := by
  refine unlessErr_completes h ?_
  split
  · exact completes_next (h.treeFailed _)
  · split
    · exact completes_next (h.treeFailed _)
    · rename_i hp hb
      exact completes_next (h.treeRead (treeShape_of_parseTree hp (by simpa using hb)) _)

theorem execWrHeader_completes (h : Inv s) : Completes (execWrHeader s) :=
  unlessErr_completes h <| needsOpen_completes h fun ho => completes_next (h.outAppend ho _)

theorem execRewind_completes (h : Inv s) : Completes (execRewind s) :=
  unlessErr_completes h <| completes_next h.inRewind

theorem execEncSym_completes (h : Inv s) (sym : Symbol) : Completes (execEncSym sym s) := by
  refine unlessErr_completes h <| withSymbol_completes h <| needsValid_completes h fun _ =>
    needsOpen_completes h fun ho => ?_
  dsimp only
  split
  · exact completes_next (h.outAppend ho _)
  · exact completes_next (h.raise _ _)

theorem execEncode_completes (h : Inv s) : Completes (execEncode s) := by
  refine unlessErr_completes h <| needsValid_completes h fun _ => needsOpen_completes h fun ho => ?_
  have hw : Inv s.encoded := h.outAppend ho _
  dsimp only
  split
  · exact completes_next ((hw.inAdvanceBytes (Nat.sub_le _ _)).raise _ _)
  · split
    · exact completes_next (hw.outAppend ho _).inToEnd
    · exact completes_next (hw.inToEnd.raise _ _)

theorem execRdHeader_completes (h : Inv s) : Completes (execRdHeader s) := by
  refine unlessErr_completes h ?_
  split
  · exact completes_next (h.inToEnd.raise _ _)
  · split
    · exact completes_next (h.inAdvance _)
    · exact completes_next ((h.inAdvance _).raise _ _)

/-- decodeOne() stays inside the valid tree, so it answers a symbol of it or EOS (R201). -/
theorem execDecSym_completes (h : Inv s) : Completes (execDecSym s) := by
  refine unlessErr_completes h <| needsValid_completes h fun hv => needsOpen_completes h fun ho => ?_
  obtain ⟨tree, -, hs, holds⟩ := h.holds hv
  rcases decodeOne_cases holds s.inRest with ⟨v, p, rest, hp, -, hd⟩ | ⟨hd, -⟩ <;> simp only [hd]
  · have hi : Inv (s.symbolDecoded v rest) := (h.dropResult.inAdvance rest).setResult (hs.path_symbol hp)
    split
    · exact completes_next (hi.withEofSeen true)
    · exact completes_next (hi.outAppend ho _)
  · exact completes_next (h.dropResult.inToEnd.raise _ _)

/-- The last of some leaves of a tree of a legal shape carries a symbol 0..256 (R167). -/
theorem TreeShape.last_symbol {tree : HTree} (hs : TreeShape tree) {leaves : List (Symbol × List Bool)}
    (hl : LeavesOf tree leaves) {v : Symbol} (hv : v ∈ (leaves.map Prod.fst).getLast?) : v.toNat ≤ 256 := by
  obtain ⟨leaf, hm, rfl⟩ := List.mem_map.mp (List.mem_of_getLast? hv)
  exact hs.path_symbol (hl leaf hm)

/-- DECODE's loop ends at the sentinel or at EOS, and its last symbol is one of the tree's (R206, R208). -/
theorem decodeRun_ends (h : Inv s) (hv : s.treeValid = true) :
    ((∃ rest, s.decodeRun.stop = .sentinel rest) ∨ s.decodeRun.stop = .eos) ∧
      ∀ v ∈ s.decodeRun.last, v.toNat ≤ 256 := by
  obtain ⟨tree, -, hs, holds⟩ := h.holds hv
  obtain ⟨leaves, hl, ⟨p, rest, hp, -, hrun⟩ | ⟨tail, -, -, hrun⟩⟩ :=
    decodeLoop_cases holds hs.root s.inRest none (Nat.lt_succ_self _)
  · rw [State.decodeRun, hrun]
    refine ⟨.inl ⟨rest, rfl⟩, fun v hv => ?_⟩
    cases hv
    exact hs.path_symbol hp
  · rw [State.decodeRun, hrun]
    refine ⟨.inr rfl, fun v hv => hs.last_symbol (fun leaf hm => (hl leaf hm).1) ?_⟩
    simpa using hv

theorem execDecode_completes (h : Inv s) : Completes (execDecode s) := by
  refine unlessErr_completes h <| needsValid_completes h fun hv => needsOpen_completes h fun ho => ?_
  obtain ⟨hstop, hlast⟩ := decodeRun_ends h hv
  have hi : Inv s.decoded := (h.dropResult.outAppend ho _).setLast hlast
  unfold State.decodeRun at hstop
  rcases hstop with ⟨rest, hstop⟩ | hstop <;> simp only [hstop]
  · exact completes_next ((hi.inAdvance rest).withEofSeen true)
  · exact completes_next (hi.inToEnd.raise _ _)

/-! ### Every command -/

theorem exec_completes (h : Inv s) (i : Instr) : Completes (exec i s) :=
  match i with
  | .nop => completes_next h
  | .count => execCount_completes h
  | .build => execBuild_completes h
  | .gencodes => execGencodes_completes h
  | .wrTree => execWrTree_completes h
  | .rdTree => execRdTree_completes h
  | .wrHeader => execWrHeader_completes h
  | .rewind => execRewind_completes h
  | .encSym sym => execEncSym_completes h sym
  | .encode => execEncode_completes h
  | .close => completes_next h.outClose
  | .rdHeader => execRdHeader_completes h
  | .decSym => execDecSym_completes h
  | .decode => execDecode_completes h
  | .clrerr => completes_next h.clearError
  | .init => completes_next h.clearRegisters

/-- Settles O48: each command's guards answer a state that meets the invariant, and behind them the valid tree keeps the
walks of GENCODES, WR_TREE, DEC_SYM and DECODE from getting stuck. -/
theorem commandsComplete : Obligations.CommandsComplete := fun i _ h => exec_completes h i

end Sys2Proof.Machine
end

section
/-!
PROOFS of family 00_scope.md, O50: a command leaves the host's side and the input's bytes as they are, and the
parameters are constants of the machine (R6, R38, R39).
-/

namespace Sys2Proof.Machine

variable {s t : State}

/-! ### Commands -/

/-- The part of the state that no command writes: the parameters, the command word that runs, the host's actions and
observations, the bytes of the input. -/
def State.outside (s : State) : Params × Option Word × List HostAction × List Observation × List Byte :=
  (s.params, s.cmd, s.host, s.log, s.inBytes)

theorem raise_outside (s : State) (e : HccError) (op : BitVec 4) : (s.raise e op).outside = s.outside := by
  simp [State.outside]

theorem treeFailed_outside (s : State) (rest : Option (List Bool)) : (s.treeFailed rest).outside = s.outside := by
  simp [State.treeFailed, State.outside]

theorem outClose_outside (s : State) : s.outClose.outside = s.outside := by simp [State.outside]

theorem decoded_outside (s : State) : s.decoded.outside = s.outside := by simp [State.decoded, State.outside]

/-- Behind the errors it can raise, every command only updates registers, tables and port positions. -/
theorem exec_outside {i : Instr} (h : exec i s = .next t) : t.outside = s.outside := by
  cases i with
  | nop => cases h; rfl
  | count =>
    rcases execCount_next h with ⟨-, rfl⟩ | ⟨-, ⟨-, rfl⟩ | ⟨rest, -, rfl⟩⟩
    exacts [rfl, rfl, raise_outside _ _ _]
  | build =>
    rcases execBuild_next h with ⟨-, rfl⟩ | ⟨-, ⟨-, rfl⟩ | ⟨-, rfl⟩⟩
    exacts [rfl, raise_outside _ _ _, rfl]
  | gencodes =>
    rcases execGencodes_next h with ⟨-, rfl⟩ | ⟨-, ⟨-, rfl⟩ | ⟨-, tree, -, rfl⟩⟩
    exacts [rfl, raise_outside _ _ _, rfl]
  | wrTree =>
    rcases execWrTree_next h with ⟨-, rfl⟩ | ⟨-, ⟨-, rfl⟩ | ⟨-, ⟨-, rfl⟩ | ⟨-, tree, -, rfl⟩⟩⟩
    exacts [rfl, raise_outside _ _ _, raise_outside _ _ _, rfl]
  | rdTree =>
    rcases execRdTree_next h with ⟨-, rfl⟩ | ⟨-, ⟨rest, rfl, -⟩ | ⟨tree, rest, k, -, -, rfl⟩⟩
    exacts [rfl, treeFailed_outside _ _, rfl]
  | wrHeader =>
    rcases execWrHeader_next h with ⟨-, rfl⟩ | ⟨-, ⟨-, rfl⟩ | ⟨-, rfl⟩⟩
    exacts [rfl, raise_outside _ _ _, rfl]
  | rewind =>
    rcases execRewind_next h with ⟨-, rfl⟩ | ⟨-, rfl⟩
    exacts [rfl, rfl]
  | encSym sym =>
    rcases execEncSym_next h with
      ⟨-, rfl⟩ | ⟨-, ⟨-, rfl⟩ | ⟨-, ⟨-, rfl⟩ | ⟨-, ⟨-, rfl⟩ | ⟨-, ⟨-, rfl⟩ | ⟨-, rfl⟩⟩⟩⟩⟩
    exacts [rfl, raise_outside _ _ _, raise_outside _ _ _, raise_outside _ _ _, raise_outside _ _ _, rfl]
  | encode =>
    rcases execEncode_next h with
      ⟨-, rfl⟩ | ⟨-, ⟨-, rfl⟩ | ⟨-, ⟨-, rfl⟩ | ⟨-, ⟨rest, -, rfl⟩ | ⟨-, ⟨-, rfl⟩ | ⟨-, rfl⟩⟩⟩⟩⟩
    exacts [rfl, raise_outside _ _ _, raise_outside _ _ _, raise_outside _ _ _, rfl, raise_outside _ _ _]
  | close => cases h; exact outClose_outside s
  | rdHeader =>
    rcases execRdHeader_next h with ⟨-, rfl⟩ | ⟨-, ⟨-, rfl⟩ | ⟨v, rest, -, ⟨-, rfl⟩ | ⟨-, rfl⟩⟩⟩
    exacts [rfl, raise_outside _ _ _, rfl, raise_outside _ _ _]
  | decSym =>
    rcases execDecSym_next h with
      ⟨-, rfl⟩ | ⟨-, ⟨-, rfl⟩ | ⟨-, ⟨-, rfl⟩ | ⟨-, ⟨-, rfl⟩ | ⟨v, rest, -, ⟨-, rfl⟩ | ⟨-, rfl⟩⟩⟩⟩⟩
    exacts [rfl, raise_outside _ _ _, raise_outside _ _ _, raise_outside _ _ _, rfl, rfl]
  | decode =>
    rcases execDecode_next h with
      ⟨-, rfl⟩ | ⟨-, ⟨-, rfl⟩ | ⟨-, ⟨-, rfl⟩ | ⟨-, ⟨-, rfl⟩ | ⟨rest, -, rfl⟩⟩⟩⟩
    exacts [rfl, raise_outside _ _ _, raise_outside _ _ _,
      (raise_outside _ _ _).trans (decoded_outside s), decoded_outside s]
  | clrerr => cases h; rfl
  | init => cases h; rfl

/-! ### Steps -/

theorem mapNext_eq_next {f : State → State} {o : Outcome} (h : mapNext f o = .next t) : ∃ u, o = .next u ∧ t = f u := by
  cases o with
  | next u => cases h; exact ⟨u, rfl, rfl⟩
  | fault r => cases h
  | refused r => cases h

/-- What the execution of a word can do (R230, R239). -/
theorem execute_next {w : Word} (h : execute w s = .next t) :
    (∃ i, decode w = .ok i ∧ exec i s = .next t) ∨
      ((∃ e, decode w = .error e) ∧ t = s.raise .illegalCommand (wordOp w)) := by
  unfold execute at h
  split at h
  · exact .inl ⟨_, ‹_›, h⟩
  · cases h; exact .inr ⟨⟨_, ‹_›⟩, rfl⟩

/-- What a step can do: the running word ends, the host acts, or nothing is left to do (R12). -/
theorem step_next (h : step s = .next t) :
    (∃ w u, s.coreTurn = some w ∧ execute w s = .next u ∧ t = u.commandEnd) ∨ s.coreTurn = none ∧
      ((s.host = [] ∧ t = s) ∨ ∃ a rest, s.host = a :: rest ∧ hostAct a { s with host := rest } = .next t) := by
  unfold step at h
  split at h
  · obtain ⟨u, hu, rfl⟩ := mapNext_eq_next h
    exact .inl ⟨_, u, ‹_›, hu, rfl⟩
  · refine .inr ⟨‹_›, ?_⟩
    unfold hostTurn at h
    split at h
    · cases h; exact .inl ⟨‹_›, rfl⟩
    · exact .inr ⟨_, _, ‹_›, h⟩

/-- An access that is answered is a defined one (R82). -/
theorem busAccess_next {addr width : Nat} {run : Nat → Outcome} (h : busAccess s addr width run = .next t) :
    run (addr - s.params.base) = .next t := by
  rcases busAccess_cases s addr width run with ⟨-, hb⟩ | ⟨-, -, ⟨-, -, hb⟩ | ⟨-, hb⟩⟩ <;> rw [hb] at h
  · cases h
  · exact h
  · cases h

/-- A stream action that is answered came while BUSY = 0 (R78). -/
theorem whenIdle_next {run : Outcome} (h : whenIdle s run = .next t) : s.busy = false ∧ run = .next t := by
  unfold whenIdle at h
  split at h
  · cases h
  · exact ⟨by simpa using ‹¬ s.busy = true›, h⟩

/-! ### The parameters -/

theorem execute_params {w : Word} (h : execute w s = .next t) : t.params = s.params := by
  rcases execute_next h with ⟨i, -, h⟩ | ⟨-, rfl⟩
  · exact congrArg Prod.fst (exec_outside h)
  · exact State.raise_params s _ _

theorem busWrite_params (s : State) (off : Nat) (v : Word) : (s.busWrite off v).params = s.params := by
  unfold State.busWrite
  split
  · split <;> rfl
  · rfl

theorem busRead_params (s : State) (addr off : Nat) : (s.busRead addr off).params = s.params := by
  unfold State.busRead
  split <;> rfl

theorem assertReset_params (h : assertReset s = .next t) : t.params = s.params := by
  cases hc : s.cmd with
  | none => rw [assertReset_idle hc] at h; cases h; rfl
  | some w => rw [assertReset_running hc] at h; cases h; exact State.accesses_params s _

theorem hostAct_params {a : HostAction} (h : hostAct a s = .next t) : t.params = s.params := by
  cases a with
  | write addr width v =>
    cases busAccess_next (run := fun off => .next (s.busWrite off v)) h
    exact busWrite_params s _ v
  | read addr width =>
    cases busAccess_next (run := fun off => .next (s.busRead addr off)) h
    exact busRead_params s addr _
  | wait => cases h; rfl
  | attachInput bytes => obtain ⟨-, h⟩ := whenIdle_next h; cases h; rfl
  | attachOutput => obtain ⟨-, h⟩ := whenIdle_next h; cases h; rfl
  | takeOutput => obtain ⟨-, h⟩ := whenIdle_next h; cases h; rfl
  | assertReset => exact assertReset_params h

theorem step_params (h : step s = .next t) : t.params = s.params := by
  rcases step_next h with ⟨w, u, -, hu, rfl⟩ | ⟨-, ⟨-, rfl⟩ | ⟨a, rest, -, ha⟩⟩
  · exact (State.commandEnd_params u).trans (execute_params hu)
  · rfl
  · exact (hostAct_params ha :)

/-- Settles O50, from what each command leaves outside its registers, tables and ports, and from the cases of a step. -/
theorem parametersAreConstant : Obligations.ParametersAreConstant := by
  refine ⟨fun i s t h => ?_, fun s t => step_params⟩
  simpa only [State.outside, Prod.mk.injEq] using exec_outside h

end Sys2Proof.Machine
end

section
/-!
PROOFS of family 10_state.md, O47: every step keeps the invariant. A command keeps it because it completes in a state that
meets it (O48), and the invariant does not mention what most host actions change. The work is in the reset input that
abandons a command: the accesses made so far must not leave a closed output with part of a byte (R75, R260).
-/

namespace Sys2Proof.Machine

variable {s t : State}

/-! ### Commands -/

theorem exec_keeps_inv {i : Instr} (h : Inv s) (he : exec i s = .next t) : Inv t := by
  obtain ⟨u, hu, hi⟩ := exec_completes h i
  rw [he] at hu
  cases hu
  exact hi

/-- A word that is executed is a command or raises ILLEGAL_COMMAND (R230, R239). -/
theorem execute_keeps_inv {w : Word} (h : Inv s) (he : execute w s = .next t) : Inv t := by
  rcases execute_next he with ⟨i, -, he⟩ | ⟨-, rfl⟩
  · exact exec_keeps_inv h he
  · exact h.raise _ _

/-! ### Port accesses of an abandoned command -/

/-- An access that a closed output survives: it closes nothing, and writes nothing where the output is closed. -/
def PortAccess.Fits (closed : Bool) (a : PortAccess) : Prop := a ≠ .close ∧ (closed = true → a.written = [])

theorem fits_read (closed : Bool) (n : Nat) : (PortAccess.read n).Fits closed := ⟨nofun, fun _ => rfl⟩

theorem fits_rewind (closed : Bool) : PortAccess.rewind.Fits closed := ⟨nofun, fun _ => rfl⟩

theorem fits_write {closed : Bool} (h : closed = false) (n v : Nat) : (PortAccess.write n v).Fits closed :=
  ⟨nofun, fun hc => by rw [h] at hc; cases hc⟩

/-- A command that checks OUT_CLOSED makes its accesses on an open output (R232). -/
theorem accessesIf_open_mem {flag : Bool} {list : List PortAccess} {a : PortAccess}
    (h : a ∈ s.accessesIf (flag && !s.outClosed) list) : s.outClosed = false ∧ a ∈ list := by
  obtain ⟨-, hok, ha⟩ := accessesIf_mem h
  obtain ⟨-, ho⟩ := Bool.and_eq_true_iff.mp hok
  exact ⟨by simpa using ho, ha⟩

/-- Every command but CLOSE makes only accesses that a closed output survives: the commands that write check OUT_CLOSED first (R232). -/
theorem commandAccesses_fit {i : Instr} {a : PortAccess} (hi : i ≠ .close) (ha : a ∈ commandAccesses i s) :
    a.Fits s.outClosed := by
  cases i with
  | nop | build | gencodes | clrerr | init => cases ha
  | close => exact absurd rfl hi
  | count =>
    obtain ⟨-, -, ha⟩ := accessesIf_mem ha
    rw [count_mem ha]
    exact fits_read _ _
  | rdTree =>
    obtain ⟨-, -, ha⟩ := accessesIf_mem ha
    rcases rdTree_mem ha with rfl | rfl <;> exact fits_read _ _
  | rewind =>
    obtain ⟨-, -, ha⟩ := accessesIf_mem ha
    rw [List.mem_singleton.mp ha]
    exact fits_rewind _
  | rdHeader =>
    obtain ⟨-, -, ha⟩ := accessesIf_mem ha
    rw [List.mem_singleton.mp ha]
    exact fits_read _ _
  | wrTree =>
    obtain ⟨ho, ha⟩ := accessesIf_open_mem ha
    cases ht : s.tree with
    | none => rw [ht] at ha; cases ha
    | some tree =>
      rw [ht] at ha
      obtain ⟨n, v, rfl, -⟩ := writes_mem ha
      exact fits_write ho _ _
  | wrHeader =>
    obtain ⟨-, ho, ha⟩ := accessesIf_mem ha
    rw [List.mem_singleton.mp ha]
    exact fits_write (by simpa using ho) _ _
  | encSym sym =>
    obtain ⟨ho, ha⟩ := accessesIf_open_mem ha
    obtain ⟨v, rfl⟩ := encSym_mem ha
    exact fits_write ho _ _
  | encode =>
    obtain ⟨ho, ha⟩ := accessesIf_open_mem ha
    rcases encode_mem ha with rfl | ⟨v, rfl⟩
    exacts [fits_read _ _, fits_write ho _ _]
  | decSym =>
    obtain ⟨ho, ha⟩ := accessesIf_open_mem ha
    rcases decSym_mem ha with rfl | ⟨v, rfl⟩
    exacts [fits_read _ _, fits_write ho _ _]
  | decode =>
    obtain ⟨ho, ha⟩ := accessesIf_open_mem ha
    rcases decode_mem ha with rfl | ⟨v, rfl⟩
    exacts [fits_read _ _, fits_write ho _ _]

/-- The part of the invariant that says the output, once closed, is a whole number of bytes (R75). -/
def State.WholeIfClosed (s : State) : Prop := s.outClosed = true → s.outBits.length % 8 = 0

/-- Accesses that fit leave a closed output as it is. -/
theorem accesses_whole (h : s.WholeIfClosed) {list : List PortAccess} (hf : ∀ a ∈ list, a.Fits s.outClosed) :
    (s.accesses list).WholeIfClosed := by
  obtain ⟨hbits, hclosed⟩ := accesses_out s fun hm => (hf _ hm).1 rfl
  intro hc
  rw [hclosed] at hc
  rw [hbits, List.flatMap_eq_nil_iff.mpr fun a ha => (hf a ha).2 hc, List.append_nil]
  exact h hc

/-- A first part of what CLOSE does: nothing, or the close (R75, R79). -/
theorem accesses_close_whole (h : s.WholeIfClosed) (n : Nat) :
    (s.accesses ([PortAccess.close].take n)).WholeIfClosed := by
  cases n with
  | zero => exact h
  | succ n =>
    rw [List.take_succ_cons, List.take_nil]
    exact fun _ => outClose_whole s h

/-- However far the command of a word had come, a closed output is a whole number of bytes (R79, R260). -/
theorem wordAccesses_whole (h : s.WholeIfClosed) (w : Word) (n : Nat) :
    (s.accesses ((wordAccesses w s).take n)).WholeIfClosed := by
  unfold wordAccesses
  split
  · rename_i i _
    by_cases hi : i = .close
    · rw [hi]
      exact accesses_close_whole h n
    · exact accesses_whole h fun a ha => commandAccesses_fit hi (List.mem_of_mem_take ha)
  · rw [List.take_nil]
    exact h

/-! ### The host's actions -/

theorem Inv.hardReset (h : Inv s) : Inv s.hardReset := hardReset_inv h.inPos h.closed

/-- The reset state over the ports an abandoned command leaves (R260). -/
theorem Inv.abandonReset (h : Inv s) (w : Word) : Inv (s.abandon w).hardReset :=
  hardReset_inv (accesses_within _ h.inPos) (wordAccesses_whole h.closed w _)

theorem assertReset_keeps_inv (h : Inv s) (ha : assertReset s = .next t) : Inv t := by
  cases hc : s.cmd with
  | none => rw [assertReset_idle hc] at ha; cases ha; exact h.hardReset
  | some w => rw [assertReset_running hc] at ha; cases ha; exact h.abandonReset w

/-- The invariant does not mention CMD and OVR. -/
theorem Inv.busWrite (h : Inv s) (off : Nat) (v : Word) : Inv (s.busWrite off v) := by
  unfold State.busWrite
  split
  · split
    · exact { h with }
    · exact { h with }
  · exact h

/-- The invariant does not mention what the host has been given. -/
theorem Inv.busRead (h : Inv s) (addr off : Nat) : Inv (s.busRead addr off) := by
  unfold State.busRead
  split
  · exact { h with }
  · exact { h with }

theorem Inv.attachInput (h : Inv s) (bytes : List Byte) : Inv (s.attachInput bytes) :=
  { h with inPos := Nat.zero_le _ }

theorem Inv.attachOutput (h : Inv s) : Inv s.attachOutput := { h with closed := nofun }

theorem Inv.takeOutput (h : Inv s) : Inv s.takeOutput := { h with }

theorem hostAct_keeps_inv {a : HostAction} (h : Inv s) (ha : hostAct a s = .next t) : Inv t := by
  cases a with
  | write addr width v =>
    cases busAccess_next (run := fun off => .next (s.busWrite off v)) ha
    exact h.busWrite _ v
  | read addr width =>
    cases busAccess_next (run := fun off => .next (s.busRead addr off)) ha
    exact h.busRead addr _
  | wait => cases ha; exact h
  | attachInput bytes => obtain ⟨-, ha⟩ := whenIdle_next ha; cases ha; exact h.attachInput bytes
  | attachOutput => obtain ⟨-, ha⟩ := whenIdle_next ha; cases ha; exact h.attachOutput
  | takeOutput => obtain ⟨-, ha⟩ := whenIdle_next ha; cases ha; exact h.takeOutput
  | assertReset => exact assertReset_keeps_inv h ha

/-- The invariant does not mention the host's remaining actions. -/
theorem Inv.withHost (h : Inv s) (rest : List HostAction) : Inv { s with host := rest } := { h with }

/-- Settles O47, by the cases of a step: the running word, or one action of the host. -/
theorem stepKeepsInvariant : Obligations.StepKeepsInvariant := by
  intro s t h hstep
  rcases step_next hstep with ⟨w, u, -, hu, rfl⟩ | ⟨-, ⟨-, rfl⟩ | ⟨a, rest, -, ha⟩⟩
  · exact (execute_keeps_inv h hu).commandEnd
  · exact h
  · exact hostAct_keeps_inv (h.withHost rest) ha

end Sys2Proof.Machine
end

section
/-!
PROOFS of family 10_state.md, O28: the slots below ROOT after BUILD hold a legal tree over exactly the symbols with a count (R22,
R141, R144).
-/

namespace Sys2Proof.Machine

/-- A symbol has a leaf exactly if it has a count (R141). -/
theorem mem_symsOf_map {freq : Vector Word 257} {sym : Nat} (h : sym < 257) :
    BitVec.ofNat 9 sym ∈ (symsOf freq).map (fun sym => BitVec.ofNat 9 sym) ↔ (freq[sym]?).getD 0 ≠ 0 := by
  have hmem : sym ∈ symsOf freq ↔ (freq[sym]?).getD 0 ≠ 0 := by simp [symsOf, h]
  rw [← hmem, List.mem_map]
  constructor
  · rintro ⟨sym', hs, heq⟩
    have hlt := List.mem_range.mp (List.mem_filter.mp hs).1
    have hnat := congrArg BitVec.toNat heq
    simp only [BitVec.toNat_ofNat] at hnat
    rwa [show sym = sym' by omega]
  · exact fun hs => ⟨sym, hs, rfl⟩

/-- Settles O28, from the tree of the slots that BUILD fills. -/
theorem buildHoldsTheTree : Obligations.BuildHoldsTheTree := by
  intro s t h he hv hexec
  have hb : t = s.built := by
    rcases execBuild_next hexec with ⟨herr, -⟩ | ⟨-, ⟨hno, -⟩ | ⟨-, hb⟩⟩
    · rw [he] at herr; cases herr
    · rw [hv] at hno; cases hno
    · exact hb
  obtain ⟨tree, htree, hshape, hcount, hperm⟩ := built_tree s (h.freq hv).1
  rw [hb]
  refine ⟨tree, htree, hshape, hperm.nodup_iff.mpr (symsOf_nodup s.freq), hcount, fun sym hsym => ?_⟩
  rw [hperm.mem_iff, mem_symsOf_map hsym]

end Sys2Proof.Machine
end

section
/-!
PROOFS of family 10_state.md, O51 and O52: who may write a table, a result register or a flag. One frame rule says it for every
command at once; O51 and the first half of O52 read it off item by item.
-/

namespace Sys2Proof.Machine

variable {s t : State}

/-! ### What a command may write -/

/-- What of the state the rules R28 to R45 of spec/10_state.md name writers for: the tables, the result registers, and
the flags of STATUS but ERR, OUT_CLOSED and BUSY. -/
structure Contents where
  freq : Vector Word 257
  node : Vector Node 513
  code : Vector CodeEntry 257
  result : Symbol × Bool
  total : Word
  tree : BitVec 10 × BitVec 10
  freqValid : Bool
  treeValid : Bool
  codesValid : Bool
  eofSeen : Bool
  ovr : Bool

/-- The items of a state. -/
def State.contents (s : State) : Contents where
  freq := s.freq
  node := s.node
  code := s.code
  result := (s.resultSym, s.resultValid)
  total := s.total
  tree := (s.root, s.nodeCount)
  freqValid := s.freqValid
  treeValid := s.treeValid
  codesValid := s.codesValid
  eofSeen := s.eofSeen
  ovr := s.ovr

/-- Each item of `old`, replaced by that of `new` where the command is one of its writers. -/
def Contents.writtenBy (i : Instr) (old new : Contents) : Contents where
  freq := if i = .count then new.freq else old.freq
  node := if i = .build ∨ i = .rdTree then new.node else old.node
  code := if i = .gencodes then new.code else old.code
  result := if i = .decSym ∨ i = .decode ∨ i = .init then new.result else old.result
  total := if i = .count ∨ i = .init then new.total else old.total
  tree := if i = .build ∨ i = .rdTree ∨ i = .init then new.tree else old.tree
  freqValid := if i = .count ∨ i = .init then new.freqValid else old.freqValid
  treeValid := if i = .build ∨ i = .rdTree ∨ i = .init then new.treeValid else old.treeValid
  codesValid := if i = .gencodes ∨ i = .build ∨ i = .rdTree ∨ i = .init then new.codesValid else old.codesValid
  eofSeen := if i = .decSym ∨ i = .decode ∨ i = .build ∨ i = .rdTree ∨ i = .init then new.eofSeen else old.eofSeen
  ovr := if i = .clrerr ∨ i = .init then new.ovr else old.ovr

theorem raise_contents (s : State) (e : HccError) (op : BitVec 4) : (s.raise e op).contents = s.contents := by
  simp [State.contents]

/-- Raising an error writes no item. -/
theorem raise_writtenBy {i : Instr} (h : t.contents = s.contents.writtenBy i t.contents) (e : HccError) (op : BitVec 4) :
    (t.raise e op).contents = s.contents.writtenBy i (t.raise e op).contents := by
  rw [raise_contents]
  exact h

/-- Closing the output writes no item. -/
theorem outClose_contents (s : State) : s.outClose.contents = s.contents := by simp [State.contents]

theorem inAfter_contents (s : State) (rest : Option (List Bool)) : (s.inAfter rest).contents = s.contents := by
  simp [State.contents]

/-- DECODE's loop writes RESULT and EOF_SEEN alone (R31, R35). -/
theorem decoded_writtenBy (s : State) :
    s.decoded.contents = s.contents.writtenBy .decode s.decoded.contents := by
  simp [State.contents, State.decoded, Contents.writtenBy]

/-- Every command writes only what it is a writer of, also where it is ignored or raises an error. -/
theorem exec_contents {i : Instr} (h : exec i s = .next t) : t.contents = s.contents.writtenBy i t.contents := by
  cases i with
  | nop => cases h; rfl
  | count =>
    rcases execCount_next h with ⟨-, rfl⟩ | ⟨-, ⟨-, rfl⟩ | ⟨rest, -, rfl⟩⟩
    exacts [rfl, rfl, raise_writtenBy rfl _ _]
  | build =>
    rcases execBuild_next h with ⟨-, rfl⟩ | ⟨-, ⟨-, rfl⟩ | ⟨-, rfl⟩⟩
    exacts [rfl, raise_writtenBy rfl _ _, rfl]
  | gencodes =>
    rcases execGencodes_next h with ⟨-, rfl⟩ | ⟨-, ⟨-, rfl⟩ | ⟨-, tree, -, rfl⟩⟩
    exacts [rfl, raise_writtenBy rfl _ _, rfl]
  | wrTree =>
    rcases execWrTree_next h with ⟨-, rfl⟩ | ⟨-, ⟨-, rfl⟩ | ⟨-, ⟨-, rfl⟩ | ⟨-, tree, -, rfl⟩⟩⟩
    exacts [rfl, raise_writtenBy rfl _ _, raise_writtenBy rfl _ _, rfl]
  | rdTree =>
    rcases execRdTree_next h with ⟨-, rfl⟩ | ⟨-, ⟨rest, rfl, -⟩ | ⟨tree, rest, k, -, -, rfl⟩⟩
    exacts [rfl, raise_writtenBy (by rw [inAfter_contents]; rfl) _ _, rfl]
  | wrHeader =>
    rcases execWrHeader_next h with ⟨-, rfl⟩ | ⟨-, ⟨-, rfl⟩ | ⟨-, rfl⟩⟩
    exacts [rfl, raise_writtenBy rfl _ _, rfl]
  | rewind =>
    rcases execRewind_next h with ⟨-, rfl⟩ | ⟨-, rfl⟩
    exacts [rfl, rfl]
  | encSym sym =>
    rcases execEncSym_next h with
      ⟨-, rfl⟩ | ⟨-, ⟨-, rfl⟩ | ⟨-, ⟨-, rfl⟩ | ⟨-, ⟨-, rfl⟩ | ⟨-, ⟨-, rfl⟩ | ⟨-, rfl⟩⟩⟩⟩⟩
    exacts [rfl, raise_writtenBy rfl _ _, raise_writtenBy rfl _ _, raise_writtenBy rfl _ _, raise_writtenBy rfl _ _, rfl]
  | encode =>
    rcases execEncode_next h with
      ⟨-, rfl⟩ | ⟨-, ⟨-, rfl⟩ | ⟨-, ⟨-, rfl⟩ | ⟨-, ⟨rest, -, rfl⟩ | ⟨-, ⟨-, rfl⟩ | ⟨-, rfl⟩⟩⟩⟩⟩
    exacts [rfl, raise_writtenBy rfl _ _, raise_writtenBy rfl _ _, raise_writtenBy rfl _ _, rfl, raise_writtenBy rfl _ _]
  | close => cases h; rw [outClose_contents]; rfl
  | rdHeader =>
    rcases execRdHeader_next h with ⟨-, rfl⟩ | ⟨-, ⟨-, rfl⟩ | ⟨v, rest, -, ⟨-, rfl⟩ | ⟨-, rfl⟩⟩⟩
    exacts [rfl, raise_writtenBy rfl _ _, rfl, raise_writtenBy rfl _ _]
  | decSym =>
    rcases execDecSym_next h with
      ⟨-, rfl⟩ | ⟨-, ⟨-, rfl⟩ | ⟨-, ⟨-, rfl⟩ | ⟨-, ⟨-, rfl⟩ | ⟨v, rest, -, ⟨-, rfl⟩ | ⟨-, rfl⟩⟩⟩⟩⟩
    exacts [rfl, raise_writtenBy rfl _ _, raise_writtenBy rfl _ _, raise_writtenBy rfl _ _, rfl, rfl]
  | decode =>
    rcases execDecode_next h with
      ⟨-, rfl⟩ | ⟨-, ⟨-, rfl⟩ | ⟨-, ⟨-, rfl⟩ | ⟨-, ⟨-, rfl⟩ | ⟨rest, -, rfl⟩⟩⟩⟩
    · rfl
    · exact raise_writtenBy rfl _ _
    · exact raise_writtenBy rfl _ _
    · exact raise_writtenBy (s := s) (t := s.decoded.inToEnd) (decoded_writtenBy s) _ _
    · simp [State.contents, State.decoded, Contents.writtenBy]
  | clrerr => cases h; rfl
  | init => cases h; rfl

/-! ### Tables and result registers -/

/-- Settles O51, item by item, from what each command may write. -/
theorem tablesHaveOneWriter : Obligations.TablesHaveOneWriter := by
  intro i s t h
  have hc := exec_contents h
  refine ⟨fun h1 => ?_, fun h1 h2 => ?_, fun h1 => ?_, fun h1 h2 h3 => ?_, fun h1 h2 => ?_, fun h1 h2 h3 => ?_⟩
  · simpa [Contents.writtenBy, State.contents, h1] using congrArg Contents.freq hc
  · simpa [Contents.writtenBy, State.contents, h1, h2] using congrArg Contents.node hc
  · simpa [Contents.writtenBy, State.contents, h1] using congrArg Contents.code hc
  · simpa [Contents.writtenBy, State.contents, h1, h2, h3] using congrArg Contents.result hc
  · simpa [Contents.writtenBy, State.contents, h1, h2] using congrArg Contents.total hc
  · simpa [Contents.writtenBy, State.contents, h1, h2, h3] using congrArg Contents.tree hc

/-! ### Commands that end without an error -/

/-- Where COUNT raises nothing, it has counted the whole input (R130). -/
theorem execCount_succeeds (he : s.err = false) (h : execCount s = .next t) (ht : t.err = false) : t.freqValid = true := by
  rcases execCount_next h with ⟨h, -⟩ | ⟨-, ⟨-, rfl⟩ | ⟨rest, -, rfl⟩⟩
  · rw [he] at h; cases h
  · rfl
  · simp at ht

/-- Where BUILD raises nothing, it has run (R140). -/
theorem execBuild_succeeds (he : s.err = false) (h : execBuild s = .next t) (ht : t.err = false) : t = s.built := by
  rcases execBuild_next h with ⟨h, -⟩ | ⟨-, ⟨-, rfl⟩ | ⟨-, hb⟩⟩
  · rw [he] at h; cases h
  · simp at ht
  · exact hb

/-- Where GENCODES raises nothing, it has run (R150). -/
theorem execGencodes_succeeds (he : s.err = false) (h : execGencodes s = .next t) (ht : t.err = false) :
    t.codesValid = true := by
  rcases execGencodes_next h with ⟨h, -⟩ | ⟨-, ⟨-, rfl⟩ | ⟨-, tree, -, rfl⟩⟩
  · rw [he] at h; cases h
  · simp at ht
  · rfl

/-- Where RD_TREE raises nothing, it has read a tree (R164). -/
theorem execRdTree_succeeds (he : s.err = false) (h : execRdTree s = .next t) (ht : t.err = false) :
    ∃ tree rest, t = s.treeRead tree rest := by
  rcases execRdTree_next h with ⟨h, -⟩ | ⟨-, ⟨rest, rfl, -⟩ | ⟨tree, rest, k, -, -, ht⟩⟩
  · rw [he] at h; cases h
  · simp [State.treeFailed] at ht
  · exact ⟨tree, rest, ht⟩

/-- Where DEC_SYM raises nothing, EOF_SEEN says whether its symbol is the sentinel (R31, R203). -/
theorem execDecSym_succeeds (he : s.err = false) (h : execDecSym s = .next t) (ht : t.err = false) :
    t.eofSeen = true ↔ t.resultSym = eofSym := by
  rcases execDecSym_next h with
    ⟨h, -⟩ | ⟨-, ⟨-, rfl⟩ | ⟨-, ⟨-, rfl⟩ | ⟨-, ⟨-, rfl⟩ | ⟨v, rest, -, ⟨hv, rfl⟩ | ⟨hv, rfl⟩⟩⟩⟩⟩
  · rw [he] at h; cases h
  · simp at ht
  · simp at ht
  · simp at ht
  · simp [State.symbolDecoded, hv]
  · simp [State.symbolDecoded, hv]

/-- Where DECODE raises nothing, the sentinel is its last symbol (R31, R206). -/
theorem execDecode_sentinel (he : s.err = false) (h : execDecode s = .next t) (ht : t.err = false) :
    t.eofSeen = true ∧ t.resultSym = eofSym := by
  obtain ⟨-, -, rest, hstop, rfl⟩ := execDecode_succeeds he h ht
  have hlast : s.decodeRun.last = some eofSym := decodeLoop_sentinel hstop
  exact ⟨rfl, by simp [State.decoded, hlast, State.setLast]⟩

/-! ### Flags -/

/-- Settles O52: who may write a flag, from what each command may write; what a successful writer leaves, from how it can
end without an error. -/
theorem flagsFollowTheirRules : Obligations.FlagsFollowTheirRules := by
  intro i s t h
  have hc := exec_contents h
  refine ⟨fun h1 h2 => ?_, fun h1 h2 h3 => ?_, fun h1 h2 h3 h4 => ?_, fun h1 h2 h3 h4 h5 => ?_, fun h1 h2 => ?_,
    fun ht he => ⟨?_, ?_, ?_, ?_⟩, ?_, ?_⟩
  · simpa [Contents.writtenBy, State.contents, h1, h2] using congrArg Contents.freqValid hc
  · simpa [Contents.writtenBy, State.contents, h1, h2, h3] using congrArg Contents.treeValid hc
  · simpa [Contents.writtenBy, State.contents, h1, h2, h3, h4] using congrArg Contents.codesValid hc
  · simpa [Contents.writtenBy, State.contents, h1, h2, h3, h4, h5] using congrArg Contents.eofSeen hc
  · simpa [Contents.writtenBy, State.contents, h1, h2] using congrArg Contents.ovr hc
  · rintro rfl
    exact execCount_succeeds he h ht
  · rintro (rfl | rfl)
    · rw [execBuild_succeeds he h ht]
      exact ⟨rfl, rfl⟩
    · obtain ⟨tree, rest, rfl⟩ := execRdTree_succeeds he h ht
      exact ⟨rfl, rfl⟩
  · rintro rfl
    exact execGencodes_succeeds he h ht
  · rintro (rfl | rfl)
    · exact execDecSym_succeeds he h ht
    · obtain ⟨heof, hres⟩ := execDecode_sentinel he h ht
      exact ⟨fun _ => hres, fun _ => heof⟩
  · rintro rfl
    cases h
    exact ⟨rfl, rfl, rfl, rfl⟩
  · rintro (rfl | rfl)
    · cases h; rfl
    · cases h; rfl

end Sys2Proof.Machine
end

section
/-!
PROOFS of family 10_state.md, O57 and O58: what the registers and the windows show, field by field (R25, R34 to R39, R41, R43,
R46).
-/

namespace Sys2Proof.Machine

variable {s : State}

/-! ### Registers -/

/-- A flag put below a word is its bit 0 (R25). -/
theorem append_ofBool {w : Nat} (v : BitVec w) (b : Bool) : v ++ BitVec.ofBool b = v.concat b := rfl

theorem concat_lt {w k : Nat} {v : BitVec w} {b : Bool} (h : v.toNat < 2 ^ k) : (v.concat b).toNat < 2 ^ (k + 1) := by
  have := b.toNat_le
  rw [BitVec.toNat_concat]
  omega

/-- STATUS bit by bit (R25). -/
theorem status_bits (s : State) :
    (List.range 8).map s.status.getLsbD =
      [s.busy, s.err, s.freqValid, s.treeValid, s.codesValid, s.eofSeen, s.outClosed, s.ovr] := by
  simp only [List.range, List.range.loop, List.map_cons, List.map_nil, State.status, append_ofBool,
    BitVec.getLsbD_concat_zero, BitVec.getLsbD_concat_succ]

/-- STATUS has no flag above bit 7 (R25). -/
theorem status_lt (s : State) : s.status.toNat < 2 ^ 8 := by
  have h0 : (0#24).toNat < 2 ^ 0 := by decide
  simp only [State.status, append_ofBool]
  exact concat_lt <| concat_lt <| concat_lt <| concat_lt <| concat_lt <| concat_lt <| concat_lt <| concat_lt h0

/-- The fields of ERROR (R34). -/
theorem errorWord_toNat (s : State) : s.errorWord.toNat = s.errorCode.toNat + 256 * s.errorOp.toNat := by
  simp only [State.errorWord, append_toNat, BitVec.toNat_ofNat]
  omega

/-- The fields of RESULT (R35). -/
theorem resultWord_toNat (s : State) : s.resultWord.toNat = s.resultSym.toNat + 2 ^ 31 * s.resultValid.toNat := by
  simp only [State.resultWord, append_toNat, BitVec.toNat_ofBool, BitVec.toNat_ofNat]
  omega

/-- The fields of TREE (R37). -/
theorem treeWord_toNat (s : State) : s.treeWord.toNat = s.root.toNat + 2 ^ 16 * s.nodeCount.toNat := by
  simp only [State.treeWord, append_toNat, BitVec.toNat_ofNat]
  omega

/-- PARAM holds W_FREQ, which is at most 32 (R39). -/
theorem paramWord_toNat (s : State) : s.paramWord.toNat = s.params.wFreq.val := by
  obtain ⟨-, hw⟩ := s.params.wFreq.property
  rw [State.paramWord, BitVec.toNat_ofNat]
  omega

/-- Settles O57, register by register. -/
theorem registerFields : Obligations.RegisterFields := fun s =>
  ⟨status_bits s, status_lt s, errorWord_toNat s, resultWord_toNat s, fun h => cut_of_lt _ h, treeWord_toNat s, rfl,
    paramWord_toNat s⟩

/-! ### Windows -/

/-- The FREQ window shows the count (R41). -/
theorem freqWindow_eq (h : Inv s) {sym : Nat} (hs : sym < 257) : s.freqWindow sym = s.freq[sym] := by
  rw [State.freqWindow, Vector.getElem?_eq_getElem hs]
  exact cut_of_lt _ (h.counts sym hs)

/-- The CODE window shows VALID and LEN while CODES_VALID = 1 (R46). -/
theorem codeWindow_toNat (hv : s.codesValid = true) (off : Nat) {sym : Nat} (h : sym < 257) :
    (s.codeWindow off sym).toNat = s.code[sym].len.toNat + 2 ^ 31 * s.code[sym].valid.toNat := by
  simp only [State.codeWindow, hv, if_true, codeOf_eq h, append_toNat, BitVec.toNat_ofBool, BitVec.toNat_ofNat]
  omega

/-- The CODEBITS window shows BITS while CODES_VALID = 1 (R46). -/
theorem codeBitsWindow_getLsbD (hv : s.codesValid = true) (off : Nat) {sym k j : Nat} (h : sym < 257) (hj : j < 32) :
    (s.codeBitsWindow off sym k).getLsbD j = s.code[sym].bits.getLsbD (32 * k + j) := by
  simp [State.codeBitsWindow, hv, codeOf_eq h, hj]

/-- The fields of a NODE slot's second word (R43). -/
theorem Node.word_toNat (n : Node) :
    n.word.toNat = n.left.toNat + 2 ^ 10 * n.right.toNat + 2 ^ 20 * n.sym.toNat + 2 ^ 31 * n.leaf.toNat := by
  simp only [Node.word, append_toNat, BitVec.toNat_ofBool, BitVec.toNat_ofNat]
  omega

/-- The NODE window of a slot of a valid tree (R43). -/
theorem nodeWindow_valid (hv : s.treeValid = true) {i : Nat} (h : i < 513) (hi : i < s.nodeCount.toNat) (off : Nat)
    (second : Bool) :
    s.nodeWindow off i second = if second then s.node[i].word else s.params.cut s.node[i].weight.toNat := by
  simp [State.nodeWindow, h, hv, hi]

/-- Settles O58, window by window, from the register map. -/
theorem windowsShowTheTables : Obligations.WindowsShowTheTables := by
  intro s h
  refine ⟨fun sym hs => ?_, fun hv sym hs => ⟨?_, fun k j hk hj => ?_⟩, fun hv i hi hc => ⟨?_, ?_⟩⟩
  · rw [readWord_freq s hs, freqWindow_eq h hs]
  · rw [readWord_code s hs, codeWindow_toNat hv _ hs]
  · rw [readWord_codeBits s hs hk, codeBitsWindow_getLsbD hv _ hs hj]
  · rw [readWord_nodeWeight s hi, nodeWindow_valid hv hi hc]
    exact cut_of_lt _ (h.weights i hi)
  · rw [readWord_nodeLinks s hi, nodeWindow_valid hv hi hc]
    exact s.node[i].word_toNat

end Sys2Proof.Machine
end

section
/-!
PROOFS of family 20_memory.md, O12 and O14: the order of the bits in the input port's reads and in the bytes of a stream
(R72, R76).
-/

namespace Sys2Proof.Machine

/-! ### The input port -/

/-- Bit k of what remains of the input is bit 7 - p mod 8 of byte p div 8, for p = inPos + k (R72, R76). -/
theorem inRest_getElem? (s : State) {k : Nat} (h : s.inPos + k < 8 * s.inBytes.length) :
    s.inRest[k]? = some (((s.inBytes[(s.inPos + k) / 8]?).getD 0).getLsbD (7 - (s.inPos + k) % 8)) := by
  have hbyte : (s.inPos + k) / 8 < s.inBytes.length := by omega
  rw [State.inRest, List.getElem?_drop, List.getElem?_eq_getElem (by rwa [streamBits_length]), streamBits_getElem,
    List.getElem?_eq_getElem hbyte, Option.getD_some]

/-- InRead(n) answers EOS where fewer than n bits remain (R72). -/
theorem inRead_eos {n : Nat} {bits : List Bool} (h : bits.length < n) : inRead n bits = none := if_pos h

/-- InRead(n) takes the next n bits where they are there (R72). -/
theorem inRead_field {n : Nat} {bits : List Bool} (h : n ≤ bits.length) :
    ∃ field rest, bits = field ++ rest ∧ field.length = n ∧ inRead n bits = some (bitsValue field, rest) :=
  (inRead_cases n bits).resolve_left fun hshort => Nat.not_lt.mpr h hshort.1

/-- Settles O12: the value read is that of the next n bits, and each of these is a bit of the input's bytes. -/
theorem inputIsReadMostSignificantFirst : Obligations.InputIsReadMostSignificantFirst := by
  intro s n hn
  have hlen : s.inRest.length = 8 * s.inBytes.length - s.inPos := inRest_length s
  refine ⟨fun hfits => ?_, fun hshort => ⟨inRead_eos (by omega), rfl⟩⟩
  obtain ⟨field, rest, hsplit, rfl, hread⟩ := inRead_field (n := n) (bits := s.inRest) (by omega)
  refine ⟨bitsValue field, rest, hread, bitsValue_lt field, fun k hk => ?_, inRest_inAdvance s hsplit⟩
  have hbit := inRest_getElem? s (k := k) (by omega)
  rw [hsplit, List.getElem?_append_left hk, List.getElem?_eq_getElem hk] at hbit
  rw [bitsValue_testBit field hk]
  exact Option.some.inj hbit

/-! ### The bytes of a bit sequence -/

/-- Bit 7 - k of a byte made of eight bits is the k-th of them (R76). -/
theorem ofNat_bitsValue_getLsbD {bits : List Bool} (h : bits.length = 8) {k : Nat} (hk : k < 8) :
    (BitVec.ofNat 8 (bitsValue bits)).getLsbD (7 - k) = bits[k] := by
  have hbit : (bitsValue bits).testBit (7 - k) = bits[k] := by
    rw [← bitsValue_testBit bits (h ▸ hk), show bits.length - 1 - k = 7 - k by omega]
  rw [BitVec.getLsbD_ofNat, hbit, decide_eq_true (by omega), Bool.true_and]

/-- Bit 7 - k of byte j is bit 8j + k of the sequence (R76). -/
theorem streamBytes_getElem?_getLsbD {bits : List Bool} {j k : Nat} (hj : 8 * j + 8 ≤ bits.length) (hk : k < 8) :
    ((streamBytes bits)[j]?).map (fun b => b.getLsbD (7 - k)) = bits[8 * j + k]? := by
  induction j generalizing bits with
  | zero =>
    have hfirst : (bits.take 8).length = 8 := by rw [List.length_take]; omega
    rw [← List.take_append_drop 8 bits, streamBytes_append _ _ hfirst]
    simp [ofNat_bitsValue_getLsbD hfirst hk]
  | succ j ih =>
    have hfirst : (bits.take 8).length = 8 := by rw [List.length_take]; omega
    have hrest := ih (bits := bits.drop 8) (by rw [List.length_drop]; omega)
    rw [← List.take_append_drop 8 bits, streamBytes_append _ _ hfirst, List.getElem?_cons_succ, hrest,
      List.take_append_drop, List.getElem?_drop]
    congr 1
    omega

/-- Settles O14, from the position of each bit in its byte and the laws of packing. -/
theorem bytesAndBitsAgree : Obligations.BytesAndBitsAgree :=
  ⟨fun _ _ _ => streamBytes_getElem?_getLsbD, streamBytes_streamBits, streamBits_streamBytes⟩

end Sys2Proof.Machine
end

section
/-!
PROOFS of family 20_memory.md, O13, O15 and O16: commands only append to the output, nothing to a closed one, and CLOSE alone
closes it (R70, R74, R75). One frame rule says what every other command may do to the output port.
-/

namespace Sys2Proof.Machine

variable {s t : State}

/-! ### What a command may do to the output -/

/-- What every command but CLOSE keeps of the output port, from `s` to `t`: the closed flag, the bits that were there, and all
of a closed output (R32, R70, R74). -/
structure AppendsIfOpen (s t : State) : Prop where
  closed : t.outClosed = s.outClosed
  grows : s.outBits <+: t.outBits
  kept : s.outClosed = true → t.outBits = s.outBits

/-- Leaving the output port alone. -/
theorem AppendsIfOpen.unchanged (hc : t.outClosed = s.outClosed) (hb : t.outBits = s.outBits) : AppendsIfOpen s t :=
  ⟨hc, ⟨[], by rw [hb, List.append_nil]⟩, fun _ => hb⟩

/-- Writing to an open output. -/
theorem AppendsIfOpen.append {bits : List Bool} (ho : s.outClosed = false) (hc : t.outClosed = s.outClosed)
    (hb : t.outBits = s.outBits ++ bits) : AppendsIfOpen s t :=
  ⟨hc, ⟨bits, hb.symm⟩, fun h => by rw [ho] at h; cases h⟩

/-- Raising an error does not touch the output. -/
theorem AppendsIfOpen.raise (h : AppendsIfOpen s t) (e : HccError) (op : BitVec 4) : AppendsIfOpen s (t.raise e op) :=
  ⟨(State.raise_outClosed t e op).trans h.closed, (State.raise_outBits t e op).symm ▸ h.grows,
    fun hc => (State.raise_outBits t e op).trans (h.kept hc)⟩

theorem treeFailed_appendsIfOpen (s : State) (rest : Option (List Bool)) : AppendsIfOpen s (s.treeFailed rest) :=
  .unchanged (by simp [State.treeFailed]) (by simp [State.treeFailed])

/-- DECODE's loop writes the bytes of its symbols (R206). -/
theorem decoded_appendsIfOpen (ho : s.outClosed = false) : AppendsIfOpen s s.decoded :=
  .append (bits := s.decodeRun.bits) ho (by simp [State.decoded]) (by simp [State.decoded])

/-- The commands that write check OUT_CLOSED first; the others do not touch the output (R232). -/
theorem exec_appendsIfOpen {i : Instr} (hi : i ≠ .close) (h : exec i s = .next t) : AppendsIfOpen s t := by
  have same : AppendsIfOpen s s := .unchanged rfl rfl
  cases i with
  | nop => cases h; exact same
  | count =>
    rcases execCount_next h with ⟨-, rfl⟩ | ⟨-, ⟨-, rfl⟩ | ⟨rest, -, rfl⟩⟩
    exacts [same, .unchanged rfl rfl, .raise (t := s.counted.inAdvanceBytes _) (.unchanged (s := s) rfl rfl) _ _]
  | build =>
    rcases execBuild_next h with ⟨-, rfl⟩ | ⟨-, ⟨-, rfl⟩ | ⟨-, rfl⟩⟩
    exacts [same, same.raise _ _, .unchanged rfl rfl]
  | gencodes =>
    rcases execGencodes_next h with ⟨-, rfl⟩ | ⟨-, ⟨-, rfl⟩ | ⟨-, tree, -, rfl⟩⟩
    exacts [same, same.raise _ _, .unchanged rfl rfl]
  | wrTree =>
    rcases execWrTree_next h with ⟨-, rfl⟩ | ⟨-, ⟨-, rfl⟩ | ⟨-, ⟨-, rfl⟩ | ⟨ho, tree, -, rfl⟩⟩⟩
    exacts [same, same.raise _ _, same.raise _ _, .append ho rfl rfl]
  | rdTree =>
    rcases execRdTree_next h with ⟨-, rfl⟩ | ⟨-, ⟨rest, rfl, -⟩ | ⟨tree, rest, k, -, -, rfl⟩⟩
    exacts [same, treeFailed_appendsIfOpen _ _, .unchanged rfl rfl]
  | wrHeader =>
    rcases execWrHeader_next h with ⟨-, rfl⟩ | ⟨-, ⟨-, rfl⟩ | ⟨ho, rfl⟩⟩
    exacts [same, same.raise _ _, .append ho rfl rfl]
  | rewind =>
    rcases execRewind_next h with ⟨-, rfl⟩ | ⟨-, rfl⟩
    exacts [same, .unchanged rfl rfl]
  | encSym sym =>
    rcases execEncSym_next h with
      ⟨-, rfl⟩ | ⟨-, ⟨-, rfl⟩ | ⟨-, ⟨-, rfl⟩ | ⟨-, ⟨-, rfl⟩ | ⟨ho, ⟨-, rfl⟩ | ⟨-, rfl⟩⟩⟩⟩⟩
    exacts [same, same.raise _ _, same.raise _ _, same.raise _ _, same.raise _ _, .append ho rfl rfl]
  | encode =>
    rcases execEncode_next h with
      ⟨-, rfl⟩ | ⟨-, ⟨-, rfl⟩ | ⟨-, ⟨-, rfl⟩ | ⟨ho, ⟨rest, -, rfl⟩ | ⟨-, ⟨-, rfl⟩ | ⟨-, rfl⟩⟩⟩⟩⟩
    exacts [same, same.raise _ _, same.raise _ _, .raise (t := s.encoded.inAdvanceBytes _) (.append ho rfl rfl) _ _,
      .append ho rfl (List.append_assoc _ _ _), .raise (t := s.encoded.inToEnd) (.append ho rfl rfl) _ _]
  | close => exact absurd rfl hi
  | rdHeader =>
    rcases execRdHeader_next h with ⟨-, rfl⟩ | ⟨-, ⟨-, rfl⟩ | ⟨v, rest, -, ⟨-, rfl⟩ | ⟨-, rfl⟩⟩⟩
    exacts [same, .raise (t := s.inToEnd) (.unchanged (s := s) rfl rfl) _ _, .unchanged rfl rfl,
      .raise (t := s.inAdvance rest) (.unchanged (s := s) rfl rfl) _ _]
  | decSym =>
    rcases execDecSym_next h with
      ⟨-, rfl⟩ | ⟨-, ⟨-, rfl⟩ | ⟨-, ⟨-, rfl⟩ | ⟨ho, ⟨-, rfl⟩ | ⟨v, rest, -, ⟨-, rfl⟩ | ⟨-, rfl⟩⟩⟩⟩⟩
    exacts [same, same.raise _ _, same.raise _ _, .raise (t := s.dropResult.inToEnd) (.unchanged (s := s) rfl rfl) _ _,
      .unchanged rfl rfl, .append ho rfl rfl]
  | decode =>
    rcases execDecode_next h with
      ⟨-, rfl⟩ | ⟨-, ⟨-, rfl⟩ | ⟨-, ⟨-, rfl⟩ | ⟨ho, ⟨-, rfl⟩ | ⟨rest, -, rfl⟩⟩⟩⟩
    · exact same
    · exact same.raise _ _
    · exact same.raise _ _
    · obtain ⟨hc, hg, hk⟩ := decoded_appendsIfOpen ho
      exact .raise (t := s.decoded.inToEnd) ⟨hc, hg, hk⟩ _ _
    · obtain ⟨hc, hg, hk⟩ := decoded_appendsIfOpen ho
      exact ⟨hc, hg, hk⟩
  | clrerr => cases h; exact .unchanged rfl rfl
  | init => cases h; exact .unchanged rfl rfl

/-! ### CLOSE -/

/-- Closing a closed output has no effect (R75). -/
theorem outClose_of_closed (h : s.outClosed = true) : s.outClose = s := if_pos h

/-- Closing keeps the bits that were there (R70, R75). -/
theorem outClose_grows (s : State) : s.outBits <+: s.outClose.outBits := by
  unfold State.outClose
  split
  · exact ⟨[], List.append_nil _⟩
  · exact ⟨_, rfl⟩

/-- Settles O15: the padding is fewer than 8 zeros and ends a byte. -/
theorem closeResult : Obligations.CloseResult := by
  intro s
  exact ⟨(8 - s.outBits.length % 8) % 8, Nat.mod_lt _ (by decide), fun _ => by omega, rfl⟩

/-! ### Every command -/

/-- No command changes a closed output (R74, R75, R232). -/
theorem exec_keeps_closed {i : Instr} (hc : s.outClosed = true) (h : exec i s = .next t) :
    t.outBits = s.outBits ∧ t.outClosed = true := by
  by_cases hi : i = .close
  · subst hi
    cases h
    rw [outClose_of_closed hc]
    exact ⟨rfl, hc⟩
  · obtain ⟨hclosed, -, hkept⟩ := exec_appendsIfOpen hi h
    exact ⟨hkept hc, hclosed.trans hc⟩

/-- Settles O13: OutWrite by the bits of its field, the commands by what they keep of a closed output. -/
theorem outputIsWrittenMostSignificantFirst : Obligations.OutputIsWrittenMostSignificantFirst :=
  ⟨fun _ n v => ⟨fieldBits n v, fieldBits_length n v, fun _ => fieldBits_getElem?, rfl⟩,
    fun _ _ _ hc h => (exec_keeps_closed hc h).1⟩

/-- Settles O16, from what CLOSE does and what every other command keeps of the output. -/
theorem outputOnlyGrows : Obligations.OutputOnlyGrows := by
  intro i s t h
  refine ⟨?_, fun hi => (exec_appendsIfOpen hi h).closed, fun hc => (exec_keeps_closed hc h).2⟩
  by_cases hi : i = .close
  · subst hi
    cases h
    exact outClose_grows s
  · exact (exec_appendsIfOpen hi h).grows

/-- Settles O20: outside the error state REWIND is InRewind (R73). -/
theorem rewindResult : Obligations.RewindResult := fun _ he => unlessErr_run he

end Sys2Proof.Machine
end

section
/-!
PROOFS of family 20_memory.md, O49, O55, O56, O59 and O60: what a step does for each action of the host, and which actions it
refuses (R78, R81, R82, R87).
-/

namespace Sys2Proof.Machine

variable {s : State} {rest : List HostAction}

/-! ### Accesses to the block -/

/-- An access inside the block that is not an aligned 32-bit one is refused (R82). -/
theorem busAccess_undefined (s : State) {off width : Nat} (ho : off < 0x8000) (h : width ≠ 4 ∨ off % 4 ≠ 0)
    (run : Nat → Outcome) :
    busAccess s (s.params.base + off) width run = .refused (.undefinedAccess (s.params.base + off) width) := by
  rcases busAccess_cases s (s.params.base + off) width run with ⟨hout, -⟩ | ⟨-, -, ⟨hw, ha, -⟩ | ⟨-, hb⟩⟩
  · omega
  · rw [Nat.add_sub_cancel_left] at ha
    exact absurd ha (h.resolve_left fun hne => hne hw)
  · exact hb

theorem hostAct_read (s : State) (addr width : Nat) :
    hostAct (.read addr width) s = busAccess s addr width fun off => .next (s.busRead addr off) := rfl

theorem hostAct_write (s : State) (addr width : Nat) (v : Word) :
    hostAct (.write addr width v) s = busAccess s addr width fun off => .next (s.busWrite off v) := rfl

/-- A defined read (R82). -/
theorem step_read {off : Nat} (ho : off < 0x8000) (ha : off % 4 = 0)
    (hh : s.host = .read (s.params.base + off) 4 :: rest) :
    step s = .next (({ s with host := rest } : State).busRead (s.params.base + off) off) := by
  rw [step_ofHost hh (.inl nofun), hostAct_read]
  exact busAccess_offset { s with host := rest } ho ha _

/-- A defined write (R82). -/
theorem step_write {off : Nat} {v : Word} (ho : off < 0x8000) (ha : off % 4 = 0)
    (hh : s.host = .write (s.params.base + off) 4 v :: rest) :
    step s = .next (({ s with host := rest } : State).busWrite off v) := by
  rw [step_ofHost hh (.inl nofun), hostAct_write]
  exact busAccess_offset { s with host := rest } ho ha _

/-- A read while BUSY = 0 (R81). -/
theorem busRead_idle (hc : s.cmd = none) (addr off : Nat) :
    s.busRead addr off = { s with log := s.log ++ [.word addr (s.readWord off)] } := by
  simp [State.busRead, State.busy, hc]

/-- A read while BUSY = 1 (R87). -/
theorem busRead_running (hc : s.cmd ≠ none) (addr off : Nat) :
    s.busRead addr off = { s with log := s.log ++ [.word addr (s.readBusy off)], draw := s.draw + 1 } := by
  simp [State.busRead, State.busy, Option.isSome_iff_ne_none.mpr hc]

/-- A write to an offset other than CMD is ignored (R81). -/
theorem busWrite_ignored {off : Nat} (h : off ≠ 0) (v : Word) : s.busWrite off v = s := if_neg h

/-- CMD and the reserved offsets read 0 (R24, R81). -/
theorem readWord_reserved (s : State) {off : Nat} (ha : off % 4 = 0)
    (h : off = 0 ∨ (0x20 ≤ off ∧ off ≤ 0x0FFF) ∨ (0x1404 ≤ off ∧ off ≤ 0x1FFF) ∨ (0x2404 ≤ off ∧ off ≤ 0x2FFF) ∨
      (0x5020 ≤ off ∧ off ≤ 0x5FFF) ∨ 0x7008 ≤ off) : s.readWord off = 0 := by
  rcases h with rfl | h
  · rfl
  · rw [readWord_beyond s (by omega), if_neg (by omega), if_neg (by omega), if_neg (by omega), if_neg (by omega)]

/-- STATUS reads BUSY = 1 while a command runs (R87). -/
theorem readBusy_status (s : State) : (s.readBusy 4).getLsbD 0 = true := by simp [State.readBusy]

/-- Settles O55, from the defined accesses while BUSY = 0 and the register map. -/
theorem readsHaveNoSideEffect : Obligations.ReadsHaveNoSideEffect := by
  refine ⟨fun s off rest hc ho ha hh => ?_, fun s off v rest ho ha h0 hh => ?_, fun s off ha _ h => readWord_reserved s ha h⟩
  · have hstep : step s = .next { s with
        host := rest, log := s.log ++ [.word (s.params.base + off) (s.readWord off)] } := by
      rw [step_read ho ha hh, busRead_idle (s := { s with host := rest }) hc]
      rfl
    refine ⟨hstep, fun t ht => ?_⟩
    rw [hstep] at ht
    cases ht
    exact readWord_hostSide s _ _ off
  · rw [step_write ho ha hh, busWrite_ignored h0]

/-- Settles O56, from the defined read while BUSY = 1. -/
theorem readsWhileBusy : Obligations.ReadsWhileBusy := by
  intro s off rest hc ho ha hh
  refine ⟨s.readBusy off, ?_, fun h => h ▸ readBusy_status s⟩
  rw [step_read ho ha hh, busRead_running (s := { s with host := rest }) hc]
  rfl

/-- Settles O59: a read and a write go through the same access rules. -/
theorem undefinedAccessesAreRefused : Obligations.UndefinedAccessesAreRefused := by
  rintro s a rest off width v hh (rfl | rfl) ho h
  · rw [step_ofHost hh (.inl nofun), hostAct_read]
    exact busAccess_undefined { s with host := rest } ho h _
  · rw [step_ofHost hh (.inl nofun), hostAct_write]
    exact busAccess_undefined { s with host := rest } ho h _

/-! ### Stream actions -/

theorem whenIdle_idle (hc : s.cmd = none) (run : Outcome) : whenIdle s run = run := by
  simp [whenIdle, State.busy, hc]

theorem whenIdle_running (hc : s.cmd ≠ none) (run : Outcome) : whenIdle s run = .refused .streamActionWhileBusy := by
  simp [whenIdle, State.busy, Option.isSome_iff_ne_none.mpr hc]

/-- TakeOutput reads a closed output as bytes (R78). -/
theorem takeOutput_closed (h : s.outClosed = true) :
    s.takeOutput = { s with log := s.log ++ [.bytes (streamBytes s.outBits)] } := by simp [State.takeOutput, h]

/-- TakeOutput reads an open output as bits (R78). -/
theorem takeOutput_open (h : s.outClosed = false) : s.takeOutput = { s with log := s.log ++ [.bits s.outBits] } := by
  simp [State.takeOutput, h]

/-- Settles O60, action by action. -/
theorem streamActions : Obligations.StreamActions := by
  intro s rest
  refine ⟨fun hc => ⟨fun bytes hh => ?_, fun hh => ?_, fun hh => ⟨fun ho => ?_, fun ho => ?_⟩⟩, ?_⟩
  · exact (step_ofHost hh (.inl nofun)).trans (whenIdle_idle hc _)
  · refine ⟨streamBytes s.outBits, streamBytes_length _, fun j k hj hk => ?_,
      (step_ofHost hh (.inl nofun)).trans (whenIdle_idle hc _)⟩
    rw [streamBytes_length] at hj
    exact streamBytes_getElem?_getLsbD (by omega) hk
  · exact (step_ofHost hh (.inl nofun)).trans ((whenIdle_idle hc _).trans (congrArg _ (takeOutput_closed ho)))
  · exact (step_ofHost hh (.inl nofun)).trans ((whenIdle_idle hc _).trans (congrArg _ (takeOutput_open ho)))
  · rintro hc (⟨bytes, hh⟩ | hh | hh) <;> exact (step_ofHost hh (.inl nofun)).trans (whenIdle_running hc _)

/-! ### What stops the machine -/

/-- An access that R70 or R82 leaves without a meaning: narrower, wider, misaligned or outside the block. -/
def UndefinedAccess (p : Params) (addr width : Nat) : Prop :=
  width ≠ 4 ∨ (addr - p.base) % 4 ≠ 0 ∨ addr < p.base ∨ p.base + 0x8000 ≤ addr

/-- A host action that R70, R78 or R82 leaves without a meaning. -/
def HostMisuse (s : State) (a : HostAction) : Prop :=
  (∃ addr width v, (a = .write addr width v ∨ a = .read addr width) ∧ UndefinedAccess s.params addr width) ∨
    (s.busy = true ∧ ((∃ bytes, a = .attachInput bytes) ∨ a = .attachOutput ∨ a = .takeOutput))

/-- An outcome that answers a next state, or is a refusal for the reason given. -/
def NextOrRefusedFor (reason : Prop) (o : Outcome) : Prop := (∃ t, o = .next t) ∨ ∃ r, o = .refused r ∧ reason

theorem NextOrRefusedFor.imp {p q : Prop} {o : Outcome} (h : NextOrRefusedFor p o) (hpq : p → q) : NextOrRefusedFor q o :=
  Or.imp_right (fun ⟨r, hr, hp⟩ => ⟨r, hr, hpq hp⟩) h

/-- An access whose effect answers a next state is refused only for being undefined (R82). -/
theorem busAccess_ends (s : State) (addr width : Nat) (f : Nat → State) :
    NextOrRefusedFor (UndefinedAccess s.params addr width) (busAccess s addr width fun off => .next (f off)) := by
  rcases busAccess_cases s addr width (fun off => .next (f off)) with
    ⟨hout, hb⟩ | ⟨-, -, ⟨-, -, hb⟩ | ⟨hbad, hb⟩⟩
  · exact .inr ⟨_, hb, .inr (.inr hout)⟩
  · exact .inl ⟨_, hb⟩
  · exact .inr ⟨_, hb, hbad.imp_right .inl⟩

/-- A stream action is refused only while BUSY = 1 (R78). -/
theorem whenIdle_ends (s t : State) : NextOrRefusedFor (s.busy = true) (whenIdle s (.next t)) := by
  unfold whenIdle
  split
  · exact .inr ⟨_, rfl, ‹_›⟩
  · exact .inl ⟨t, rfl⟩

/-- The host is refused only for misuse. -/
theorem hostAct_ends (a : HostAction) (s : State) : NextOrRefusedFor (HostMisuse s a) (hostAct a s) := by
  cases a with
  | write addr width v =>
    exact (busAccess_ends s addr width fun off => s.busWrite off v).imp fun h => .inl ⟨addr, width, v, .inl rfl, h⟩
  | read addr width =>
    exact (busAccess_ends s addr width fun off => s.busRead addr off).imp fun h => .inl ⟨addr, width, 0, .inr rfl, h⟩
  | wait => exact .inl ⟨s, rfl⟩
  | attachInput bytes => exact (whenIdle_ends s _).imp fun h => .inr ⟨h, .inl ⟨bytes, rfl⟩⟩
  | attachOutput => exact (whenIdle_ends s _).imp fun h => .inr ⟨h, .inr (.inl rfl)⟩
  | takeOutput => exact (whenIdle_ends s _).imp fun h => .inr ⟨h, .inr (.inr rfl)⟩
  | assertReset =>
    cases hc : s.cmd with
    | none => exact .inl ⟨_, assertReset_idle hc⟩
    | some w => exact .inl ⟨_, assertReset_running hc⟩

/-- The core's step never stops the machine: a command completes, and an illegal word raises an error (R13, R239). -/
theorem runCommand_ends (h : Inv s) (w : Word) : ∃ t, runCommand w s = .next t := by
  unfold runCommand execute
  split
  · rename_i i _
    obtain ⟨t, ht, -⟩ := exec_completes h i
    rw [ht]
    exact ⟨_, rfl⟩
  · exact ⟨_, rfl⟩

/-- A step is refused only for misuse by the host. -/
theorem step_ends (h : Inv s) :
    NextOrRefusedFor (∃ a rest, s.host = a :: rest ∧ HostMisuse s a) (step s) := by
  unfold step hostTurn
  split
  · exact .inl (runCommand_ends h _)
  · split
    · exact .inl ⟨s, rfl⟩
    · exact (hostAct_ends _ _).imp fun hm => ⟨_, _, ‹_›, hm⟩

/-- Settles O49: a step answers a next state or is refused for misuse by the host. -/
theorem onlyHostMisuseStops : Obligations.OnlyHostMisuseStops := by
  intro s h
  rcases step_ends h with ⟨t, ht⟩ | ⟨r, hr, hmisuse⟩
  · rw [ht]
    exact ⟨nofun, nofun⟩
  · rw [hr]
    exact ⟨nofun, fun _ _ => hmisuse⟩

end Sys2Proof.Machine
end

section
/-!
PROOFS of family 30_encoding.md, O1 and O2: a word is its four fields (R100), a command is its opcode and its operand
(R102), and the decoder accepts exactly the words whose fields are those of a legal command (R103, R104).
-/

namespace Sys2Proof

/-! ### Words and their fields -/

/-- A word has the fields of a command: its opcode, its operand, and 0 in the reserved ones (R100, R103). -/
def FieldsOf (i : Instr) (w : Word) : Prop :=
  wordOp w = opcode i ∧ wordSym w = symOperand i ∧ wordRsv0 w = 0 ∧ wordRsv1 w = 0

/-- The word of every command has its fields (R100, R102). -/
theorem encode_fields (i : Instr) : FieldsOf i (encode i) := Laws.Fields.fields_of_word _ _ _ rfl

/-- Words that agree in a field agree in each of its bits. -/
theorem getLsbD_of_extractLsb' {v w : Word} {start len i : Nat} (h : v.extractLsb' start len = w.extractLsb' start len)
    (h1 : start ≤ i) (h2 : i < start + len) : v.getLsbD i = w.getLsbD i := by
  have := congrArg (fun x => x.getLsbD (i - start)) h
  simpa [show i - start < len by omega, Nat.add_sub_cancel' h1] using this

/-- The four fields cover the word (R100). -/
theorem word_ext {v w : Word} (hop : wordOp v = wordOp w) (hsym : wordSym v = wordSym w)
    (hlow : wordRsv0 v = wordRsv0 w) (hhigh : wordRsv1 v = wordRsv1 w) : v = w := by
  refine BitVec.eq_of_getLsbD_eq fun i hi => ?_
  by_cases h4 : i < 4
  · exact getLsbD_of_extractLsb' hop (by omega) (by omega)
  by_cases h8 : i < 8
  · exact getLsbD_of_extractLsb' hlow (by omega) (by omega)
  by_cases h17 : i < 17
  · exact getLsbD_of_extractLsb' hsym (by omega) (by omega)
  · exact getLsbD_of_extractLsb' hhigh (by omega) (by omega)

/-! ### The opcode map -/

/-- A command is determined by its opcode and its operand (R102). -/
theorem instrOfOp_opcode (i : Instr) : instrOfOp (opcode i) (symOperand i) = i := by cases i <;> rfl

/-- A legal command is ENC_SYM with a legal symbol, or its operand is 0 (R100, R103). -/
theorem wellFormed_cases {i : Instr} (h : WellFormed i) :
    (∃ sym, i = .encSym sym ∧ legalSymbol sym) ∨ (opcode i ≠ 0x8#4 ∧ symOperand i = 0) := by
  cases i with
  | encSym sym => exact .inl ⟨sym, rfl, h⟩
  | _ => exact .inr ⟨by decide, rfl⟩

/-- A command whose operand is 0 is legal: 0 is a symbol (R103). -/
theorem wellFormed_of_operand {i : Instr} (h : symOperand i = 0) : WellFormed i := by
  cases i with
  | encSym sym => cases h; exact Nat.zero_le _
  | _ => trivial

/-- Each opcode names the command that has it (R102). -/
theorem opcode_instrOfOp : ∀ op : BitVec 4, opcode (instrOfOp op 0) = op ∧ symOperand (instrOfOp op 0) = 0 := by decide

/-! ### The decoder -/

/-- A word the decoder accepts has passed every check (R103). -/
theorem legal_of_decode {w : Word} {i : Instr} (h : decode w = .ok i) : WellFormed i ∧ FieldsOf i w := by
  unfold decode at h
  split at h
  · cases h
  split at h
  · cases h
  have hlow : wordRsv0 w = 0 := by simpa using ‹¬ wordRsv0 w ≠ 0›
  have hhigh : wordRsv1 w = 0 := by simpa using ‹¬ wordRsv1 w ≠ 0›
  split at h
  · split at h
    · cases h; exact ⟨‹legalSymbol _›, ‹wordOp w = _›, rfl, hlow, hhigh⟩
    · cases h
  · split at h
    · cases h
    · have hsym : wordSym w = 0 := by simpa using ‹¬ wordSym w ≠ 0›
      obtain ⟨hop, hzero⟩ := opcode_instrOfOp (wordOp w)
      rw [hsym] at h
      cases h
      exact ⟨wellFormed_of_operand hzero, hop.symm, hsym.trans hzero.symm, hlow, hhigh⟩

/-- A word with the fields of a legal command passes every check (R103). -/
theorem decode_of_legal {w : Word} {i : Instr} (hi : WellFormed i) (h : FieldsOf i w) : decode w = .ok i := by
  obtain ⟨hop, hsym, hlow, hhigh⟩ := h
  unfold decode
  rw [if_neg (by simp [hlow]), if_neg (by simp [hhigh]), hop, hsym]
  rcases wellFormed_cases hi with ⟨sym, rfl, hlegal⟩ | ⟨hne, hzero⟩
  · exact (if_pos rfl).trans (if_pos hlegal)
  · rw [if_neg hne, if_neg (by simp [hzero]), instrOfOp_opcode]

/-- The decoder accepts a word exactly as the command whose fields it has (R102 to R104). -/
theorem decode_eq_ok_iff {w : Word} {i : Instr} : decode w = .ok i ↔ WellFormed i ∧ FieldsOf i w :=
  ⟨legal_of_decode, fun ⟨hi, h⟩ => decode_of_legal hi h⟩

/-- Settles O1: the word of a command has the command's fields. -/
theorem decodeInvertsEncode : Obligations.DecodeInvertsEncode := fun i hi =>
  decode_eq_ok_iff.mpr ⟨hi, encode_fields i⟩

/-- Settles O2: the word that was decoded and the word of its command agree in all four fields. -/
theorem encodeInvertsDecode : Obligations.EncodeInvertsDecode := by
  intro w i h
  obtain ⟨hi, hop, hsym, hlow, hhigh⟩ := decode_eq_ok_iff.mp h
  obtain ⟨hop', hsym', hlow', hhigh'⟩ := encode_fields i
  exact ⟨hi, word_ext (hop'.trans hop.symm) (hsym'.trans hsym.symm) (hlow'.trans hlow.symm) (hhigh'.trans hhigh.symm)⟩

end Sys2Proof
end

section
/-!
PROOFS of family 30_encoding.md: what the commands of COMPRESS and DECOMPRESS do past their checks (R235), one equation
for each; and O32, which is that of WR_TREE (R160) with the length of the encoding (R105).
-/

namespace Sys2Proof.Machine

variable {s : State}

/-! ### Guards that let a command run -/

/-- The SEQUENCE check passes (R240). -/
theorem needsValid_run {flag : Bool} (h : flag = true) (op : BitVec 4) (run : Outcome) :
    needsValid s flag op run = run := if_pos h

/-- The OUTPUT_CLOSED check passes (R232). -/
theorem needsOpen_run (h : s.outClosed = false) (op : BitVec 4) (run : Outcome) : needsOpen s op run = run := by
  simp [needsOpen, h]

/-- The walk of the whole tree below ROOT. -/
theorem withTree_run {tree : HTree} (h : s.tree = some tree) (run : HTree → Outcome) : withTree s run = run tree := by
  simp only [withTree, h]

/-! ### The input -/

/-- The bytes of an input at its start (R76). -/
theorem inRest_bytes (h : s.inPos = 0) : streamBytes s.inRest = s.inBytes := by simp [State.inRest, h]

/-! ### COUNT, BUILD, GENCODES -/

/-- The state a COUNT of bytes that fit leaves (R130). -/
def State.countedAll (s : State) : State := { s.counted.inToEnd with freqValid := true }

/-- The bytes fit: no byte is read while TOTAL is at its maximum (R132). -/
def State.BytesFit (s : State) : Prop := (streamBytes s.inRest).length + 1 ≤ maxCount s.params

/-- COUNT past its check, over bytes that fit (R130, R132). -/
theorem exec_count_run (he : s.err = false) (hf : s.BytesFit) : exec .count s = .next s.countedAll := by
  obtain ⟨-, -, -, -, -, -, hover⟩ := countLoop_start s.params (streamBytes s.inRest)
  have hover : (countLoop (maxCount s.params) (streamBytes s.inRest) freqStart 1).overflow = none :=
    hover.trans (if_pos (Nat.le_sub_of_add_le hf))
  refine (unlessErr_run he).trans ?_
  simp only [hover]
  rfl

/-- BUILD past its checks (R140). -/
theorem exec_build_run (he : s.err = false) (hv : s.freqValid = true) : exec .build s = .next s.built :=
  (unlessErr_run he).trans (needsValid_run hv _ _)

/-- The state a GENCODES on a tree leaves (R150). -/
def State.withCodes (s : State) (tree : HTree) : State := { s with code := codesOf tree, codesValid := true }

/-- GENCODES past its checks (R150). -/
theorem exec_gencodes_run {tree : HTree} (he : s.err = false) (hv : s.treeValid = true) (ht : s.tree = some tree) :
    exec .gencodes s = .next (s.withCodes tree) :=
  (unlessErr_run he).trans <| (needsValid_run hv _ _).trans <| withTree_run ht _

/-! ### WR_HEADER and WR_TREE -/

/-- WR_HEADER past its checks (R180). -/
theorem exec_wrHeader_run (he : s.err = false) (ho : s.outClosed = false) :
    exec .wrHeader s = .next (s.outAppend (fieldBits 32 s.params.magic.toNat)) :=
  (unlessErr_run he).trans (needsOpen_run ho _ _)

/-- WR_TREE past its checks appends the encoding (R160). -/
theorem exec_wrTree_run {tree : HTree} (he : s.err = false) (hv : s.treeValid = true) (ho : s.outClosed = false)
    (ht : s.tree = some tree) : exec .wrTree s = .next (s.outAppend tree.encoding) :=
  (unlessErr_run he).trans <| (needsValid_run hv _ _).trans <| (needsOpen_run ho _ _).trans <| withTree_run ht _

/-! ### CLOSE -/

theorem outClose_of_open (ho : s.outClosed = false) : s.outClose.outBits = s.outBits ++ padding s.outBits.length := by
  simp [State.outClose, ho]

/-- Fewer than 8 zero bits (R75). -/
theorem padding_eq (n : Nat) : ∃ k < 8, padding n = List.replicate k false := ⟨_, Nat.mod_lt _ (by decide), rfl⟩

/-- A whole number of bytes is not padded (R75). -/
theorem outClose_of_whole (h : s.outBits.length % 8 = 0) : s.outClose.outBits = s.outBits := by
  unfold State.outClose
  split
  · rfl
  · simp [padding, h]

@[simp] theorem State.outClose_tree (s : State) : s.outClose.tree = s.tree := by simp [State.tree]

@[simp] theorem State.outClose_codeOf (s : State) : s.outClose.codeOf = s.codeOf := by
  funext sym
  simp [State.codeOf]

/-! ### RD_HEADER and RD_TREE -/

/-- RD_HEADER past its check, where the input continues with P_MAGIC (R200). -/
theorem exec_rdHeader_run {rest : List Bool} (he : s.err = false)
    (hin : s.inRest = fieldBits 32 s.params.magic.toNat ++ rest) : exec .rdHeader s = .next (s.inAdvance rest) := by
  refine (unlessErr_run he).trans ?_
  simp only [hin, inRead_fieldBits s.params.magic.isLt, if_true]

/-- RD_TREE past its check, where the input continues with the encoding of a tree of a legal shape (R164, R170). -/
theorem exec_rdTree_run {tree : HTree} {rest : List Bool} (he : s.err = false) (hs : TreeShape tree)
    (hin : s.inRest = tree.encoding ++ rest) : exec .rdTree s = .next (s.treeRead tree rest) := by
  have hparse : parseTree 257 0 s.inRest = .tree tree rest (0 + tree.internals) :=
    hin ▸ parseTree_encoding tree 257 0 rest (Nat.le_refl _) (by have := hs.internals; omega) hs.symbols
  refine (unlessErr_run he).trans ?_
  simp only [hparse, hs.root, Bool.false_eq_true, if_false]
  rfl

/-- What RD_TREE read is the tree the block holds (R165). -/
theorem treeRead_tree (s : State) {tree : HTree} (hs : TreeShape tree) (rest : List Bool) :
    (s.treeRead tree rest).tree = some tree := readTree_layout s.node tree hs.internals

/-- RD_TREE consumes the encoding it read (R164). -/
theorem treeRead_inRest {tree : HTree} {rest : List Bool} (hin : s.inRest = tree.encoding ++ rest) :
    (s.treeRead tree rest).inRest = rest := (inRest_inAdvance (s.dropTree.setTree _ _ _) hin).2

/-! ### The statement -/

/-- Settles O32, from WR_TREE past its checks and the length of the encoding. -/
theorem wrTreeResult : Obligations.WrTreeResult := fun _ tree he hv ho ht =>
  ⟨exec_wrTree_run he hv ho ht, Nat.eq_sub_of_add_eq tree.encoding_length⟩

end Sys2Proof.Machine
end

section
/-!
PROOFS of family 30_encoding.md, O44: ENCODE writes the codes of the bytes and of the sentinel (R186), under the
invariant these are paths of the tree's leaves (R150), and DECODE reads paths of leaves back (R206).
-/

namespace Sys2Proof.Machine

variable {s : State}

/-! ### ENCODE -/

/-- The payload of some bytes: their codes in order, then the terminator (R106, R186). -/
def State.payloadOf (s : State) (bytes : List Byte) : List Bool :=
  (bytes.flatMap fun b => (s.codeOf b.toNat).path) ++ (s.codeOf 256).path

/-- The state an ENCODE that finds every code leaves (R186). -/
def State.encodedAll (s : State) : State := (s.outAppend (s.payloadOf (streamBytes s.inRest))).inToEnd

@[simp] theorem State.encodedAll_err (s : State) : s.encodedAll.err = s.err := by simp [State.encodedAll]
@[simp] theorem State.encodedAll_outClosed (s : State) : s.encodedAll.outClosed = s.outClosed := by
  simp [State.encodedAll]
@[simp] theorem State.encodedAll_outBits (s : State) :
    s.encodedAll.outBits = s.outBits ++ s.payloadOf (streamBytes s.inRest) := by simp [State.encodedAll]
@[simp] theorem State.encodedAll_tree (s : State) : s.encodedAll.tree = s.tree := by simp [State.encodedAll, State.tree]
@[simp] theorem State.encodedAll_codeOf (s : State) : s.encodedAll.codeOf = s.codeOf := by
  funext sym
  simp [State.encodedAll, State.codeOf]

/-- ENCODE past its checks, where every code exists (R186). -/
theorem exec_encode_run (he : s.err = false) (hc : s.codesValid = true) (ho : s.outClosed = false)
    (hb : ∀ b ∈ streamBytes s.inRest, (s.codeOf b.toNat).valid = true) (h256 : (s.codeOf 256).valid = true) :
    exec .encode s = .next s.encodedAll := by
  refine (unlessErr_run he).trans <| (needsValid_run hc _ _).trans <| (needsOpen_run ho _ _).trans ?_
  simp only [encodeLoop_valid s.codeOf _ hb, h256, if_true]
  simp only [State.encodedAll, State.outAppend, State.payloadOf, List.append_assoc]

/-! ### The codes as leaves -/

/-- The leaves whose paths ENCODE writes for some bytes (R150, R186). -/
def State.leavesOf (s : State) (bytes : List Byte) : List (Symbol × List Bool) :=
  bytes.map fun b => (BitVec.ofNat 9 b.toNat, (s.codeOf b.toNat).path)

theorem payloadOf_eq (s : State) (bytes : List Byte) :
    s.payloadOf bytes = payload (s.leavesOf bytes) ++ (s.codeOf 256).path := by
  simp [State.payloadOf, State.leavesOf, payload, List.flatMap_map]

/-- A byte is no sentinel. -/
theorem byte_ne_eofSym (b : Byte) : BitVec.ofNat 9 b.toNat ≠ eofSym := by
  intro h
  have := congrArg BitVec.toNat h
  simp only [BitVec.toNat_ofNat] at this
  omega

/-- Decoding the leaves of some bytes writes the bytes (R203). -/
theorem emitted_leavesOf (s : State) (bytes : List Byte) :
    emitted ((s.leavesOf bytes).map Prod.fst) = streamBits bytes := by
  have hb (b : Byte) : b.toNat % 2 ^ 9 = b.toNat := Nat.mod_eq_of_lt (by omega)
  simp only [emitted, State.leavesOf, List.map_map, List.flatMap_map, Function.comp_apply, BitVec.toNat_ofNat, hb]
  rfl

/-- Under the invariant a code is the path of a leaf that carries its symbol (R30, R150). -/
theorem Inv.code_leaf (h : Inv s) (hc : s.codesValid = true) {tree : HTree} (ht : s.tree = some tree)
    (hs : TreeShape tree) {sym : Nat} (hsym : sym < 257) (hv : (s.codeOf sym).valid = true) :
    (BitVec.ofNat 9 sym, (s.codeOf sym).path) ∈ tree.paths [] := by
  obtain ⟨-, hcode⟩ := h.codes hc
  rw [codeOf_eq hsym] at hv ⊢
  simp only [hcode tree ht] at hv ⊢
  exact codesOf_leaf hs.depth_le hsym hv

/-- Under the invariant the codes of bytes are paths of leaves other than the sentinel's (R106, R150). -/
theorem Inv.leavesOf_mem (h : Inv s) (hc : s.codesValid = true) {tree : HTree} (ht : s.tree = some tree)
    (hs : TreeShape tree) {bytes : List Byte} (hv : ∀ b ∈ bytes, (s.codeOf b.toNat).valid = true)
    {leaf : Symbol × List Bool} (hleaf : leaf ∈ s.leavesOf bytes) : leaf ∈ tree.paths [] ∧ leaf.1 ≠ eofSym := by
  obtain ⟨b, hb, rfl⟩ := List.mem_map.mp hleaf
  exact ⟨h.code_leaf hc ht hs (by omega) (hv b hb), byte_ne_eofSym b⟩

/-! ### DECODE -/

/-- The state a DECODE that reads `syms` and then the sentinel leaves, with `rest` not read (R206). -/
def State.decodedTo (s : State) (syms : List Symbol) (rest : List Bool) : State :=
  { ((s.dropResult.outAppend (emitted syms)).setResult eofSym).inAdvance rest with eofSeen := true }

/-- DECODE on the paths of some leaves and then the sentinel's (R206). -/
theorem exec_decode_run {tree : HTree} {leaves : List (Symbol × List Bool)} {p rest : List Bool}
    (he : s.err = false) (hv : s.treeValid = true) (ho : s.outClosed = false) (ht : s.tree = some tree)
    (hs : TreeShape tree) (hl : LeavesOf tree leaves) (hne : ∀ leaf ∈ leaves, leaf.1 ≠ eofSym)
    (hp : (eofSym, p) ∈ tree.paths []) (hin : s.inRest = payload leaves ++ p ++ rest) :
    exec .decode s = .next (s.decodedTo (leaves.map Prod.fst) rest) := by
  have hfuel : leaves.length < s.inRest.length + 1 := by
    have := hs.payload_length hl hne
    rw [hin, List.length_append, List.length_append]
    omega
  have hrun : decodeLoop s.node s.root.toNat (s.inRest.length + 1) s.inRest none =
      { bits := emitted (leaves.map Prod.fst), last := some eofSym, stop := .sentinel rest } := by
    have := decodeLoop_codes (holdsTree_of_readTree ht) leaves (fun leaf h => ⟨hl leaf h, hne leaf h⟩) hp rest none hfuel
    rwa [← payload, ← hin] at this
  refine (unlessErr_run he).trans <| (needsValid_run hv _ _).trans <| (needsOpen_run ho _ _).trans ?_
  simp only [hrun]
  rfl

/-- Settles O44: the bits ENCODE appended are the paths of the bytes' leaves and of the sentinel's, and DECODE writes the
symbols of the leaves whose paths it reads. -/
theorem payloadRoundTrip : Obligations.PayloadRoundTrip := by
  intro s t u bits rest h he hexec hte hbits hue hutree huopen htree hin
  obtain ⟨hc, ho, hvalid, h256⟩ := execEncode_succeeds he hexec hte
  rw [exec_encode_run he hc ho hvalid h256] at hexec
  cases hexec
  obtain rfl : s.payloadOf (streamBytes s.inRest) = bits := by simpa using hbits
  obtain ⟨tree, ht, hs, -⟩ := h.tree (h.codes hc).1
  have hl {leaf} := h.leavesOf_mem hc ht hs hvalid (leaf := leaf)
  have hp : (eofSym, (s.codeOf 256).path) ∈ tree.paths [] := h.code_leaf hc ht hs (by decide) h256
  refine ⟨_, exec_decode_run hue hutree huopen (htree.trans ht) hs (fun _ hm => (hl hm).1) (fun _ hm => (hl hm).2)
    hp (payloadOf_eq s _ ▸ hin), hue, rfl, ?_, ?_⟩
  · exact (inRest_inAdvance _ hin).1
  · rw [← emitted_leavesOf s]
    rfl

end Sys2Proof.Machine
end

section
/-!
PROOFS of family 30_encoding.md, O45: the two host sequences (R113), command by command. COMPRESS is followed up to its
ENCODE, which leaves what the payload's round trip (O44) starts from; DECOMPRESS takes the stream's parts off the input
one by one (R106), and O44 gives what its DECODE writes.
-/

namespace Sys2Proof.Machine

variable {s : State}

/-- A list of commands goes on where its first part ends. -/
theorem execAll_append {first : List Instr} {s t : State} (h : execAll first s = .next t) (rest : List Instr) :
    execAll (first ++ rest) s = execAll rest t := by
  induction first generalizing s with
  | nil => cases h; rfl
  | cons i first ih =>
    rw [execAll] at h
    split at h
    · rw [List.cons_append, execAll_cons ‹_›, ih h]
    · cases h
    · cases h

/-! ### COMPRESS: the counts, the tree, the codes -/

/-- A byte of the input has a count (R130). -/
theorem countedAll_freq_byte (hf : s.BytesFit) {b : Byte} (hb : b ∈ streamBytes s.inRest) :
    (s.countedAll.freq[b.toNat]?).getD 0 ≠ 0 := by
  obtain ⟨counted, rfl, hfreq, -⟩ := countLoop_start s.params (streamBytes s.inRest)
  rw [List.take_of_length_le (Nat.le_sub_of_add_le hf)] at hfreq
  have hpos : 0 < (streamBytes s.inRest).countP fun c => c.toNat == b.toNat :=
    List.countP_pos_iff.mpr ⟨b, hb, by simp⟩
  rw [Vector.getElem?_eq_getElem (by omega)]
  intro hzero
  rw [← hfreq b.toNat b.isLt] at hpos
  exact hpos.ne' (congrArg BitVec.toNat hzero)

/-- GENCODES gives a code to every symbol of the tree (R150, R157). -/
theorem withCodes_valid (s : State) {tree : HTree} {sym : Nat} (h : sym < 257) (hm : BitVec.ofNat 9 sym ∈ tree.symbols) :
    ((s.withCodes tree).codeOf sym).valid = true := by
  rw [codeOf_eq h]
  exact (codesOf_valid tree h).mpr ⟨_, hm, by rw [BitVec.toNat_ofNat, Nat.mod_eq_of_lt (by omega)]⟩

/-- What COUNT, BUILD and GENCODES make of a state `s`, from the bytes of its input: a tree, and a code for every byte and
for the sentinel. The output is as it was (R113). -/
structure Coded (s : State) (tree : HTree) (t : State) : Prop where
  inv : Inv t
  err : t.err = false
  treeValid : t.treeValid = true
  codesValid : t.codesValid = true
  holds : t.tree = some tree
  shape : TreeShape tree
  bytes : ∀ b ∈ streamBytes s.inRest, (t.codeOf b.toNat).valid = true
  sentinel : (t.codeOf 256).valid = true
  params : t.params = s.params
  inBytes : t.inBytes = s.inBytes
  outBits : t.outBits = s.outBits
  outClosed : t.outClosed = s.outClosed

/-- COUNT, BUILD and GENCODES over bytes that fit: BUILD's tree has a leaf for each symbol with a count, and GENCODES gives
each a code (R113, R141, R157). -/
theorem execAll_coded (h : Inv s) (he : s.err = false) (hf : s.BytesFit) :
    ∃ tree t, execAll [.count, .build, .gencodes] s = .next t ∧ Coded s tree t := by
  have hcount := exec_count_run he hf
  have hinv := exec_keeps_inv h hcount
  have hbuild : exec .build s.countedAll = .next s.countedAll.built := exec_build_run he rfl
  obtain ⟨tree, ht, hs, -, -, hsym⟩ := buildHoldsTheTree _ _ hinv he rfl hbuild
  have hgen := exec_gencodes_run (s := s.countedAll.built) he rfl ht
  have h256 : (s.countedAll.freq[256]?).getD 0 ≠ 0 := by
    rw [Vector.getElem?_eq_getElem (by decide), (hinv.freq rfl).1]
    decide
  refine ⟨tree, s.countedAll.built.withCodes tree, ?_,
    { inv := exec_keeps_inv (exec_keeps_inv hinv hbuild) hgen
      err := he
      treeValid := rfl
      codesValid := rfl
      holds := ht
      shape := hs
      bytes := fun b hb => withCodes_valid _ (by omega) ((hsym _ (by omega)).mpr (countedAll_freq_byte hf hb))
      sentinel := withCodes_valid _ (by decide) ((hsym 256 (by decide)).mpr h256)
      params := rfl
      inBytes := rfl
      outBits := rfl
      outClosed := rfl }⟩
  rw [execAll_cons hcount, execAll_cons hbuild, execAll_cons hgen, execAll]

/-! ### COMPRESS: the stream -/

/-- The state WR_HEADER, WR_TREE and REWIND leave: P_MAGIC and the tree's encoding are written, and the input is at its
start (R113). -/
def State.headerWritten (s : State) (tree : HTree) : State :=
  (s.outAppend (fieldBits 32 s.params.magic.toNat) |>.outAppend tree.encoding).inRewind

@[simp] theorem State.headerWritten_err (tree : HTree) : (s.headerWritten tree).err = s.err := by
  simp [State.headerWritten]
@[simp] theorem State.headerWritten_outClosed (tree : HTree) : (s.headerWritten tree).outClosed = s.outClosed := by
  simp [State.headerWritten]
@[simp] theorem State.headerWritten_codesValid (tree : HTree) : (s.headerWritten tree).codesValid = s.codesValid := by
  simp [State.headerWritten]
@[simp] theorem State.headerWritten_outBits (tree : HTree) :
    (s.headerWritten tree).outBits = s.outBits ++ fieldBits 32 s.params.magic.toNat ++ tree.encoding := by
  simp [State.headerWritten]
@[simp] theorem State.headerWritten_tree (tree : HTree) : (s.headerWritten tree).tree = s.tree := by
  simp [State.headerWritten, State.tree]
@[simp] theorem State.headerWritten_codeOf (tree : HTree) : (s.headerWritten tree).codeOf = s.codeOf := by
  funext sym
  simp [State.headerWritten, State.codeOf]

/-- After REWIND all bytes of the input are to come (R181). -/
@[simp] theorem State.headerWritten_bytes (tree : HTree) : streamBytes (s.headerWritten tree).inRest = s.inBytes :=
  inRest_bytes rfl

/-- WR_HEADER, WR_TREE and REWIND on an open output and a valid tree (R113). -/
theorem execAll_headerWritten {tree : HTree} (he : s.err = false) (ho : s.outClosed = false) (hv : s.treeValid = true)
    (ht : s.tree = some tree) : execAll [.wrHeader, .wrTree, .rewind] s = .next (s.headerWritten tree) :=
  (execAll_cons (exec_wrHeader_run he ho)).trans <|
    (execAll_cons (s := s.outAppend _) (exec_wrTree_run he hv ho ht)).trans <|
    execAll_cons (rewindResult _ he)

theorem Inv.headerWritten (h : Inv s) (ho : s.outClosed = false) (tree : HTree) : Inv (s.headerWritten tree) :=
  ((h.outAppend ho _).outAppend ho _).inRewind

/-- The state COMPRESS leaves before its CLOSE, from the one its GENCODES left (R113). -/
def State.compressed (s : State) (tree : HTree) : State := (s.headerWritten tree).encodedAll

@[simp] theorem State.compressed_err (tree : HTree) : (s.compressed tree).err = s.err := by simp [State.compressed]
@[simp] theorem State.compressed_outClosed (tree : HTree) : (s.compressed tree).outClosed = s.outClosed := by
  simp [State.compressed]
@[simp] theorem State.compressed_tree (tree : HTree) : (s.compressed tree).tree = s.tree := by simp [State.compressed]
@[simp] theorem State.compressed_codeOf (tree : HTree) : (s.compressed tree).codeOf = s.codeOf := by
  simp [State.compressed]

/-- The ENCODE of COMPRESS appends the payload of the whole input (R186). -/
theorem compressed_outBits (s : State) (tree : HTree) :
    (s.compressed tree).outBits = (s.headerWritten tree).outBits ++ s.payloadOf s.inBytes := by
  simp [State.compressed, State.payloadOf]

/-- The ENCODE of COMPRESS finds a code for every byte and for the sentinel (R186, R193). -/
theorem Coded.exec_encode {tree : HTree} {t : State} (h : Coded s tree t) (hpos : s.inPos = 0)
    (ho : s.outClosed = false) : exec .encode (t.headerWritten tree) = .next (t.compressed tree) := by
  have hbytes : streamBytes s.inRest = s.inBytes := inRest_bytes hpos
  have hcodes := h.bytes
  rw [hbytes] at hcodes
  exact exec_encode_run (by simp [h.err]) (by simp [h.codesValid]) (by simp [h.outClosed, ho])
    (by simpa [h.inBytes] using hcodes) (by simp [h.sentinel])

/-- COMPRESS over the bytes of an input at its start, where they fit (R113, R193). -/
theorem execAll_compress (h : Inv s) (he : s.err = false) (hpos : s.inPos = 0) (ho : s.outClosed = false)
    (hf : s.BytesFit) :
    ∃ tree t, execAll compressSequence s = .next (t.compressed tree).outClose ∧ Coded s tree t := by
  obtain ⟨tree, t, hexec, hc⟩ := execAll_coded h he hf
  have hheaderWritten := execAll_headerWritten hc.err (hc.outClosed.trans ho) hc.treeValid hc.holds
  refine ⟨tree, t, ?_, hc⟩
  calc execAll compressSequence s
    _ = execAll [.wrHeader, .wrTree, .rewind, .encode, .close] t := execAll_append hexec _
    _ = execAll [.encode, .close] (t.headerWritten tree) := execAll_append hheaderWritten _
    _ = .next (t.compressed tree).outClose := execAll_cons (hc.exec_encode hpos ho)

/-! ### DECOMPRESS -/

/-- RD_HEADER and RD_TREE on P_MAGIC and the encoding of a tree of a legal shape: the block holds the tree, and the output
is as it was (R106, R113). -/
theorem execAll_rdHeader_rdTree {tree : HTree} {rest : List Bool} (he : s.err = false) (hs : TreeShape tree)
    (hin : s.inRest = fieldBits 32 s.params.magic.toNat ++ (tree.encoding ++ rest)) :
    ∃ t, execAll [.rdHeader, .rdTree] s = .next t ∧ t.err = false ∧ t.treeValid = true ∧ t.tree = some tree ∧
      t.inRest = rest ∧ t.outClosed = s.outClosed ∧ t.outBits = s.outBits := by
  obtain ⟨-, hin'⟩ := inRest_inAdvance s hin
  refine ⟨(s.inAdvance (tree.encoding ++ rest)).treeRead tree rest, ?_, he, rfl, treeRead_tree _ hs rest,
    treeRead_inRest hin', rfl, rfl⟩
  rw [execAll_cons (exec_rdHeader_run he hin)]
  exact execAll_cons (exec_rdTree_run (s := s.inAdvance _) he hs hin')

/-- DECOMPRESS on the parts of a stream: P_MAGIC, the encoding of a tree, and a payload that ENCODE wrote with that tree
(R106, R113). -/
theorem execAll_decompress {w t u : State} {tree : HTree} {bits rest : List Bool} (h : Inv w) (hwe : w.err = false)
    (hexec : exec .encode w = .next t) (hte : t.err = false) (hbits : t.outBits = w.outBits ++ bits)
    (hs : TreeShape tree) (ht : w.tree = some tree) (he : u.err = false) (ho : u.outClosed = false)
    (hin : u.inRest = fieldBits 32 u.params.magic.toNat ++ (tree.encoding ++ (bits ++ rest))) :
    ∃ v : State, execAll decompressSequence u = .next v.outClose ∧ v.err = false ∧ v.eofSeen = true ∧
      v.outBits = u.outBits ++ streamBits (streamBytes w.inRest) := by
  obtain ⟨r, hread, hre, hrv, hrt, hrin, hro, hrout⟩ := execAll_rdHeader_rdTree he hs hin
  obtain ⟨v, hdecode, hve, heof, -, hout⟩ :=
    payloadRoundTrip w t r bits rest h hwe hexec hte hbits hre hrv (hro.trans ho) (hrt.trans ht.symm) hrin
  refine ⟨v, ?_, hve, heof, hrout ▸ hout⟩
  calc execAll decompressSequence u
    _ = execAll [.decode, .close] r := execAll_append hread _
    _ = .next v.outClose := execAll_cons hdecode

/-- CLOSE ends the stream of COMPRESS: its parts, fewer than 8 zero bits, whole bytes (R75, R106). -/
theorem Coded.stream {tree : HTree} {t : State} (h : Coded s tree t) (hout : s.outBits = []) (ho : s.outClosed = false) :
    (t.compressed tree).outClose.outBits.length % 8 = 0 ∧ ∃ k < 8, (t.compressed tree).outClose.outBits =
      fieldBits 32 s.params.magic.toNat ++ tree.encoding ++ t.payloadOf s.inBytes ++ List.replicate k false := by
  have hopen : (t.compressed tree).outClosed = false := by simp [h.outClosed, ho]
  obtain ⟨k, hk, hpad⟩ := padding_eq (t.compressed tree).outBits.length
  refine ⟨outClose_whole _ (by simp [h.outClosed, ho]), k, hk, ?_⟩
  rw [outClose_of_open hopen, hpad, compressed_outBits, State.headerWritten_outBits, h.outBits, hout, h.params, h.inBytes,
    List.nil_append]

/-- DECOMPRESS of the stream COMPRESS wrote gives the input back (R209). -/
theorem Coded.decompress {tree : HTree} {t u : State} {rest : List Bool} (h : Coded s tree t) (hpos : s.inPos = 0)
    (ho : s.outClosed = false) (he : u.err = false) (hout : u.outBits = []) (huo : u.outClosed = false)
    (hin : u.inRest = fieldBits 32 u.params.magic.toNat ++ (tree.encoding ++ (t.payloadOf s.inBytes ++ rest))) :
    ∃ v : State, execAll decompressSequence u = .next v.outClose ∧ v.err = false ∧ v.eofSeen = true ∧
      v.outBits = streamBits s.inBytes := by
  have hinv : Inv (t.headerWritten tree) := h.inv.headerWritten (h.outClosed.trans ho) tree
  rw [← h.inBytes] at hin
  obtain ⟨v, hv, hve, heof, hvout⟩ := execAll_decompress hinv (by simp [h.err]) (h.exec_encode hpos ho) (by simp [h.err])
    (compressed_outBits t tree) h.shape (by simp [h.holds]) he huo hin
  exact ⟨v, hv, hve, heof, by rw [hvout, hout, List.nil_append, State.headerWritten_bytes, h.inBytes]⟩

/-- Settles O45: COMPRESS up to its ENCODE, then the payload and CLOSE; and DECOMPRESS on the parts of that stream. -/
theorem compressThenDecompress : Obligations.CompressThenDecompress := by
  intro s h he hpos hout ho hlen
  have hbytes : streamBytes s.inRest = s.inBytes := inRest_bytes hpos
  obtain ⟨tree, t, hcompress, hc⟩ := execAll_compress h he hpos ho (by rw [State.BytesFit, hbytes]; exact hlen)
  obtain ⟨hwhole, k, hk, hstream⟩ := hc.stream hout ho
  refine ⟨_, hcompress, by simp [hc.err], State.outClose_outClosed _, hwhole,
    ⟨tree, fieldBits 32 s.params.magic.toNat, k, by simp [hc.holds],
      ⟨fieldBits_length 32 _, fun j hj => fieldBits_getElem? hj⟩, hk, ?_⟩, ?_⟩
  · simp [hstream, State.payloadOf]
  · intro u hmagic hue hin hupos huout huopen
    have hin : u.inRest = fieldBits 32 u.params.magic.toNat ++
        (tree.encoding ++ (t.payloadOf s.inBytes ++ List.replicate k false)) := by
      rw [State.inRest, hupos, hin, List.drop_zero, streamBits_streamBytes _ hwhole, hstream, hmagic]
      simp only [List.append_assoc]
    obtain ⟨v, hv, hve, heof, hvout⟩ := hc.decompress hpos ho hue huout huopen hin
    have hvwhole : v.outBits.length % 8 = 0 := by rw [hvout, streamBits_length]; exact Nat.mul_mod_right 8 _
    exact ⟨_, hv, by simp [hve], by simp [heof], State.outClose_outClosed _, (outClose_of_whole hvwhole).trans hvout⟩

end Sys2Proof.Machine
end

section
/-!
PROOFS of family 40_frequency_counter.md, O23: the bytes COUNT's loop takes are all of them where they fit (R132), so what
the loop keeps (R133) is said of the whole rest of the input.
-/

namespace Sys2Proof.Machine

variable {s : State}

/-- FREQ and TOTAL after a COUNT of bytes that fit: each byte's count, 1 for the sentinel, and their sum (R130, R133). -/
theorem countedAll_counts (hf : s.BytesFit) :
    (∀ sym (_ : sym < 256), s.countedAll.freq[sym].toNat = (streamBytes s.inRest).countP fun b => b.toNat == sym) ∧
    s.countedAll.freq[256] = 1#32 ∧ s.countedAll.total.toNat = (streamBytes s.inRest).length + 1 ∧
    s.countedAll.freqTotal = s.countedAll.total.toNat := by
  obtain ⟨counted, hcounted, hfreq, hsentinel, htotal, hsum, -⟩ := countLoop_start s.params (streamBytes s.inRest)
  obtain rfl : counted = streamBytes s.inRest :=
    hcounted.trans (List.take_of_length_le (Nat.le_sub_of_add_le hf))
  exact ⟨hfreq, hsentinel, htotal.trans (Nat.add_comm 1 _), hsum⟩

/-- Settles O23, from the state a COUNT of bytes that fit leaves and the counts there. -/
theorem countResult : Obligations.CountResult := fun _ he hf =>
  ⟨_, exec_count_run he hf, rfl, countedAll_counts hf⟩

end Sys2Proof.Machine
end

section
/-!
PROOFS of family 41_tree_builder.md, O25 to O27: the slots a BUILD that runs has filled are those of `buildNodes`, and a
slot with an internal node is a merge (`MergedAt`). The layout, the order of the merges and their weights are read off that.
-/

namespace Sys2Proof.Machine

variable {s t : State} {p : Params} {nodes : List Node} {m : Nat} {a b : Key}

/-! ### A merge -/

/-- The order of keys in numbers (R142). -/
theorem Key.before_iff_toNat (a b : Key) : a.before b = true ↔
    a.weight.toNat < b.weight.toNat ∨ a.weight.toNat = b.weight.toNat ∧ a.slot < b.slot := by
  rw [Key.before_iff, BitVec.toNat_inj]

/-- A key that carries its slot's weight carries the weight of the node found there. -/
theorem Key.weight_of_slot {k : Key} (h : ∃ n, nodes[k.slot]? = some n ∧ n.weight = k.weight) {n : Node}
    (hn : nodes[k.slot]? = some n) : n.weight = k.weight := by
  obtain ⟨n', hn', hw⟩ := h
  cases hn.symm.trans hn'
  exact hw

/-- A merge takes two slots: one slot has one weight, and no key comes before itself. -/
theorem MergedAt.slots_ne (h : MergedAt p nodes m a b) : a.slot ≠ b.slot := by
  intro heq
  obtain ⟨n, hn, hw⟩ := h.weightLeft
  have hwb : n.weight = b.weight := Key.weight_of_slot h.weightRight (heq ▸ hn)
  rcases (Key.before_iff a b).mp h.order with hlt | ⟨-, hlt⟩
  · rw [← hw, hwb] at hlt
    exact Nat.lt_irrefl _ hlt
  · exact Nat.ne_of_lt hlt heq

/-! ### The slots a BUILD that runs has filled -/

/-- What BUILD answers past its checks is the state it builds (R140). -/
theorem exec_build_eq (he : s.err = false) (hv : s.freqValid = true) (h : exec .build s = .next t) : t = s.built :=
  Host.Outcome.next.inj (h.symm.trans (exec_build_run he hv))

theorem built_count_eq (s : State) :
    s.built.nodeCount.toNat = (symsOf s.freq).length + ((symsOf s.freq).length - 1) := by
  rw [built_count, buildNodes_length]

theorem built_node_of_lt (h : m < s.built.nodeCount.toNat) :
    s.built.node[m]? = (buildNodes s.params s.freq)[m]? := by
  rw [built_node, if_pos (by rwa [← built_count])]

theorem built_node_of_ge (h : s.built.nodeCount.toNat ≤ m) : s.built.node[m]? = s.node[m]? := by
  rw [built_node, if_neg (by rw [← built_count]; omega)]

/-- The slots active when slot m is made, read off the node memory (R140). -/
theorem activeAt_built (hm : m ≤ s.built.nodeCount.toNat) (i : Nat) : ActiveAt (buildNodes s.params s.freq) m i ↔
    i < m ∧ ∀ j < m, ∀ n, s.built.node[j]? = some n → n.leaf = false → n.left.toNat ≠ i ∧ n.right.toNat ≠ i := by
  have hnode : ∀ j < m, s.built.node[j]? = (buildNodes s.params s.freq)[j]? := fun j hj =>
    built_node_of_lt (Nat.lt_of_lt_of_le hj hm)
  constructor <;> rintro ⟨hi, hchildren⟩ <;> refine ⟨hi, fun j hj n hn => hchildren j hj n ?_⟩
  · rwa [← hnode j hj]
  · rwa [hnode j hj]

/-- A merge behind the leaves fills the slot (R143), and no weight overflows where Inv bounds FREQ's sum (R145). -/
theorem built_merge (h : Inv s) (hv : s.freqValid = true) (hL : (symsOf s.freq).length ≤ m)
    (hm : m < s.built.nodeCount.toNat) : ∃ a b, MergedAt s.params (buildNodes s.params s.freq) m a b ∧
      s.built.node[m]? = some (mergeNode s.params a b) ∧ a.weight.toNat + b.weight.toNat < 2 ^ s.params.wFreq.val := by
  obtain ⟨a, b, hmerge, hfits⟩ := buildNodes_merges s.params s.freq hL (by rwa [← built_count_eq])
  have hsum : freqSum s.freq = s.total.toNat := (h.freq hv).2
  exact ⟨a, b, hmerge, (built_node_of_lt hm).trans hmerge.node, hfits (hsum ▸ h.total)⟩

/-- An internal node in a slot BUILD filled is a merge. -/
theorem built_internal (h : Inv s) (hv : s.freqValid = true) {n : Node} (hm : m < s.built.nodeCount.toNat)
    (hn : s.built.node[m]? = some n) (hl : n.leaf = false) :
    ∃ a b, MergedAt s.params (buildNodes s.params s.freq) m a b ∧ n = mergeNode s.params a b ∧
      a.weight.toNat + b.weight.toNat < 2 ^ s.params.wFreq.val := by
  obtain ⟨hL, -⟩ := buildNodes_internal s.params s.freq ((built_node_of_lt hm).symm.trans hn) hl
  obtain ⟨a, b, hmerge, hnode, hfits⟩ := built_merge h hv hL hm
  exact ⟨a, b, hmerge, Option.some.inj (hn.symm.trans hnode), hfits⟩

/-! ### The layout -/

/-- Settles O25: the leaves by `buildNodes_leaf`, the internal slots as merges of two active slots, which lie below. -/
theorem buildLayout : Obligations.BuildLayout := by
  intro s h he hv
  have h256 : s.freq[256] = 1#32 := (h.freq hv).1
  have hpos := symsOf_pos s.freq h256
  have hcount := built_count_eq s
  refine ⟨s.built, exec_build_run he hv, rfl, symsOf s.freq, rfl, hpos, symsOf_length s.freq, by omega, ?_,
    fun k sym hk => ?_, fun m n hL hm hn => ?_, fun m hm => built_node_of_ge (by omega)⟩
  · rw [built_root s h256, ← built_count]
    omega
  · have hlt : k < (symsOf s.freq).length := (List.getElem?_eq_some_iff.mp hk).1
    rw [built_node_of_lt (by omega), buildNodes_leaf s.params s.freq hk]
    rfl
  · obtain ⟨a, b, hmerge, hnode, -⟩ := built_merge h hv hL (by omega)
    cases hn.symm.trans hnode
    refine ⟨rfl, rfl, hmerge.left ▸ hmerge.activeLeft.1, hmerge.right ▸ hmerge.activeRight.1, fun heq => ?_⟩
    exact hmerge.slots_ne (by rw [← hmerge.left, ← hmerge.right, heq])

/-! ### The order of the merges -/

/-- Settles O26: an internal slot is a merge, and its keys are the slots' weights in the node memory. -/
theorem buildMergesTheTwoLeast : Obligations.BuildMergesTheTwoLeast := by
  intro s t h he hv hexec active weight hactive hweight m n hm hn hleaf
  obtain rfl := exec_build_eq he hv hexec
  obtain ⟨a, b, hmerge, rfl, -⟩ := built_internal h hv hm hn hleaf
  have hact : ∀ i, active m i ↔ ActiveAt (buildNodes s.params s.freq) m i := fun i =>
    (hactive m i).trans (activeAt_built (Nat.le_of_lt hm) i).symm
  have hkey : ∀ k : Key, k.slot < m → (∃ n, (buildNodes s.params s.freq)[k.slot]? = some n ∧ n.weight = k.weight) →
      weight k.slot = k.weight.toNat := by
    rintro k hk ⟨n, hn, hw⟩
    rw [hweight _ n ((built_node_of_lt (hk.trans hm)).trans hn), hw]
  rw [hmerge.left, hmerge.right, hkey a hmerge.activeLeft.1 hmerge.weightLeft,
    hkey b hmerge.activeRight.1 hmerge.weightRight]
  refine ⟨(hact _).mpr hmerge.activeLeft, (hact _).mpr hmerge.activeRight,
    (Key.before_iff_toNat a b).mp hmerge.order, fun i hi hia hib => ?_⟩
  have hi := (hact i).mp hi
  have hin := List.getElem?_eq_getElem (hi.1.trans (built_count s ▸ hm))
  rw [hkey { weight := _, slot := i } hi.1 ⟨_, hin, rfl⟩]
  exact (Key.before_iff_toNat _ _).mp (hmerge.least i _ hi hin hia hib)

/-! ### The weights -/

/-- The last slot BUILD fills weighs the sum of FREQ (R145). -/
theorem buildNodes_last (p : Params) (freq : Vector Word 257) (h : freq[256] = 1#32)
    (hfits : freqSum freq < 2 ^ p.wFreq.val) :
    ∃ n, (buildNodes p freq)[(buildNodes p freq).length - 1]? = some n ∧ n.weight.toNat = freqSum freq := by
  let leaves := leavesFrom 0 freq.toList
  have hkeys : (leafKeys 0 leaves).length = leaves.length := leafKeys_length 0 leaves
  have hpos : 0 < leaves.length := by
    rw [show leaves = _ from leaves_eq freq, List.length_map]
    exact symsOf_pos freq h
  have hone : ∀ k, leafKeys 0 leaves = [k] → ∃ n, leaves.getLast? = some n ∧ n.weight = k.weight := by
    intro k hk
    have hlen : leaves.length = 1 := by rw [← hkeys, hk]; rfl
    obtain ⟨n, hn⟩ := List.length_eq_one_iff.mp hlen
    rw [hn] at hk ⊢
    exact ⟨n, rfl, congrArg Key.weight (List.singleton_inj.mp hk)⟩
  rw [← keySum_buildKeys] at hfits ⊢
  rw [← List.getLast?_eq_getElem?]
  exact mergeLoop_last p (Nat.le_of_eq hkeys) (List.ne_nil_of_length_pos (hkeys ▸ hpos)) hfits hone

/-- Settles O27: a merge that fits weighs the sum of its keys, and the root is the last slot made. -/
theorem buildWeights : Obligations.BuildWeights := by
  intro s t h he hv hexec
  obtain rfl := exec_build_eq he hv hexec
  obtain ⟨h256, hsum⟩ : _ ∧ freqSum s.freq = s.total.toNat := h.freq hv
  refine ⟨fun m n l r hm hn hleaf hl hr => ?_, ?_⟩
  · obtain ⟨a, b, hmerge, rfl, hfits⟩ := built_internal h hv hm hn hleaf
    rw [hmerge.left, built_node_of_lt (hmerge.activeLeft.1.trans hm)] at hl
    rw [hmerge.right, built_node_of_lt (hmerge.activeRight.1.trans hm)] at hr
    rw [mergeNode_weight _ a b hfits, Key.weight_of_slot hmerge.weightLeft hl, Key.weight_of_slot hmerge.weightRight hr]
    exact ⟨rfl, hfits⟩
  · have hpos := symsOf_pos s.freq h256
    obtain ⟨n, hn, hw⟩ := buildNodes_last s.params s.freq h256 (hsum ▸ h.total)
    refine ⟨n, ?_, BitVec.eq_of_toNat_eq (hw.trans hsum)⟩
    rw [built_root s h256, built_node_of_lt (by rw [built_count, buildNodes_length]; omega), hn]

end Sys2Proof.Machine
end

section
/-!
PROOFS of family 42_code_table.md, O29 to O31: the entry GENCODES leaves for a symbol is that of its last leaf (R150, R155), so
under the invariant a code is the path of a leaf that carries its symbol, and the leaves' paths are prefix-free (R156).
-/

namespace Sys2Proof.Machine

variable {s : State} {tree : HTree} {sym : Nat}

/-! ### The entry of a symbol -/

/-- The entry of a symbol with a leaf holds the path of its last one (R150, R155). -/
theorem codesOf_of_lastLeaf {leaf : Symbol × List Bool} (hsym : sym < 257) (h : tree.lastLeaf sym = some leaf) :
    (codesOf tree)[sym] = CodeEntry.ofPath leaf.2 := by
  rw [codesOf_getElem tree hsym, h]

/-- A symbol without a leaf has the empty entry (R45, R150). -/
theorem codesOf_of_no_leaf (hsym : sym < 257) (h : ∀ leaf ∈ tree.paths [], leaf.1.toNat ≠ sym) :
    (codesOf tree)[sym] = CodeEntry.empty := by
  have hnone : tree.lastLeaf sym = none := by
    rw [Option.eq_none_iff_forall_ne_some]
    intro leaf hleaf
    obtain ⟨hmem, hcarries⟩ := HTree.lastLeaf_mem hleaf
    exact h leaf hmem hcarries
  rw [codesOf_getElem tree hsym, hnone]

/-- Settles O29: the leaf picked out is the last one that carries the symbol, and the tree's shape bounds its path. -/
theorem gencodesResult : Obligations.GencodesResult := by
  intro s tree he hv ht hs
  refine ⟨s.withCodes tree, exec_gencodes_run he hv ht, rfl, fun sym hsym =>
    ⟨(codesOf tree)[sym], Vector.getElem?_eq_getElem hsym, ?_, codesOf_of_no_leaf hsym⟩⟩
  intro before v p after hpaths hcarries hafter
  have hlen : p.length ≤ 256 := hs.path_length (leaf := (v, p)) (by simp [hpaths])
  rw [codesOf_of_lastLeaf hsym (HTree.lastLeaf_eq hpaths hcarries hafter)]
  exact ⟨rfl, CodeEntry.path_ofPath hlen, hlen, fun k => CodeEntry.ofPath_beyond p⟩

/-! ### Codes as paths of leaves -/

/-- Settles O30: two codes are paths of leaves of the tree, and a leaf whose path begins another's is that leaf. -/
theorem codesArePrefixFree : Obligations.CodesArePrefixFree := by
  intro s h hc a b ha hb hne hva hvb hprefix
  obtain ⟨tree, ht, hs, -⟩ := h.tree (h.codes hc).1
  have hleaf := tree.paths_prefixFree (h.code_leaf hc ht hs ha hva) (h.code_leaf hc ht hs hb hvb) hprefix
  have hsym : a % 2 ^ 9 = b % 2 ^ 9 := by simpa using congrArg (BitVec.toNat ∘ Prod.fst) hleaf
  omega

/-! ### The sentinel -/

/-- GENCODES gives a code to the symbols of the tree and to no other (R150, R157). -/
theorem withCodes_valid_iff (s : State) (hsym : sym < 257) :
    ((s.withCodes tree).codeOf sym).valid = true ↔ BitVec.ofNat 9 sym ∈ tree.symbols := by
  refine ⟨fun h => ?_, withCodes_valid s hsym⟩
  rw [codeOf_eq hsym] at h
  obtain ⟨v, hv, rfl⟩ := (codesOf_valid tree hsym).mp h
  simpa using hv

/-- The tree BUILD makes has a leaf that carries the sentinel (R40, R141). -/
theorem build_sentinel {t : State} (h : Inv s) (he : s.err = false) (hv : s.freqValid = true)
    (hexec : exec .build s = .next t) : ∃ tree, t.tree = some tree ∧ eofSym ∈ tree.symbols := by
  obtain ⟨tree, ht, -, -, -, hsymbols⟩ := buildHoldsTheTree s t h he hv hexec
  exact ⟨tree, ht, (hsymbols 256 (by decide)).mpr (by simp [(h.freq hv).1])⟩

/-- Settles O31: the codes GENCODES leaves are those of the tree's symbols, and BUILD's tree has the sentinel's leaf. -/
theorem sentinelHasACode : Obligations.SentinelHasACode := by
  refine ⟨fun s t tree he hv ht hexec => ?_, fun s t h he hv hexec => ?_⟩
  · obtain rfl := Host.Outcome.next.inj (hexec.symm.trans (exec_gencodes_run he hv ht))
    exact withCodes_valid_iff s (by decide)
  · obtain ⟨tree, ht, hmem⟩ := build_sentinel h he hv hexec
    obtain rfl := exec_build_eq he hv hexec
    exact ⟨_, exec_gencodes_run he rfl ht, rfl, (withCodes_valid_iff _ (by decide)).mpr hmem⟩

end Sys2Proof.Machine
end

section
/-!
PROOFS of family 43_tree_codec.md, O33 and O35: the node memory RD_TREE leaves is the preorder layout of the tree it read
over the old slots (R164, R165), and what it reads of WR_TREE's bits is the tree WR_TREE walked (R170).
-/

namespace Sys2Proof.Machine

variable {s : State} {tree : HTree} {i : Nat}

/-! ### The slots RD_TREE fills -/

/-- A tree of a legal shape fits in the node memory (R166). -/
theorem TreeShape.size_le (hs : TreeShape tree) : tree.size ≤ 513 := by
  have := tree.size_eq
  have := hs.internals
  omega

theorem fillNodes_getElem?_of_ge (mem : Vector Node 513) {nodes : List Node} (h : nodes.length ≤ i) :
    (fillNodes mem nodes)[i]? = mem[i]? := by
  by_cases hi : i < 513
  · rw [Vector.getElem?_eq_getElem hi, Vector.getElem?_eq_getElem hi, fillNodes_getElem _ _ hi, List.getElem?_eq_none h,
      Option.getD_none]
  · rw [Vector.getElem?_eq_none (Nat.le_of_not_lt hi), Vector.getElem?_eq_none (Nat.le_of_not_lt hi)]

/-- A node of the preorder layout is in its slot (R165). -/
theorem treeRead_node (s : State) (hs : TreeShape tree) (rest : List Bool) {n : Node}
    (h : (tree.layout 0)[i]? = some n) : (s.treeRead tree rest).node[i]? = some n :=
  fillNodes_getElem? s.node (tree.layout_length 0 ▸ hs.size_le) h

/-- Below NODE_COUNT the slots are those of the preorder layout (R165). -/
theorem treeRead_node_of_lt (s : State) (hs : TreeShape tree) (rest : List Bool) (h : i < tree.size) :
    (s.treeRead tree rest).node[i]? = (tree.layout 0)[i]? := by
  have hlayout : i < (tree.layout 0).length := by rwa [HTree.layout_length]
  rw [List.getElem?_eq_getElem hlayout]
  exact treeRead_node s hs rest (List.getElem?_eq_getElem hlayout)

/-- The slots from NODE_COUNT on keep their contents (R164). -/
theorem treeRead_node_of_ge (s : State) (rest : List Bool) (h : tree.size ≤ i) :
    (s.treeRead tree rest).node[i]? = s.node[i]? :=
  fillNodes_getElem?_of_ge s.node (by rwa [HTree.layout_length])

/-- The tree's nodes stand in preorder from slot 0 (R165). -/
theorem treeRead_preorderSlots (s : State) (hs : TreeShape tree) (rest : List Bool) :
    preorderSlots (s.treeRead tree rest).node tree 0 :=
  preorderSlots_of_layout _ tree 0 (by have := hs.size_le; omega) fun j n hj => by
    rw [Nat.zero_add]
    exact treeRead_node s hs rest hj

/-- A slot RD_TREE fills has WEIGHT 0, and the children of an internal one lie behind it, LEFT first (R165). -/
theorem treeRead_slot (s : State) (hs : TreeShape tree) (rest : List Bool) {n : Node} (hi : i < tree.size)
    (hn : (s.treeRead tree rest).node[i]? = some n) :
    n.weight = 0 ∧ (n.leaf = false →
      n.left.toNat = i + 1 ∧ n.left.toNat < n.right.toNat ∧ n.right.toNat < tree.size) := by
  rw [treeRead_node_of_lt s hs rest hi] at hn
  refine ⟨layout_weight tree 0 n (List.mem_of_getElem? hn), fun hleaf => ?_⟩
  simpa using layout_children tree 0 (by have := hs.size_le; omega) hn hleaf

/-! ### NODE_COUNT and the input position -/

theorem treeRead_count (s : State) (hs : TreeShape tree) (rest : List Bool) :
    (s.treeRead tree rest).nodeCount.toNat = tree.size := by
  have := hs.size_le
  show (BitVec.ofNat 10 tree.size).toNat = _
  rw [BitVec.toNat_ofNat]
  omega

/-- RD_TREE moves the input past the encoding (R164, R72). -/
theorem treeRead_inPos {rest : List Bool} (hin : s.inRest = tree.encoding ++ rest) :
    (s.treeRead tree rest).inPos = s.inPos + tree.encoding.length :=
  (inRest_inAdvance (s.dropTree.setTree _ _ _) hin).1

/-- All that RD_TREE writes: NODE, TREE, three flags and the input position (R164). -/
theorem treeRead_frame {rest : List Bool} (hin : s.inRest = tree.encoding ++ rest) :
    s.treeRead tree rest = { s with
      node := (s.treeRead tree rest).node, root := 0, nodeCount := (s.treeRead tree rest).nodeCount,
      treeValid := true, codesValid := false, eofSeen := false, inPos := s.inPos + tree.encoding.length } := by
  rw [← treeRead_inPos hin]
  rfl

/-! ### The statements -/

/-- Settles O33: RD_TREE on the encoding leaves `treeRead`, whose slots are those of the tree's preorder layout. -/
theorem rdTreeResult : Obligations.RdTreeResult := fun s _ rest he hs hin =>
  ⟨_, exec_rdTree_run he hs hin, treeRead_frame hin, treeRead_inRest hin, treeRead_tree s hs rest,
    treeRead_count s hs rest, treeRead_preorderSlots s hs rest, fun _ _ hi hn => treeRead_slot s hs rest hi hn,
    fun _ hi => treeRead_node_of_ge s rest hi⟩

/-- What WR_TREE appends is the encoding of the tree the block holds (R160). -/
theorem wrTree_bits {t : State} {bits : List Bool} (he : s.err = false) (hv : s.treeValid = true)
    (ho : s.outClosed = false) (ht : s.tree = some tree) (hexec : exec .wrTree s = .next t)
    (hbits : t.outBits = s.outBits ++ bits) : bits = tree.encoding := by
  obtain rfl := Host.Outcome.next.inj (hexec.symm.trans (exec_wrTree_run he hv ho ht))
  exact (List.append_cancel_left hbits).symm

/-- Settles O35: the bits are the encoding of the tree Inv gives, des() inverts ser() on it (`parseTree_encoding`, by
induction on the tree), and GENCODES sees a node memory only through the tree it holds. -/
theorem treeRoundTrip : Obligations.TreeRoundTrip := by
  intro s t u bits rest h he hv ho hexec hbits hue hin
  obtain ⟨tree, ht, hs, -⟩ := h.tree hv
  obtain rfl := wrTree_bits he hv ho ht hexec hbits
  have hread : (u.treeRead tree rest).tree = some tree := treeRead_tree u hs rest
  exact ⟨u.treeRead tree rest, exec_rdTree_run hue hs hin, hue, rfl, hread.trans ht.symm, treeRead_inPos hin,
    treeRead_inRest hin, s.withCodes tree, (u.treeRead tree rest).withCodes tree, exec_gencodes_run he hv ht,
    exec_gencodes_run hue rfl hread, rfl⟩

end Sys2Proof.Machine
end

section
/-!
PROOFS of family 44_encoder.md, O21 and O36 to O39: WR_HEADER and ENC_SYM past their checks (R180, R182), the three ways
ENCODE can end (R186, R242), and, by induction on the symbols, the ENC_SYMs that do what a successful ENCODE does (R187).
-/

namespace Sys2Proof.Machine

variable {s : State} {sym : Symbol}

/-! ### WR_HEADER -/

/-- Settles O21: the bits of the 32-bit field P_MAGIC. -/
theorem wrHeaderResult : Obligations.WrHeaderResult := fun _ he ho =>
  ⟨_, fieldBits_length 32 _, fun _ => fieldBits_getElem?, exec_wrHeader_run he ho⟩

/-! ### ENC_SYM -/

/-- The operand check passes (R103). -/
theorem withSymbol_run (h : sym.toNat ≤ 256) (op : BitVec 4) (run : Nat → Outcome) :
    withSymbol s op sym run = run sym.toNat := if_pos h

/-- The operand check fails (R103). -/
theorem withSymbol_illegal (h : 256 < sym.toNat) (op : BitVec 4) (run : Nat → Outcome) :
    withSymbol s op sym run = .next (s.raise .illegalCommand op) := if_neg (Nat.not_le_of_lt h)

theorem codeOf_of_getElem? {k : Nat} {e : CodeEntry} (h : s.code[k]? = some e) : s.codeOf k = e := by
  rw [State.codeOf, h, Option.getD_some]

/-- An illegal operand is refused before the flags are looked at (R103, R235). -/
theorem exec_encSym_illegal (he : s.err = false) (hsym : 256 < sym.toNat) :
    exec (.encSym sym) s = .next (s.raise .illegalCommand 0x8) :=
  (unlessErr_run he).trans (withSymbol_illegal hsym _ _)

/-- ENC_SYM past its checks (R182). -/
theorem exec_encSym_checked (he : s.err = false) (hsym : sym.toNat ≤ 256) (hc : s.codesValid = true)
    (ho : s.outClosed = false) : exec (.encSym sym) s =
      if (s.codeOf sym.toNat).valid then .next (s.outAppend (s.codeOf sym.toNat).path)
      else .next (s.raise .noCode 0x8) :=
  (unlessErr_run he).trans <| (withSymbol_run hsym _ _).trans <| (needsValid_run hc _ _).trans <| needsOpen_run ho _ _

/-- ENC_SYM of a symbol that has a code (R182). -/
theorem exec_encSym_run (he : s.err = false) (hsym : sym.toNat ≤ 256) (hc : s.codesValid = true)
    (ho : s.outClosed = false) (hv : (s.codeOf sym.toNat).valid = true) :
    exec (.encSym sym) s = .next (s.outAppend (s.codeOf sym.toNat).path) :=
  (exec_encSym_checked he hsym hc ho).trans (if_pos hv)

/-- ENC_SYM of a symbol that has none (R184). -/
theorem exec_encSym_noCode (he : s.err = false) (hsym : sym.toNat ≤ 256) (hc : s.codesValid = true)
    (ho : s.outClosed = false) (hv : (s.codeOf sym.toNat).valid = false) :
    exec (.encSym sym) s = .next (s.raise .noCode 0x8) :=
  (exec_encSym_checked he hsym hc ho).trans (if_neg (by simp [hv]))

/-- Settles O36: the operand check, then the entry of the symbol. -/
theorem encSymResult : Obligations.EncSymResult := by
  refine fun s sym he => ⟨fun hsym => ?_, fun hsym hc ho e hentry => ?_⟩
  · rw [exec_encSym_illegal he hsym, raise_of_noErr he]
    rfl
  · obtain rfl := codeOf_of_getElem? hentry
    refine ⟨exec_encSym_run he hsym hc ho, fun hv => ?_⟩
    rw [exec_encSym_noCode he hsym hc ho hv, raise_of_noErr he]
    rfl

/-! ### ENCODE -/

/-- Settles O37: where every code exists, ENCODE leaves `encodedAll`. -/
theorem encodeResult : Obligations.EncodeResult := by
  intro s he hc ho hbytes h256
  rw [exec_encode_run he hc ho hbytes h256, List.append_assoc]
  rfl

/-- ENCODE at the first byte with no code: that byte is consumed too (R186, R244). -/
theorem exec_encode_noCode {before after : List Byte} {b : Byte} (he : s.err = false) (hc : s.codesValid = true)
    (ho : s.outClosed = false) (hin : streamBytes s.inRest = before ++ b :: after)
    (hbefore : ∀ c ∈ before, (s.codeOf c.toNat).valid = true) (hb : (s.codeOf b.toNat).valid = false) :
    exec .encode s = .next (((s.outAppend (before.flatMap fun c => (s.codeOf c.toNat).path)).inAdvanceBytes
      (before.length + 1)).raise .noCode 0x9) := by
  have hread : (before ++ b :: after).length - after.length = before.length + 1 := by simp; omega
  refine (unlessErr_run he).trans <| (needsValid_run hc _ _).trans <| (needsOpen_run ho _ _).trans ?_
  simp only [hin, encodeLoop_noCode s.codeOf _ _ _ hbefore hb, hread]

/-- ENCODE where only the sentinel has no code: all bytes are consumed (R186, R244). -/
theorem exec_encode_noSentinel (he : s.err = false) (hc : s.codesValid = true) (ho : s.outClosed = false)
    (hbytes : ∀ c ∈ streamBytes s.inRest, (s.codeOf c.toNat).valid = true) (h256 : (s.codeOf 256).valid = false) :
    exec .encode s = .next ((s.outAppend ((streamBytes s.inRest).flatMap fun c =>
      (s.codeOf c.toNat).path)).inToEnd.raise .noCode 0x9) := by
  refine (unlessErr_run he).trans <| (needsValid_run hc _ _).trans <| (needsOpen_run ho _ _).trans ?_
  simp only [encodeLoop_valid s.codeOf _ hbytes, h256, Bool.false_eq_true, if_false]

/-- Settles O38: the two ways a code can be missing, each raised outside the error state. -/
theorem encodeNoCode : Obligations.EncodeNoCode := by
  refine fun s he hc ho => ⟨fun before b after hin hbefore hb => ?_, fun hbytes h256 => ?_⟩
  · rw [exec_encode_noCode he hc ho hin hbefore hb, raise_of_noErr (by simpa using he)]
    rfl
  · rw [exec_encode_noSentinel he hc ho hbytes h256, raise_of_noErr (by simpa using he)]
    rfl

/-! ### ENCODE as ENC_SYMs -/

theorem outAppend_outAppend (s : State) (front back : List Bool) :
    (s.outAppend front).outAppend back = s.outAppend (front ++ back) := by
  simp only [State.outAppend, List.append_assoc]

/-- ENC_SYM of symbols that all have a code appends the codes in order (R182). -/
theorem execAll_encSyms {syms : List Symbol} (he : s.err = false) (hc : s.codesValid = true) (ho : s.outClosed = false)
    (hsyms : ∀ v ∈ syms, v.toNat ≤ 256 ∧ (s.codeOf v.toNat).valid = true) :
    execAll (syms.map Instr.encSym) s = .next (s.outAppend (syms.flatMap fun v => (s.codeOf v.toNat).path)) := by
  induction syms generalizing s with
  | nil => simp [execAll, State.outAppend]
  | cons v syms ih =>
    obtain ⟨⟨hv, hcode⟩, hrest⟩ := List.forall_mem_cons.mp hsyms
    calc execAll ((v :: syms).map Instr.encSym) s
      _ = execAll (syms.map Instr.encSym) (s.outAppend (s.codeOf v.toNat).path) :=
        execAll_cons (exec_encSym_run he hv hc ho hcode)
      _ = .next ((s.outAppend _).outAppend (syms.flatMap fun v => (s.codeOf v.toNat).path)) :=
        ih (s := s.outAppend _) he hc ho hrest
      _ = .next (s.outAppend ((v :: syms).flatMap fun v => (s.codeOf v.toNat).path)) :=
        congrArg Host.Outcome.next (outAppend_outAppend s _ _)

/-- The symbols ENCODE writes the codes of: the bytes, then the sentinel (R186). -/
def payloadSyms (bytes : List Byte) : List Symbol := bytes.map (fun b => b.setWidth 9) ++ [eofSym]

/-- A byte widened to a symbol keeps its number (R8). -/
theorem byte_setWidth_toNat (b : Byte) : (b.setWidth 9).toNat = b.toNat := BitVec.toNat_setWidth_of_le (by decide)

/-- The payload is the codes of its symbols (R106). -/
theorem payloadOf_eq_payloadSyms (s : State) (bytes : List Byte) :
    s.payloadOf bytes = (payloadSyms bytes).flatMap fun v => (s.codeOf v.toNat).path := by
  simp only [payloadSyms, State.payloadOf, List.flatMap_append, List.flatMap_map, byte_setWidth_toNat,
    List.flatMap_singleton]
  rfl

/-- Each symbol of a payload whose codes exist meets what ENC_SYM needs (R103, R184). -/
theorem payloadSyms_valid {bytes : List Byte} (hbytes : ∀ b ∈ bytes, (s.codeOf b.toNat).valid = true)
    (h256 : (s.codeOf 256).valid = true) :
    ∀ v ∈ payloadSyms bytes, v.toNat ≤ 256 ∧ (s.codeOf v.toNat).valid = true := by
  intro v hv
  rcases List.mem_append.mp hv with hv | hv
  · obtain ⟨b, hb, rfl⟩ := List.mem_map.mp hv
    rw [byte_setWidth_toNat]
    exact ⟨Nat.le_of_lt b.isLt, hbytes b hb⟩
  · obtain rfl := List.mem_singleton.mp hv
    exact ⟨Nat.le_refl 256, h256⟩

/-- Settles O39: a successful ENCODE found every code, so the ENC_SYMs append the same payload. -/
theorem encodeIsEncSyms : Obligations.EncodeIsEncSyms := by
  intro s t he hexec ht
  obtain ⟨hc, ho, hbytes, h256⟩ := execEncode_succeeds he hexec ht
  refine ⟨s.outAppend (s.payloadOf (streamBytes s.inRest)), ?_,
    Host.Outcome.next.inj (hexec.symm.trans (exec_encode_run he hc ho hbytes h256))⟩
  have hrun := execAll_encSyms he hc ho (payloadSyms_valid hbytes h256)
  rwa [← payloadOf_eq_payloadSyms, payloadSyms, List.map_append, List.map_map] at hrun

end Sys2Proof.Machine
end

section
/-!
PROOFS of family 45_decoder.md, O22 and O40 to O43: RD_HEADER by how many bits are left and what they are (R200, R236),
DEC_SYM by the answer of decodeOne() (R201, R202), DECODE by how its loop ends (R206, R238, R244), and, from one turn of
that loop, DECODE as DEC_SYM followed by DECODE (R207).
-/

namespace Sys2Proof.Machine

variable {s u : State} {v : Symbol} {front rest bits : List Bool}

/-! ### The input -/

/-- Reads that took `front` off the remaining bits have moved inPos past it (R72). -/
theorem inAdvance_eq (hin : s.inRest = front ++ rest) :
    s.inAdvance rest = { s with inPos := s.inPos + front.length } := by
  rw [State.inAdvance, hin, List.length_append, Nat.add_sub_cancel]

/-! ### RD_HEADER -/

/-- RD_HEADER past its check, where the next 32 bits are not P_MAGIC (R200, R236). -/
theorem exec_rdHeader_badMagic (he : s.err = false) (hin : s.inRest = front ++ rest) (hlen : front.length = 32)
    (hne : front ≠ fieldBits 32 s.params.magic.toNat) :
    exec .rdHeader s = .next ((s.inAdvance rest).raise .badHeader 0xB) := by
  have hfield : fieldBits 32 (bitsValue front) = front := hlen ▸ fieldBits_bitsValue front
  have hread : inRead 32 s.inRest = some (bitsValue front, rest) := by
    rw [hin, ← hfield, inRead_fieldBits (hlen ▸ bitsValue_lt front), hfield]
  have hvalue : bitsValue front ≠ s.params.magic.toNat := fun h => hne (hfield ▸ h ▸ rfl)
  refine (unlessErr_run he).trans ?_
  simp only [hread, if_neg hvalue]

/-- RD_HEADER past its check, where fewer than 32 bits are left (R236). -/
theorem exec_rdHeader_short (he : s.err = false) (hlen : s.inRest.length < 32) :
    exec .rdHeader s = .next (s.inToEnd.raise .badHeader 0xB) := by
  refine (unlessErr_run he).trans ?_
  simp only [inRead_eos hlen]

/-- Settles O22, case by case: P_MAGIC as a 32-bit field, 32 other bits, and too few. -/
theorem rdHeaderResult : Obligations.RdHeaderResult := by
  refine fun s he => ⟨fun rest hin => ?_, fun hlen hne => ?_, fun hlen => ?_⟩
  · rw [exec_rdHeader_run he hin, inAdvance_eq hin, List.length_map, List.length_range]
  · have hin := (List.take_append_drop 32 s.inRest).symm
    have htake : (s.inRest.take 32).length = 32 := List.length_take_of_le hlen
    rw [exec_rdHeader_badMagic he hin htake hne, raise_of_noErr (s := s.inAdvance _) he, inAdvance_eq hin, htake]
    rfl
  · rw [exec_rdHeader_short he hlen, raise_of_noErr (s := s.inToEnd) he]
    rfl

/-! ### DEC_SYM -/

/-- The state a DEC_SYM that read `front` and decoded `v` leaves (R202, R203). -/
def State.decodedSym (s : State) (v : Symbol) (front : List Bool) : State :=
  { s with
    inPos := s.inPos + front.length, resultSym := v, resultValid := true, eofSeen := v == eofSym
    outBits := s.outBits ++ if v = eofSym then [] else fieldBits 8 v.toNat }

/-- DEC_SYM past its checks, where decodeOne() answers a symbol (R202). -/
theorem exec_decSym_run (he : s.err = false) (hv : s.treeValid = true) (ho : s.outClosed = false)
    (hin : s.inRest = front ++ rest) (hd : decodeOne s.node s.root.toNat s.inRest = .symbol v rest) :
    exec .decSym s = .next (s.decodedSym v front) := by
  refine (unlessErr_run he).trans <| (needsValid_run hv _ _).trans <| (needsOpen_run ho _ _).trans ?_
  simp only [hd, inAdvance_eq (s := s.dropResult) hin]
  by_cases heof : v = eofSym
  · simp [heof, State.decodedSym, State.setResult, State.dropResult]
  · simp [heof, State.decodedSym, State.setResult, State.dropResult, State.outWrite, State.outAppend]

/-- DEC_SYM past its checks, where the input ends before a leaf (R202). -/
theorem exec_decSym_truncated (he : s.err = false) (hv : s.treeValid = true) (ho : s.outClosed = false)
    (hd : decodeOne s.node s.root.toNat s.inRest = .eos) :
    exec .decSym s = .next (s.dropResult.inToEnd.raise .truncatedStream 0xC) := by
  refine (unlessErr_run he).trans <| (needsValid_run hv _ _).trans <| (needsOpen_run ho _ _).trans ?_
  simp only [hd]

/-- decodeOne() on a memory that holds a tree answers EOS where the bits begin with no leaf's path (R201). -/
theorem decodeOne_eos {mem : Vector Node 513} {i : Nat} {tree : HTree} (h : HoldsTree (fun j => mem[j]?) i tree)
    (hno : ∀ leaf ∈ tree.paths [], ¬ leaf.2 <+: bits) : decodeOne mem i bits = .eos := by
  rcases decodeOne_cases h bits with ⟨v, p, rest, hp, hsplit, -⟩ | ⟨hd, -⟩
  · exact absurd ⟨rest, hsplit.symm⟩ (hno _ hp)
  · exact hd

/-- Settles O40: decodeOne() follows a leaf's path to its symbol, and answers EOS where no path fits. -/
theorem decSymResult : Obligations.DecSymResult := by
  refine fun s tree he hv ho ht => ⟨fun v p rest hp hin => ?_, fun hno => ?_⟩
  · have hd : decodeOne s.node s.root.toNat s.inRest = .symbol v rest :=
      hin ▸ decodeOne_path (holdsTree_of_readTree ht) hp rest
    exact exec_decSym_run he hv ho hin hd
  · have hd : decodeOne s.node s.root.toNat s.inRest = .eos := decodeOne_eos (holdsTree_of_readTree ht) hno
    rw [exec_decSym_truncated he hv ho hd, raise_of_noErr (s := s.dropResult.inToEnd) he]
    rfl

/-! ### DECODE -/

/-- DECODE past its checks, where its loop ends at EOS (R206, R238). -/
theorem exec_decode_truncated {last : Option Symbol} (he : s.err = false) (hv : s.treeValid = true)
    (ho : s.outClosed = false) (hrun : s.decodeRun = { bits := bits, last := last, stop := .eos }) :
    exec .decode s =
      .next (((s.dropResult.outAppend bits).setLast last).inToEnd.raise .truncatedStream 0xD) := by
  rw [State.decodeRun] at hrun
  refine (unlessErr_run he).trans <| (needsValid_run hv _ _).trans <| (needsOpen_run ho _ _).trans ?_
  simp only [hrun]

/-- The bits written for some leaves are those of their symbols (R203). -/
theorem emitted_map_fst (leaves : List (Symbol × List Bool)) :
    emitted (leaves.map Prod.fst) = leaves.flatMap fun leaf => fieldBits 8 leaf.1.toNat := List.flatMap_map ..

/-- Settles O41: DECODE on the paths of the leaves and the sentinel's leaves `decodedTo`, behind exactly these bits. -/
theorem decodeResult : Obligations.DecodeResult := by
  intro s tree leaves p rest he hv ho ht hs hl hne hp hin
  rw [exec_decode_run he hv ho ht hs hl hne hp hin, State.decodedTo,
    inAdvance_eq (s := (s.dropResult.outAppend _).setResult _) hin, emitted_map_fst, List.length_append, ← Nat.add_assoc]
  rfl

/-- Settles O42: the loop reads the leaves' paths and answers EOS behind them. -/
theorem decodeTruncated : Obligations.DecodeTruncated := by
  intro s tree leaves tail he hv ho ht hs hl hne hin hno
  have hfuel : leaves.length < s.inRest.length + 1 := by
    have := hs.payload_length hl hne
    rw [hin, List.length_append]
    omega
  have hrun : s.decodeRun =
      { bits := emitted (leaves.map Prod.fst), last := (leaves.map Prod.fst).getLast?, stop := .eos } := by
    have := decodeLoop_truncated (holdsTree_of_readTree ht) leaves (fun leaf h => ⟨hl leaf h, hne leaf h⟩) hno none hfuel
    rwa [← payload, ← hin, Option.or_none] at this
  have hvalid : ((leaves.map Prod.fst).getLast?).isSome = !leaves.isEmpty := by
    cases leaves with
    | nil => rfl
    | cons leaf leaves => simp
  rw [exec_decode_truncated he hv ho hrun, raise_of_noErr (by simpa using he), emitted_map_fst, ← hvalid]
  cases (leaves.map Prod.fst).getLast? <;> rfl

/-! ### DECODE as DEC_SYMs -/

/-- Where DEC_SYM raises nothing, decodeOne() has answered a symbol (R202). -/
theorem exec_decSym_succeeds (he : s.err = false) (h : exec .decSym s = .next u) (hu : u.err = false) :
    s.treeValid = true ∧ s.outClosed = false ∧ ∃ v front rest, s.inRest = front ++ rest ∧
      decodeOne s.node s.root.toNat s.inRest = .symbol v rest ∧ u = s.decodedSym v front := by
  rcases execDecSym_next h with ⟨h', -⟩ | ⟨-, ⟨-, rfl⟩ | ⟨hv, ⟨-, rfl⟩ | ⟨ho, ⟨-, rfl⟩ | ⟨v, rest, hd, -⟩⟩⟩⟩
  · rw [he] at h'; cases h'
  · simp at hu
  · simp at hu
  · simp at hu
  · obtain ⟨front, hin⟩ := decodeOne_suffix hd
    exact ⟨hv, ho, v, front, rest, hin, hd,
      Host.Outcome.next.inj (h.symm.trans (exec_decSym_run he hv ho hin hd))⟩

/-- A walk below an internal node reads at least one bit (R201, R208). -/
theorem descend_reads {mem : Vector Node 513} {n : Node} (h : descend mem n bits = .symbol v rest) :
    rest.length < bits.length := by
  induction bits generalizing n with
  | nil => cases h
  | cons b bits ih =>
    rw [descend] at h
    split at h
    · cases h
    · split at h
      · cases h; exact Nat.lt_succ_self _
      · exact Nat.lt_succ_of_lt (ih h)

/-- decodeOne() that answers a symbol reads a bit, unless the root is a leaf, which answers its symbol on any input
(R201, R208). -/
theorem decodeOne_reads_or_leafRoot {mem : Vector Node 513} {i : Nat} (h : decodeOne mem i bits = .symbol v rest) :
    rest.length < bits.length ∨ ∀ bits, decodeOne mem i bits = .symbol v bits := by
  rw [decodeOne] at h
  split at h
  · cases h
  · rename_i n hn
    split at h
    · cases h
      exact .inr fun bits => by simp only [decodeOne, hn, if_pos ‹n.leaf = true›]
    · exact .inl (descend_reads h)

/-- From a root that is a leaf other than the sentinel DECODE's loop never comes to an end (R168). -/
theorem decodeLoop_leafRoot {mem : Vector Node 513} {i : Nat} (h : ∀ bits, decodeOne mem i bits = .symbol v bits)
    (hv : v ≠ eofSym) (fuel : Nat) (bits : List Bool) (last : Option Symbol) :
    (decodeLoop mem i fuel bits last).stop = .broken := by
  induction fuel generalizing last with
  | zero => rfl
  | succ fuel ih => simp only [decodeLoop, h, if_neg hv, ih]

/-- A loop of DECODE that ends at the sentinel on what another symbol left does so from that symbol on as well, and writes
the symbol first: the symbol's code has a bit, so the fuel is enough (R206, R208). -/
theorem decodeLoop_symbol {mem : Vector Node 513} {i : Nat} {rest' : List Bool}
    (hd : decodeOne mem i bits = .symbol v rest) (hv : v ≠ eofSym)
    (hstop : (decodeLoop mem i (rest.length + 1) rest none).stop = .sentinel rest') :
    (decodeLoop mem i (bits.length + 1) bits none).stop = .sentinel rest' ∧
      (decodeLoop mem i (bits.length + 1) bits none).bits =
        fieldBits 8 v.toNat ++ (decodeLoop mem i (rest.length + 1) rest none).bits := by
  have hends : (decodeLoop mem i (rest.length + 1) rest none).stop ≠ .broken := by simp [hstop]
  have hreads : rest.length < bits.length :=
    (decodeOne_reads_or_leafRoot hd).resolve_right fun hroot => hends (decodeLoop_leafRoot hroot hv _ _ _)
  obtain ⟨hstop', hbits⟩ := decodeLoop_more (last' := some v) hends hreads
  rw [decodeLoop]
  simp only [hd, if_neg hv, hbits, hstop', hstop, and_self]

/-- The state a DECODE leaves that read `front`, the last code in it the sentinel's, and wrote `bits` (R206). -/
def State.decodedAll (s : State) (front bits : List Bool) : State :=
  { s with
    inPos := s.inPos + front.length, outBits := s.outBits ++ bits
    resultSym := eofSym, resultValid := true, eofSeen := true }

/-- DECODE past its checks, where its loop ends at the sentinel (R206). -/
theorem exec_decode_sentinel (he : s.err = false) (hv : s.treeValid = true) (ho : s.outClosed = false)
    (hin : s.inRest = front ++ rest) (hstop : s.decodeRun.stop = .sentinel rest) :
    exec .decode s = .next (s.decodedAll front s.decodeRun.bits) := by
  have hlast : s.decodeRun.last = some eofSym := decodeLoop_sentinel hstop
  have hdecoded : s.decoded = (s.dropResult.outAppend s.decodeRun.bits).setResult eofSym := by
    rw [State.decoded, hlast, State.setLast]
  rw [State.decodeRun] at hstop
  refine (unlessErr_run he).trans <| (needsValid_run hv _ _).trans <| (needsOpen_run ho _ _).trans ?_
  simp only [hstop]
  rw [← State.decodeRun, ← State.decoded, hdecoded, inAdvance_eq (s := (s.dropResult.outAppend _).setResult _) hin]
  rfl

/-- Where DEC_SYM decodes the sentinel, so does DECODE (R207). -/
theorem exec_decode_of_eofSym (he : s.err = false) (hv : s.treeValid = true) (ho : s.outClosed = false)
    (hin : s.inRest = front ++ rest) (hd : decodeOne s.node s.root.toNat s.inRest = .symbol eofSym rest) :
    exec .decode s = .next (s.decodedSym eofSym front) := by
  have hrun : s.decodeRun = { bits := [], last := some eofSym, stop := .sentinel rest } := by
    simp only [State.decodeRun, decodeLoop, hd, if_true]
  rw [exec_decode_sentinel he hv ho hin (hrun ▸ rfl), hrun]
  rfl

/-- What DEC_SYM did not read is left (R72). -/
theorem decodedSym_inRest (v : Symbol) (hin : s.inRest = front ++ rest) : (s.decodedSym v front).inRest = rest := by
  have hrest := (inRest_inAdvance s hin).2
  rw [inAdvance_eq hin] at hrest
  exact hrest

/-- A DEC_SYM of a symbol other than the sentinel and a DECODE after it leave what a DECODE of both leaves (R207). -/
theorem decodedSym_decodedAll (s : State) (hne : v ≠ eofSym) (front front' bits : List Bool) :
    (s.decodedSym v front).decodedAll front' bits =
      s.decodedAll (front ++ front') (fieldBits 8 v.toNat ++ bits) := by
  simp only [State.decodedAll, State.decodedSym, if_neg hne, List.length_append, Nat.add_assoc, List.append_assoc]

/-- Where DEC_SYM decodes another symbol and DECODE succeeds after it, DECODE does both (R207). -/
theorem exec_decode_of_decodedSym {t : State} (he : s.err = false) (hv : s.treeValid = true) (ho : s.outClosed = false)
    (hin : s.inRest = front ++ rest) (hd : decodeOne s.node s.root.toNat s.inRest = .symbol v rest) (hne : v ≠ eofSym)
    (h : exec .decode (s.decodedSym v front) = .next t) (ht : t.err = false) : exec .decode s = .next t := by
  have hrest := decodedSym_inRest v hin
  have hrun : (s.decodedSym v front).decodeRun = decodeLoop s.node s.root.toNat (rest.length + 1) rest none := by
    rw [State.decodeRun, hrest]
    rfl
  obtain ⟨-, -, rest', hstop, -⟩ := execDecode_succeeds (s := s.decodedSym v front) he h ht
  obtain ⟨front', hsplit⟩ := decodeLoop_suffix hstop
  obtain ⟨hstopAll, hbits⟩ := decodeLoop_symbol hd hne (hrun ▸ hstop)
  have hinAll : s.inRest = (front ++ front') ++ rest' := by rw [hin, ← hrest, hsplit, List.append_assoc]
  calc exec .decode s
    _ = .next (s.decodedAll (front ++ front') s.decodeRun.bits) := exec_decode_sentinel he hv ho hinAll hstopAll
    _ = .next ((s.decodedSym v front).decodedAll front' (s.decodedSym v front).decodeRun.bits) := by
      rw [decodedSym_decodedAll s hne, hrun, ← hbits, State.decodeRun]
    _ = exec .decode (s.decodedSym v front) :=
      (exec_decode_sentinel (s := s.decodedSym v front) he hv ho hsplit hstop).symm
    _ = .next t := h

/-- Settles O43: DEC_SYM is one turn of DECODE's loop. -/
theorem decodeIsDecSyms : Obligations.DecodeIsDecSyms := by
  intro s u he hexec hu
  obtain ⟨hv, ho, v, front, rest, hin, hd, rfl⟩ := exec_decSym_succeeds he hexec hu
  refine ⟨fun heof => ?_, fun heof t h ht => ?_⟩
  · obtain rfl : v = eofSym := eq_of_beq heof
    exact exec_decode_of_eofSym he hv ho hin hd
  · exact exec_decode_of_decodedSym he hv ho hin hd (ne_of_beq_false heof) h ht

end Sys2Proof.Machine
end

section
/-!
PROOFS of family 46_control.md, O17 to O19: NOP (R220), CLRERR as the clearing of the error state (R221) and, register by
register, INIT as the clearing of the registers (R222, R262).
-/

namespace Sys2Proof.Machine

/-- Settles O17: the meaning of NOP is the state it is given. -/
theorem nopResult : Obligations.NopResult := fun _ => rfl

/-- Settles O18: the meaning of CLRERR is to leave the error state. -/
theorem clrerrResult : Obligations.ClrerrResult := fun _ => rfl

/-! ### INIT -/

/-- STATUS with every flag 0 but OUT_CLOSED and BUSY, its bits 6 and 0 (R25, R222). -/
theorem clearRegisters_status (s : State) :
    s.clearRegisters.status = BitVec.ofNat 32 (s.outClosed.toNat * 64 + s.busy.toNat) := by
  simp only [State.status, State.busy, State.clearRegisters_ovr, State.clearRegisters_outClosed,
    State.clearRegisters_eofSeen, State.clearRegisters_codesValid, State.clearRegisters_treeValid,
    State.clearRegisters_freqValid, State.clearRegisters_err, State.clearRegisters_cmd]
  cases s.outClosed <;> cases s.cmd.isSome <;> rfl

/-- ERROR reads 0 (R34, R222). -/
theorem clearRegisters_errorWord (s : State) : s.clearRegisters.errorWord = 0 := by simp [State.errorWord]

/-- RESULT reads 0 (R35, R222). -/
theorem clearRegisters_resultWord (s : State) : s.clearRegisters.resultWord = 0 := by simp [State.resultWord]

/-- TOTAL reads 0 for every W_FREQ (R36, R222). -/
theorem clearRegisters_totalWord (s : State) : s.clearRegisters.totalWord = 0 := by
  simp [State.totalWord, Params.cut]

/-- TREE reads 0 (R37, R222). -/
theorem clearRegisters_treeWord (s : State) : s.clearRegisters.treeWord = 0 := by simp [State.treeWord]

/-- Settles O19: INIT clears the registers, and each of them is then 0 by its word. -/
theorem initResult : Obligations.InitResult := fun s =>
  ⟨s.clearRegisters, rfl, clearRegisters_status s, clearRegisters_errorWord s, clearRegisters_resultWord s,
    clearRegisters_totalWord s, clearRegisters_treeWord s, rfl, rfl, rfl, rfl, rfl, rfl, rfl, rfl, rfl, rfl, rfl, rfl⟩

end Sys2Proof.Machine
end

section
/-!
PROOFS of family 60_exceptions.md and 30_encoding.md, O3 to O6: the decoder of the listed words and of the illegal ones
(R103, R104), and the core's step as the execution of its word followed by the command's end (R12, R230, R239).
-/

namespace Sys2Proof.Machine

variable {s t : State} {w : Word}

/-! ### The words the decoder refuses -/

/-- Settles O4, word by word. -/
theorem listedWordsDecode : Obligations.ListedWordsDecode := by
  unfold Obligations.ListedWordsDecode
  decide

/-- The decoder refuses a word exactly by the four conditions of R103. -/
theorem decode_eq_error_iff (w : Word) :
    (∃ e, decode w = .error e) ↔
      wordRsv0 w ≠ 0 ∨ wordRsv1 w ≠ 0 ∨ (wordOp w ≠ 0x8#4 ∧ wordSym w ≠ 0) ∨
        (wordOp w = 0x8#4 ∧ 256 < (wordSym w).toNat) := by
  unfold decode
  by_cases hlow : wordRsv0 w = 0#4
  · by_cases hhigh : wordRsv1 w = 0#15
    · by_cases hop : wordOp w = 0x8#4
      · by_cases hsym : (wordSym w).toNat ≤ 256
        · simp [hlow, hhigh, hop, hsym, Nat.not_lt.mpr hsym]
        · simp [hlow, hhigh, hop, hsym, Nat.lt_of_not_le hsym]
      · by_cases hsym : wordSym w = 0#9 <;> simp [hlow, hhigh, hop, hsym]
    · simp [hlow, hhigh]
  · simp [hlow]

/-! ### The core's step -/

/-- The core's turn: the host waits, or has nothing left to do (R12, R111). -/
def State.HostWaits (s : State) : Prop := s.host = [] ∨ ∃ rest, s.host = .wait :: rest

/-- The core's step is the execution of its word and the end of the command (R230). -/
theorem step_core (hc : s.cmd = some w) (hh : s.HostWaits) : step s = mapNext State.commandEnd (execute w s) :=
  step_ofCore (coreTurn_some hc hh)

theorem step_core_next (hc : s.cmd = some w) (hh : s.HostWaits) (h : execute w s = .next t) :
    step s = .next t.commandEnd := by
  rw [step_core hc hh, h, mapNext_next]

/-- A word that decodes has its command's meaning (R230). -/
theorem execute_command {i : Instr} (h : decode w = .ok i) (s : State) : execute w s = exec i s := by
  simp only [execute, h]

/-- An illegal word raises ILLEGAL_COMMAND with its OP (R239). -/
theorem execute_illegal (h : ∃ e, decode w = .error e) (s : State) :
    execute w s = .next (s.raise .illegalCommand (wordOp w)) := by
  obtain ⟨e, h⟩ := h
  simp only [execute, h, execIllegal]

/-- Settles O3: the four conditions are the decoder's, and the core's run of an illegal word is the raise alone. -/
theorem illegalWordsAreRefused : Obligations.IllegalWordsAreRefused := by
  refine ⟨decode_eq_error_iff, fun s w hc hh he hw => ⟨s.draw + 1, ?_⟩⟩
  rw [step_core_next hc hh (execute_illegal hw s), raise_of_noErr he]
  rfl

/-- The core's step on a word that decodes (R230). -/
theorem step_command {i : Instr} (hc : s.cmd = some w) (hh : s.HostWaits) (hw : decode w = .ok i) :
    step s = mapNext State.commandEnd (exec i s) := by
  rw [step_core hc hh, execute_command hw]

/-- The word that `withFetchWord` places is the command's (R100). -/
theorem withFetchWord_encode (s : State) (i : Instr) :
    s.withFetchWord 32 (encode i).toNat = { s with cmd := some (encode i), host := .wait :: s.host } := by
  rw [State.withFetchWord, Nat.mod_eq_of_lt (encode i).isLt, BitVec.ofNat_toNat, BitVec.setWidth_eq]

/-- Settles O5: with its word placed by `withFetchWord`, the next step is the core's run of the command. -/
theorem stepRunsDecodedCommand : Obligations.StepRunsDecodedCommand := by
  refine ⟨fun s w i hc hh hw => ?_, fun s i hi => ?_⟩
  · rw [step_command hc hh hw]
    cases exec i s <;> rfl
  · rw [withFetchWord_encode, step_command rfl (.inr ⟨_, rfl⟩) (decodeInvertsEncode i hi)]
    cases exec i _ <;> rfl

/-- A write to CMD is accepted, or dropped with OVR set while BUSY = 1 (R230). -/
theorem busWrite_cmd (s : State) (w : Word) :
    s.busWrite 0 w = if s.busy then { s with ovr := true } else { s with cmd := some w } := if_pos rfl

/-- Settles O6, from the defined write at offset 0 and the core's step. -/
theorem commandAcceptance : Obligations.CommandAcceptance := by
  refine ⟨fun s w rest hh => ?_, fun s w hc hh => ?_⟩
  · rw [step_write (off := 0) (by decide) rfl hh, busWrite_cmd]
    rfl
  · rw [step_core hc hh]
    cases execute w s with
    | next t => exact ⟨t.draw + 1, rfl⟩
    | fault r => rfl
    | refused r => rfl

end Sys2Proof.Machine
end

section
/-!
PROOFS of family 70_reset_and_hazards.md, O46 and O53: the launch state is a reset state (R260, R261), and the reset input
on an idle block.
-/

namespace Sys2Proof.Machine

/-- The launch state is what the reset input leaves, the tables being free value 0 (R260, R261). -/
theorem launch_eq_hardReset (p : Params) (input : List Byte) :
    State.launch p input = ({ State.launch p input with draw := 0 } : State).hardReset := rfl

theorem launch_inv (p : Params) (input : List Byte) : Inv (State.launch p input) := by
  rw [launch_eq_hardReset]
  exact hardReset_inv (Nat.zero_le _) nofun

/-- Settles O46: a reset state over a fresh output and an input at its start meets the invariant. -/
theorem launchMeetsInvariant : Obligations.LaunchMeetsInvariant := ⟨launch_inv, launch_inv _ _⟩

/-- The step of the reset input is the reset itself. -/
theorem step_assertReset {s : State} {rest : List HostAction} (hh : s.host = .assertReset :: rest) :
    step s = assertReset { s with host := rest } := step_ofHost hh (.inl nofun)

/-- Settles O53: the reset input on an idle block clears the registers and keeps the ports. -/
theorem resetResult : Obligations.ResetResult := by
  intro s rest hc hh
  obtain ⟨hstatus, herror, hresult, htotal, htree⟩ := hardReset_words { s with host := rest }
  exact ⟨_, (step_assertReset hh).trans (assertReset_idle hc), rfl, rfl, hstatus, herror, hresult, htotal, htree,
    rfl, rfl, rfl, rfl, rfl, rfl, rfl⟩

end Sys2Proof.Machine
end

section
/-!
PROOFS of family 70_reset_and_hazards.md, O54: the accesses of a command leave the ports as the command does, they are those
the table of R70 gives it, and a first part of them leaves the ports between where they were and where the command would
have left them (R79, R260).
-/

namespace Sys2Proof.Machine

variable {s t : State} {list : List PortAccess}

/-! ### The ports -/

/-- The two ports as R71 has them, but for the input's bytes. -/
structure Ports where
  inPos : Nat
  outBits : List Bool
  outClosed : Bool

/-- The ports of a state. -/
def State.ports (s : State) : Ports := ⟨s.inPos, s.outBits, s.outClosed⟩

@[simp] theorem raise_ports (s : State) (e : HccError) (op : BitVec 4) : (s.raise e op).ports = s.ports := by
  simp [State.ports]

/-- The accesses leave the ports of `s` as they are in `t`. -/
def LeadsTo (s : State) (list : List PortAccess) (t : State) : Prop := (s.accesses list).ports = t.ports

theorem leadsTo_nil (s : State) : LeadsTo s [] s := rfl

/-- Raising an error leaves the ports alone. -/
theorem LeadsTo.raise (h : LeadsTo s list t) (e : HccError) (op : BitVec 4) : LeadsTo s list (t.raise e op) :=
  h.trans (raise_ports t e op).symm

/-- Accesses that close nothing, by where they leave the position and what they write. -/
theorem leadsTo_of (hclose : .close ∉ list) (hpos : posAfter s.inEnd s.inPos list = t.inPos)
    (hbits : s.outBits ++ list.flatMap PortAccess.written = t.outBits) (hclosed : s.outClosed = t.outClosed) :
    LeadsTo s list t := by
  obtain ⟨hb, hc⟩ := accesses_out s hclose
  rw [LeadsTo, State.ports, accesses_inPos, hpos, hb, hbits, hc, hclosed, State.ports]

/-! ### Which accesses a command makes -/

/-- What R70 allows of an access of a command. -/
structure Allowed (s : State) (i : Instr) (a : PortAccess) : Prop where
  read : ∀ n, a = .read n → n ∈ readWidths i
  write : ∀ n v, a = .write n v → n ∈ writeWidths i ∧ s.outClosed = false
  rewind : a = .rewind → i = .rewind
  close : a = .close → i = .close

theorem allowed_read {i : Instr} {n : Nat} (h : n ∈ readWidths i) : Allowed s i (.read n) :=
  ⟨fun _ hn => by cases hn; exact h, nofun, nofun, nofun⟩

theorem allowed_write {i : Instr} {n : Nat} (ho : s.outClosed = false) (h : n ∈ writeWidths i) (v : Nat) :
    Allowed s i (.write n v) :=
  ⟨nofun, fun _ _ hn => by cases hn; exact ⟨h, ho⟩, nofun, nofun⟩

/-- The accesses of each command are those of the table of R70; what it writes goes to an open output (R232). -/
theorem commandAccesses_allowed {i : Instr} {a : PortAccess} (ha : a ∈ commandAccesses i s) : Allowed s i a := by
  cases i with
  | nop | build | gencodes | clrerr | init => cases ha
  | close => rw [List.mem_singleton.mp ha]; exact ⟨nofun, nofun, nofun, fun _ => rfl⟩
  | rewind =>
    obtain ⟨-, -, ha⟩ := accessesIf_mem ha
    rw [List.mem_singleton.mp ha]
    exact ⟨nofun, nofun, fun _ => rfl, nofun⟩
  | count =>
    obtain ⟨-, -, ha⟩ := accessesIf_mem ha
    rw [count_mem ha]
    exact allowed_read (by decide)
  | rdTree =>
    obtain ⟨-, -, ha⟩ := accessesIf_mem ha
    rcases rdTree_mem ha with rfl | rfl
    exacts [allowed_read (by decide), allowed_read (by decide)]
  | rdHeader =>
    obtain ⟨-, -, ha⟩ := accessesIf_mem ha
    rw [List.mem_singleton.mp ha]
    exact allowed_read (by decide)
  | wrTree =>
    obtain ⟨ho, ha⟩ := accessesIf_open_mem ha
    cases ht : s.tree with
    | none => rw [ht] at ha; cases ha
    | some tree =>
      rw [ht] at ha
      obtain ⟨n, v, rfl, rfl | rfl⟩ := writes_mem ha
      exacts [allowed_write ho (by decide) v, allowed_write ho (by decide) v]
  | wrHeader =>
    obtain ⟨-, ho, ha⟩ := accessesIf_mem ha
    rw [List.mem_singleton.mp ha]
    exact allowed_write (by simpa using ho) (by decide) _
  | encSym sym =>
    obtain ⟨ho, ha⟩ := accessesIf_open_mem ha
    obtain ⟨v, rfl⟩ := encSym_mem ha
    exact allowed_write ho (List.mem_singleton_self 1) v
  | encode =>
    obtain ⟨ho, ha⟩ := accessesIf_open_mem ha
    rcases encode_mem ha with rfl | ⟨v, rfl⟩
    exacts [allowed_read (by decide), allowed_write ho (by decide) v]
  | decSym =>
    obtain ⟨ho, ha⟩ := accessesIf_open_mem ha
    rcases decSym_mem ha with rfl | ⟨v, rfl⟩
    exacts [allowed_read (by decide), allowed_write ho (by decide) v]
  | decode =>
    obtain ⟨ho, ha⟩ := accessesIf_open_mem ha
    rcases decode_mem ha with rfl | ⟨v, rfl⟩
    exacts [allowed_read (by decide), allowed_write ho (by decide) v]

theorem close_not_mem {i : Instr} (hi : i ≠ .close) : .close ∉ commandAccesses i s :=
  fun h => hi ((commandAccesses_allowed h).close rfl)

/-! ### The accesses of a command do what the command does -/

/-- A command that is ignored makes no access (R231). -/
theorem accessesIf_ignored (he : s.err = true) (ok : Bool) (list : List PortAccess) : s.accessesIf ok list = [] := by
  simp [State.accessesIf, he]

/-- A command that a check ends makes no access (R235). -/
theorem accessesIf_stopped {ok : Bool} (hok : ok = false) (list : List PortAccess) : s.accessesIf ok list = [] := by
  simp [State.accessesIf, hok]

/-- A command that runs makes its accesses. -/
theorem accessesIf_run {ok : Bool} (he : s.err = false) (hok : ok = true) (list : List PortAccess) :
    s.accessesIf ok list = list := by simp [State.accessesIf, he, hok]

theorem leadsTo_ignored (he : s.err = true) (ok : Bool) (list : List PortAccess) :
    LeadsTo s (s.accessesIf ok list) s := by
  rw [accessesIf_ignored he]; exact leadsTo_nil s

theorem leadsTo_stopped {ok : Bool} (hok : ok = false) (list : List PortAccess) (e : HccError) (op : BitVec 4) :
    LeadsTo s (s.accessesIf ok list) (s.raise e op) := by
  rw [accessesIf_stopped hok]; exact (leadsTo_nil s).raise e op

/-- The accesses of a command that only reads, by the position it leaves. -/
theorem leadsTo_reads (he : s.err = false) (hreads : ∀ a ∈ list, ∃ n, a = .read n)
    (hpos : posAfter s.inEnd s.inPos list = t.inPos) (hbits : t.outBits = s.outBits) (hclosed : t.outClosed = s.outClosed) :
    LeadsTo s (s.accessesIf true list) t := by
  have hwritten : list.flatMap PortAccess.written = [] := by
    rw [List.flatMap_eq_nil_iff]
    intro a ha
    obtain ⟨n, rfl⟩ := hreads a ha
    rfl
  rw [accessesIf_run he rfl]
  refine leadsTo_of (fun h => ?_) hpos (by rw [hwritten, List.append_nil, hbits]) hclosed.symm
  obtain ⟨n, hn⟩ := hreads _ h
  cases hn

/-- One read leaves the position behind its field, or at the end where it finds too few bits (R72). -/
theorem posAfter_read (s : State) {n : Nat} (hn : 0 < n) :
    posAfter s.inEnd s.inPos [.read n] = match inRead n s.inRest with
      | none => s.inEnd
      | some (_, rest) => s.inPos + (s.inRest.length - rest.length) := by
  have hlen := inRest_length s
  rw [posAfter_cons, posAfter_nil, PortAccess.pos]
  rcases inRead_cases n s.inRest with ⟨hshort, hread⟩ | ⟨field, rest, hin, hfield, hread⟩ <;> rw [hread]
  · exact if_pos (by omega)
  · have hsplit : s.inRest.length = n + rest.length := by rw [hin, List.length_append, hfield]
    rw [if_neg (by omega)]
    simp only [hsplit, Nat.add_sub_cancel]

/-- COUNT's reads (R130 to R132). -/
theorem count_leadsTo (h : execCount s = .next t) : LeadsTo s (commandAccesses .count s) t := by
  have hpos := posAfter_count s
  rcases execCount_next h with ⟨he, rfl⟩ | ⟨he, ⟨hover, rfl⟩ | ⟨rest, hover, rfl⟩⟩
  · exact leadsTo_ignored he _ _
  · rw [hover] at hpos
    exact leadsTo_reads he (fun a ha => ⟨8, count_mem ha⟩) hpos rfl rfl
  · rw [hover] at hpos
    exact .raise (t := s.counted.inAdvanceBytes _)
      (leadsTo_reads he (fun a ha => ⟨8, count_mem ha⟩) hpos rfl rfl) _ _

/-- RD_TREE only reads (R70). -/
theorem rdTree_reads : ∀ a ∈ rdTreeAccesses s, ∃ n, a = .read n := fun _ ha => (rdTree_mem ha).elim (⟨1, ·⟩) (⟨9, ·⟩)

/-- Where a failing RD_TREE leaves the input (R72, R164). -/
theorem treeFailed_inPos (s : State) (rest : Option (List Bool)) :
    (s.treeFailed rest).inPos = match rest with
      | none => s.inEnd
      | some bits => s.inPos + (s.inRest.length - bits.length) := by
  rw [State.treeFailed, State.raise_inPos]
  cases rest <;> rfl

/-- RD_TREE's reads, whether it fails or not (R164). -/
theorem rdTree_leadsTo (h : execRdTree s = .next t) : LeadsTo s (commandAccesses .rdTree s) t := by
  have hpos := posAfter_rdTree s
  rcases execRdTree_next h with ⟨he, rfl⟩ | ⟨he, ⟨rest, rfl, hparse⟩ | ⟨tree, rest, k, hparse, -, rfl⟩⟩
  · exact leadsTo_ignored he _ _
  · refine leadsTo_reads he rdTree_reads ?_ (by simp [State.treeFailed]) (by simp [State.treeFailed])
    rw [hpos, treeFailed_inPos]
    rcases hparse with hparse | ⟨tree, k, bits, hparse, -, rfl⟩ <;> rw [hparse]
    cases rest <;> rfl
  · rw [hparse] at hpos
    exact leadsTo_reads he rdTree_reads hpos rfl rfl

/-- ENCODE's reads and writes, in each of its ends (R186). -/
theorem encode_leadsTo (h : execEncode s = .next t) : LeadsTo s (commandAccesses .encode s) t := by
  have hlen := inRest_length s
  have hbytes := streamBytes_length s.inRest
  have hclose := close_not_mem (s := s) (i := .encode) nofun
  have hpos := posAfter_encode s.codeOf (T := s.inEnd) (p := s.inPos) (bytes := streamBytes s.inRest)
    (by omega) (by omega)
  have hbits := written_encode s.codeOf (streamBytes s.inRest)
  rcases execEncode_next h with
    ⟨he, rfl⟩ | ⟨he, ⟨hc, rfl⟩ | ⟨hc, ⟨ho, rfl⟩ | ⟨ho, hrun⟩⟩⟩
  · exact leadsTo_ignored he _ _
  · exact leadsTo_stopped (by simp [hc]) _ _ _
  · exact leadsTo_stopped (by simp [ho]) _ _ _
  have hon : commandAccesses .encode s = encodeAccesses s.codeOf (streamBytes s.inRest) :=
    accessesIf_run he (by simp [hc, ho]) _
  rw [hon] at hclose ⊢
  rcases hrun with ⟨rest, hn, rfl⟩ | ⟨hn, ⟨hv, rfl⟩ | ⟨hv, rfl⟩⟩
  · rw [hn] at hpos
    exact .raise (t := s.encoded.inAdvanceBytes _) (leadsTo_of hclose hpos (by simp [hbits, hn, State.encoded]) rfl) _ _
  · rw [hn] at hpos
    exact leadsTo_of hclose hpos (by simp [hbits, hn, hv, State.encoded]) rfl
  · rw [hn] at hpos
    exact .raise (t := s.encoded.inToEnd) (leadsTo_of hclose hpos (by simp [hbits, hn, hv, State.encoded]) rfl) _ _

/-- DEC_SYM's reads and its write (R202). -/
theorem decSym_leadsTo (h : execDecSym s = .next t) : LeadsTo s (commandAccesses .decSym s) t := by
  have hclose := close_not_mem (s := s) (i := .decSym) nofun
  have hpos := posAfter_walk (mem := s.node) (root := s.root.toNat) (inRest_length s)
  rcases execDecSym_next h with
    ⟨he, rfl⟩ | ⟨he, ⟨hv, rfl⟩ | ⟨hv, ⟨ho, rfl⟩ | ⟨ho, hrun⟩⟩⟩
  · exact leadsTo_ignored he _ _
  · exact leadsTo_stopped (by simp [hv]) _ _ _
  · exact leadsTo_stopped (by simp [ho]) _ _ _
  have hon : commandAccesses .decSym s = decSymAccesses s := accessesIf_run he (by simp [hv, ho]) _
  rw [hon] at hclose ⊢
  unfold decSymAccesses at hclose ⊢
  rcases hrun with ⟨hd, rfl⟩ | ⟨v, rest, hd, ⟨hv, rfl⟩ | ⟨hv, rfl⟩⟩
  · simp only [hd] at hpos hclose ⊢
    exact .raise (t := s.dropResult.inToEnd)
      (leadsTo_of (s := s) hclose (by rw [posAfter_append, hpos]; rfl) (by simp [written_walk]) rfl) _ _
  · simp only [hd] at hpos hclose ⊢
    exact leadsTo_of hclose (by rw [posAfter_append, hpos, posAfter_symbolWrites]; rfl)
      (by simp [written_walk, written_symbolWrites, hv, State.symbolDecoded]) rfl
  · simp only [hd] at hpos hclose ⊢
    exact leadsTo_of hclose (by rw [posAfter_append, hpos, posAfter_symbolWrites]; rfl)
      (by simp [written_walk, written_symbolWrites, hv, State.symbolDecoded]) rfl

/-- DECODE's reads and writes, at the sentinel or at EOS (R206). -/
theorem decode_leadsTo (h : execDecode s = .next t) : LeadsTo s (commandAccesses .decode s) t := by
  have hclose := close_not_mem (s := s) (i := .decode) nofun
  have hpos := posAfter_decode (mem := s.node) (root := s.root.toNat) (fuel := s.inRest.length + 1) (last := none)
    (inRest_length s)
  have hbits := written_decode s.node s.root.toNat (s.inRest.length + 1) s.inRest none
  rw [← State.decodeRun] at hpos hbits
  rcases execDecode_next h with
    ⟨he, rfl⟩ | ⟨he, ⟨hv, rfl⟩ | ⟨hv, ⟨ho, rfl⟩ | ⟨ho, hrun⟩⟩⟩
  · exact leadsTo_ignored he _ _
  · exact leadsTo_stopped (by simp [hv]) _ _ _
  · exact leadsTo_stopped (by simp [ho]) _ _ _
  have hon : commandAccesses .decode s = decodeAccesses s.node s.root.toNat (s.inRest.length + 1) s.inRest :=
    accessesIf_run he (by simp [hv, ho]) _
  rw [hon] at hclose ⊢
  rcases hrun with ⟨hstop, rfl⟩ | ⟨rest, hstop, rfl⟩
  · rw [hstop] at hpos
    exact .raise (t := s.decoded.inToEnd)
      (leadsTo_of hclose (hpos.trans (by simp [State.decoded, State.inEnd])) (by simp [hbits, State.decoded])
        (by simp [State.decoded])) _ _
  · rw [hstop] at hpos
    exact leadsTo_of hclose (hpos.trans (by simp [State.decoded, State.inRest])) (by simp [hbits, State.decoded])
      (by simp [State.decoded])

/-- RD_HEADER's one read (R200). -/
theorem rdHeader_leadsTo (h : execRdHeader s = .next t) : LeadsTo s (commandAccesses .rdHeader s) t := by
  have hpos := posAfter_read s (n := 32) (by decide)
  have hreads : ∀ a ∈ [PortAccess.read 32], ∃ n, a = .read n := fun a ha => ⟨32, List.mem_singleton.mp ha⟩
  rcases execRdHeader_next h with ⟨he, rfl⟩ | ⟨he, ⟨hread, rfl⟩ | ⟨v, rest, hread, hrun⟩⟩
  · exact leadsTo_ignored he _ _
  · rw [hread] at hpos
    exact .raise (t := s.inToEnd) (leadsTo_reads he hreads hpos rfl rfl) _ _
  · rw [hread] at hpos
    have hadvance := leadsTo_reads (t := s.inAdvance rest) he hreads hpos rfl rfl
    rcases hrun with ⟨-, rfl⟩ | ⟨-, rfl⟩
    exacts [hadvance, hadvance.raise _ _]

/-- WR_TREE's writes (R160). -/
theorem wrTree_leadsTo (h : execWrTree s = .next t) : LeadsTo s (commandAccesses .wrTree s) t := by
  rcases execWrTree_next h with ⟨he, rfl⟩ | ⟨he, ⟨hv, rfl⟩ | ⟨hv, ⟨ho, rfl⟩ | ⟨ho, tree, ht, rfl⟩⟩⟩
  · exact leadsTo_ignored he _ _
  · exact leadsTo_stopped (by simp [hv]) _ _ _
  · exact leadsTo_stopped (by simp [ho]) _ _ _
  · have hclose := close_not_mem (s := s) (i := .wrTree) nofun
    rw [commandAccesses, accessesIf_run he (by simp [hv, ho]), ht] at hclose ⊢
    exact leadsTo_of hclose (posAfter_writes _ _ tree) (by simp [written_writes]) rfl

/-- ENC_SYM's writes (R182, R183). -/
theorem encSym_leadsTo {sym : Symbol} (h : execEncSym sym s = .next t) :
    LeadsTo s (commandAccesses (.encSym sym) s) t := by
  rcases execEncSym_next h with
    ⟨he, rfl⟩ | ⟨he, ⟨hs, rfl⟩ | ⟨hs, ⟨hc, rfl⟩ | ⟨hc, ⟨ho, rfl⟩ | ⟨ho, hrun⟩⟩⟩⟩
  · exact leadsTo_ignored he _ _
  · exact leadsTo_stopped (by simp [Nat.not_le.mpr hs]) _ _ _
  · exact leadsTo_stopped (by simp [hc]) _ _ _
  · exact leadsTo_stopped (by simp [ho]) _ _ _
  have hclose := close_not_mem (s := s) (i := .encSym sym) nofun
  rw [commandAccesses, accessesIf_run he (by simp [hs, hc, ho]), encSymAccesses] at hclose ⊢
  rcases hrun with ⟨hv, rfl⟩ | ⟨hv, rfl⟩
  · rw [if_neg (by simp [hv])]
    exact (leadsTo_nil s).raise _ _
  · rw [if_pos hv] at hclose ⊢
    exact leadsTo_of hclose (posAfter_bitWrites _ _ _) (by simp [written_bitWrites]) rfl

/-- The accesses of a command leave the ports that the command leaves (R79). -/
theorem commandAccesses_leadsTo {i : Instr} (h : exec i s = .next t) : LeadsTo s (commandAccesses i s) t := by
  cases i with
  | nop => cases h; rfl
  | clrerr => cases h; rfl
  | init => cases h; rfl
  | close => cases h; rfl
  | count => exact count_leadsTo h
  | wrTree => exact wrTree_leadsTo h
  | encSym sym => exact encSym_leadsTo h
  | rdHeader => exact rdHeader_leadsTo h
  | rdTree => exact rdTree_leadsTo h
  | encode => exact encode_leadsTo h
  | decSym => exact decSym_leadsTo h
  | decode => exact decode_leadsTo h
  | build =>
    rcases execBuild_next h with ⟨-, rfl⟩ | ⟨-, ⟨-, rfl⟩ | ⟨-, rfl⟩⟩
    exacts [rfl, (leadsTo_nil s).raise _ _, rfl]
  | gencodes =>
    rcases execGencodes_next h with ⟨-, rfl⟩ | ⟨-, ⟨-, rfl⟩ | ⟨-, tree, -, rfl⟩⟩
    exacts [rfl, (leadsTo_nil s).raise _ _, rfl]
  | rewind =>
    rcases execRewind_next h with ⟨he, rfl⟩ | ⟨he, rfl⟩
    · exact leadsTo_ignored he _ _
    · rw [commandAccesses, accessesIf_run he rfl]; rfl
  | wrHeader =>
    rcases execWrHeader_next h with ⟨he, rfl⟩ | ⟨he, ⟨ho, rfl⟩ | ⟨ho, rfl⟩⟩
    · exact leadsTo_ignored he _ _
    · exact leadsTo_stopped (by simp [ho]) _ _ _
    · rw [commandAccesses, accessesIf_run he (by simp [ho])]; rfl

/-- The accesses of a word leave the ports that its execution leaves; an illegal word has none (R239). -/
theorem wordAccesses_leadsTo {w : Word} (h : execute w s = .next t) : LeadsTo s (wordAccesses w s) t := by
  rcases execute_next h with ⟨i, hw, h⟩ | ⟨⟨e, hw⟩, rfl⟩ <;> rw [wordAccesses, hw]
  · exact commandAccesses_leadsTo h
  · exact (leadsTo_nil s).raise _ _

/-! ### A first part of the accesses -/

/-- An access that moves on in a stream: a read or a write. -/
def PortAccess.Streams (a : PortAccess) : Prop := a ≠ .rewind ∧ a ≠ .close

/-- The ports of an abandoned command, between those before it and those after it (R260). -/
structure Between (before made after : Ports) : Prop where
  forth : before.inPos ≤ after.inPos → before.inPos ≤ made.inPos ∧ made.inPos ≤ after.inPos
  back : after.inPos < before.inPos → made.inPos = before.inPos ∨ made.inPos = after.inPos
  old : before.outBits <+: made.outBits
  new : made.outBits <+: after.outBits
  closed : made.outClosed = before.outClosed ∨ (made.outClosed = after.outClosed ∧ made.outBits = after.outBits)

/-- Not begun. -/
theorem Between.start {before after : Ports} (h : before.outBits <+: after.outBits) : Between before before after :=
  ⟨fun hp => ⟨Nat.le_refl _, hp⟩, fun _ => .inl rfl, List.prefix_refl _, h, .inl rfl⟩

/-- All done. -/
theorem Between.finish {before after : Ports} (h : before.outBits <+: after.outBits) : Between before after after :=
  ⟨fun hp => ⟨hp, Nat.le_refl _⟩, fun _ => .inr rfl, h, List.prefix_refl _, .inr ⟨rfl, rfl⟩⟩

/-- Reads and writes move a position within the input towards its end, one beyond it to the end or not at all (R72). -/
theorem posAfter_streams {T p : Nat} (h : ∀ a ∈ list, a.Streams) :
    (p ≤ T → p ≤ posAfter T p list ∧ posAfter T p list ≤ T) ∧
      (T < p → posAfter T p list = p ∨ posAfter T p list = T) := by
  induction list generalizing p with
  | nil => simp
  | cons a list ih =>
    obtain ⟨hrewind, hclose⟩ := h a List.mem_cons_self
    have hrest : ∀ a ∈ list, a.Streams := fun b hb => h b (List.mem_cons_of_mem a hb)
    rw [posAfter_cons]
    cases a with
    | rewind => exact absurd rfl hrewind
    | close => exact absurd rfl hclose
    | write n v => exact ih hrest
    | read n =>
      have hend := ih hrest (p := T)
      have hon := ih hrest (p := p + n)
      rw [PortAccess.pos]
      split <;> omega

/-- A first part of some reads and writes. -/
theorem accesses_between_of_streams (h : ∀ a ∈ list, a.Streams) {made : List PortAccess} (hmade : made <+: list) :
    Between s.ports (s.accesses made).ports (s.accesses list).ports := by
  obtain ⟨more, rfl⟩ := hmade
  have hclose : ∀ l : List PortAccess, (∀ a ∈ l, a.Streams) → .close ∉ l := fun l hl hm => (hl _ hm).2 rfl
  have hfirst : ∀ a ∈ made, a.Streams := fun a ha => h a (List.mem_append_left more ha)
  have hmore : ∀ a ∈ more, a.Streams := fun a ha => h a (List.mem_append_right made ha)
  obtain ⟨hbits, hclosed⟩ := accesses_out s (hclose _ hfirst)
  obtain ⟨hbits', -⟩ := accesses_out s (hclose _ h)
  have hpos := accesses_inPos s made
  have hpos' := accesses_inPos s (made ++ more)
  rw [posAfter_append, ← hpos] at hpos'
  have hto := posAfter_streams (T := s.inEnd) (p := s.inPos) hfirst
  have hon := posAfter_streams (T := s.inEnd) (p := (s.accesses made).inPos) hmore
  rw [← hpos] at hto
  rw [← hpos'] at hon
  refine ⟨fun hle => ?_, fun hlt => ?_, ⟨_, hbits.symm⟩, ⟨more.flatMap PortAccess.written, ?_⟩, .inl hclosed⟩
  · simp only [State.ports] at hle ⊢; omega
  · simp only [State.ports] at hlt ⊢; omega
  · simp only [State.ports, hbits, hbits', List.flatMap_append, List.append_assoc]

/-- One access keeps what was written (R70). -/
theorem access_grows (s : State) (a : PortAccess) : s.outBits <+: (s.access a).outBits := by
  cases a with
  | read n => simp only [State.access]; split <;> exact List.prefix_refl _
  | rewind => exact List.prefix_refl _
  | write n v => exact ⟨_, rfl⟩
  | close => exact outClose_grows s

/-- A first part of at most one access is nothing or all. -/
theorem accesses_between_of_le_one (h : list.length ≤ 1) {made : List PortAccess} (hmade : made <+: list) :
    Between s.ports (s.accesses made).ports (s.accesses list).ports := by
  match list, h, hmade with
  | [], _, hmade => rw [List.prefix_nil.mp hmade]; exact .start (List.prefix_refl _)
  | [a], _, hmade =>
    match made, hmade with
    | [], _ => exact .start (access_grows s a)
    | b :: more, hmade =>
      obtain ⟨rfl, hmore⟩ := List.cons_prefix_cons.mp hmade
      rw [List.prefix_nil.mp hmore]
      exact .finish (access_grows s b)

/-- A word makes reads and writes, or at most one access: REWIND's or CLOSE's (R70). -/
theorem wordAccesses_shape (w : Word) (s : State) :
    (∀ a ∈ wordAccesses w s, a.Streams) ∨ (wordAccesses w s).length ≤ 1 := by
  unfold wordAccesses
  split
  · rename_i i _
    by_cases hr : i = .rewind
    · subst hr
      refine .inr ?_
      cases he : s.err <;> simp [commandAccesses, State.accessesIf, he]
    by_cases hc : i = .close
    · subst hc
      exact .inr (Nat.le_refl 1)
    · exact .inl fun a ha =>
        ⟨fun h => hr ((commandAccesses_allowed ha).rewind h), fun h => hc ((commandAccesses_allowed ha).close h)⟩
  · exact .inl nofun

/-- However far a word's execution had come, its ports are between those before and those after (R79, R260). -/
theorem wordAccesses_between {w : Word} {made : List PortAccess} (hmade : made <+: wordAccesses w s)
    (h : execute w s = .next t) : Between s.ports (s.accesses made).ports t.ports := by
  have hports : (s.accesses (wordAccesses w s)).ports = t.ports := wordAccesses_leadsTo h
  rw [← hports]
  exact (wordAccesses_shape w s).elim (accesses_between_of_streams · hmade) (accesses_between_of_le_one · hmade)

/-! ### The reset input while a command runs -/

/-- Accesses do not see the host's remaining actions. -/
theorem accesses_withHost (s : State) (rest : List HostAction) (list : List PortAccess) :
    ({ s with host := rest } : State).accesses list = { s.accesses list with host := rest } := by
  induction list generalizing s with
  | nil => rfl
  | cons a list ih =>
    have ha : ({ s with host := rest } : State).access a = { s.access a with host := rest } := by
      cases a with
      | read n =>
        have hend : ({ s with host := rest } : State).inEnd = s.inEnd := rfl
        by_cases h : s.inEnd < s.inPos + n
        · simp only [State.access, hend, if_pos h]; rfl
        · simp only [State.access, hend, if_neg h]
      | rewind => rfl
      | write n v => rfl
      | close => cases h : s.outClosed <;> simp [State.access, State.outClose, h]
    rw [accesses_cons, accesses_cons, ha, ih]

/-- Settles O54: the step abandons the command and resets the block over its ports; what these are is said by the accesses
made so far. -/
theorem resetAbandonsACommand : Obligations.ResetAbandonsACommand := by
  refine ⟨fun s w rest hc hh => ?_, fun s t w h => ?_, fun s i a ha => ?_⟩
  · have hmade := List.take_prefix (Config.freeProgress s.draw) (wordAccesses w { s with host := rest })
    obtain ⟨hstatus, herror, hresult, htotal, htree⟩ := hardReset_words (({ s with host := rest } : State).abandon w)
    have hports := congrArg State.ports (accesses_withHost s rest
      ((wordAccesses w { s with host := rest }).take (Config.freeProgress s.draw)))
    refine ⟨_, (step_assertReset hh).trans (assertReset_running hc), rfl, rfl, hstatus, herror, hresult, htotal, htree,
      State.accesses_inBytes _ _, State.accesses_params _ _, State.accesses_host _ _, State.accesses_log _ _,
      ⟨_, hmade, congrArg Ports.inPos hports, congrArg Ports.outBits hports, congrArg Ports.outClosed hports⟩,
      fun t ht => ?_⟩
    · obtain ⟨hforth, hback, hold, hnew, hclosed⟩ := wordAccesses_between hmade ht
      exact ⟨hforth, hback, hold, hnew, hclosed⟩
  · exact ⟨congrArg Ports.inPos (wordAccesses_leadsTo h), congrArg Ports.outBits (wordAccesses_leadsTo h),
      congrArg Ports.outClosed (wordAccesses_leadsTo h)⟩
  · obtain ⟨hread, hwrite, hrewind, hclose⟩ := commandAccesses_allowed ha
    exact ⟨hread, hwrite, hrewind, hclose⟩

end Sys2Proof.Machine
end

section
/-!
PROOFS of family 60_exceptions.md, O7 to O11: what the error state keeps (R231, R233), which error a command can raise
(R234), and the two checks that come before any effect, SEQUENCE first (R235, R240, R243).
-/

namespace Sys2Proof.Machine

variable {s t : State} {i : Instr}

/-! ### The error state -/

/-- A command that does not run in the error state is ignored there (R231). -/
theorem exec_ignored (hi : runsInError i = false) (he : s.err = true) : exec i s = .next s := by
  cases i with
  | close | clrerr | init => cases hi
  | nop => rfl
  | _ => exact unlessErr_ignored he

/-- The commands that run in the error state, by their opcodes (R102, R231). -/
theorem opcode_of_runsInError (hi : runsInError i = true) : opcode i = 0xA#4 ∨ opcode i = 0xE#4 ∨ opcode i = 0xF#4 := by
  cases i with
  | close => exact .inl rfl
  | clrerr => exact .inr (.inl rfl)
  | init => exact .inr (.inr rfl)
  | _ => cases hi

/-- An illegal word changes nothing in the error state (R233, R239). -/
theorem execute_illegal_ignored {w : Word} (hw : ∃ e, decode w = .error e) (he : s.err = true) :
    execute w s = .next s := by
  rw [execute_illegal hw, raise_of_err he]

/-- A word is ignored in the error state by its OP, also where it is illegal (R231). -/
theorem execute_ignored {w : Word} (he : s.err = true) (hclose : wordOp w ≠ 0xA#4) (hclrerr : wordOp w ≠ 0xE#4)
    (hinit : wordOp w ≠ 0xF#4) : execute w s = .next s := by
  cases hw : decode w with
  | error e => exact execute_illegal_ignored ⟨e, hw⟩ he
  | ok i =>
    obtain ⟨-, hop, -⟩ := legal_of_decode hw
    rw [execute_command hw]
    refine exec_ignored (Bool.eq_false_iff.mpr fun hi => ?_) he
    rcases opcode_of_runsInError hi with h | h | h
    exacts [hclose (hop.trans h), hclrerr (hop.trans h), hinit (hop.trans h)]

/-- OutClose does not depend on ERR (R190, R191). -/
theorem outClose_withErr (s : State) (err : Bool) :
    ({ s with err := err } : State).outClose = { s.outClose with err := err } := by
  cases h : s.outClosed <;> simp [State.outClose, h]

/-- Settles O7: words by their OP, commands by the error-state filter; CLRERR and INIT clear ERR, and CLOSE does not see it. -/
theorem errorStateIgnoresCommands : Obligations.ErrorStateIgnoresCommands := by
  refine ⟨fun s w hc hh he h1 h2 h3 => ⟨s.draw + 1, step_core_next hc hh (execute_ignored he h1 h2 h3)⟩,
    fun s i he hi => exec_ignored hi he, fun s t h => ⟨?_, rfl, rfl⟩⟩
  cases h
  exact congrArg Host.Outcome.next (outClose_withErr { s with err := false } true)

/-- Settles O8: of the three commands that run in the error state, CLOSE keeps ERROR and the others leave the state. -/
theorem firstErrorIsKept : Obligations.FirstErrorIsKept := by
  refine ⟨fun i s t he h ht => ?_, fun s w he hw => execute_illegal_ignored hw he⟩
  cases hi : runsInError i with
  | false =>
    cases (exec_ignored hi he).symm.trans h
    exact ⟨rfl, rfl⟩
  | true =>
    cases i with
    | close => cases h; exact ⟨State.outClose_errorCode s, State.outClose_errorOp s⟩
    | clrerr | init => cases h; cases ht
    | _ => cases hi

/-! ### The error a command raises -/

/-- `t` has the error of a command that R234 lists for it, SEQUENCE only where its precondition flag is 0 (R240). -/
def Raised (i : Instr) (s t : State) : Prop :=
  t.errorOp = opcode i ∧ ∃ e ∈ canRaise i, t.errorCode = e.number ∧ (e = .sequence → neededFlag s i = some false)

/-- Raising an error outside the error state, after any effects `u` of the command (R233). -/
theorem raised_raise {u : State} {e : HccError} (hu : u.err = false) (he : e ∈ canRaise i)
    (hseq : e = .sequence → neededFlag s i = some false) : Raised i s (u.raise e (opcode i)) := by
  rw [raise_of_noErr hu]
  exact ⟨rfl, e, he, rfl, hseq⟩

/-- A command that ends outside the error state, or raises one of its own errors (R234). -/
theorem exec_raised (he : s.err = false) (h : exec i s = .next t) : t.err = false ∨ Raised i s t := by
  cases i with
  | nop => cases h; exact .inl he
  | clrerr => cases h; exact .inl rfl
  | init => cases h; exact .inl rfl
  | close => cases h; exact .inl ((State.outClose_err s).trans he)
  | count =>
    rcases execCount_next h with ⟨-, rfl⟩ | ⟨-, ⟨-, rfl⟩ | ⟨rest, -, rfl⟩⟩
    exacts [.inl he, .inl he, .inr (raised_raise he (by decide) nofun)]
  | build =>
    rcases execBuild_next h with ⟨-, rfl⟩ | ⟨-, ⟨hv, rfl⟩ | ⟨-, rfl⟩⟩
    exacts [.inl he, .inr (raised_raise he (by decide) fun _ => congrArg some hv), .inl he]
  | gencodes =>
    rcases execGencodes_next h with ⟨-, rfl⟩ | ⟨-, ⟨hv, rfl⟩ | ⟨-, tree, -, rfl⟩⟩
    exacts [.inl he, .inr (raised_raise he (by decide) fun _ => congrArg some hv), .inl he]
  | wrTree =>
    rcases execWrTree_next h with ⟨-, rfl⟩ | ⟨-, ⟨hv, rfl⟩ | ⟨-, ⟨-, rfl⟩ | ⟨-, tree, -, rfl⟩⟩⟩
    exacts [.inl he, .inr (raised_raise he (by decide) fun _ => congrArg some hv),
      .inr (raised_raise he (by decide) nofun), .inl he]
  | rdTree =>
    rcases execRdTree_next h with ⟨-, rfl⟩ | ⟨-, ⟨rest, rfl, -⟩ | ⟨tree, rest, k, -, -, rfl⟩⟩
    exacts [.inl he, .inr (raised_raise (by simp [he]) (by decide) nofun), .inl he]
  | wrHeader =>
    rcases execWrHeader_next h with ⟨-, rfl⟩ | ⟨-, ⟨-, rfl⟩ | ⟨-, rfl⟩⟩
    exacts [.inl he, .inr (raised_raise he (by decide) nofun), .inl he]
  | rewind =>
    rcases execRewind_next h with ⟨-, rfl⟩ | ⟨-, rfl⟩
    exacts [.inl he, .inl he]
  | encSym sym =>
    rcases execEncSym_next h with
      ⟨-, rfl⟩ | ⟨-, ⟨-, rfl⟩ | ⟨-, ⟨hc, rfl⟩ | ⟨-, ⟨-, rfl⟩ | ⟨-, ⟨-, rfl⟩ | ⟨-, rfl⟩⟩⟩⟩⟩
    · exact .inl he
    · exact .inr (raised_raise he (by simp [canRaise]) nofun)
    · exact .inr (raised_raise he (by simp [canRaise]) fun _ => congrArg some hc)
    · exact .inr (raised_raise he (by simp [canRaise]) nofun)
    · exact .inr (raised_raise he (by simp [canRaise]) nofun)
    · exact .inl he
  | encode =>
    rcases execEncode_next h with
      ⟨-, rfl⟩ | ⟨-, ⟨hc, rfl⟩ | ⟨-, ⟨-, rfl⟩ | ⟨-, ⟨rest, -, rfl⟩ | ⟨-, ⟨-, rfl⟩ | ⟨-, rfl⟩⟩⟩⟩⟩
    · exact .inl he
    · exact .inr (raised_raise he (by decide) fun _ => congrArg some hc)
    · exact .inr (raised_raise he (by decide) nofun)
    · exact .inr (raised_raise he (by decide) nofun)
    · exact .inl he
    · exact .inr (raised_raise he (by decide) nofun)
  | rdHeader =>
    rcases execRdHeader_next h with ⟨-, rfl⟩ | ⟨-, ⟨-, rfl⟩ | ⟨v, rest, -, ⟨-, rfl⟩ | ⟨-, rfl⟩⟩⟩
    exacts [.inl he, .inr (raised_raise he (by decide) nofun), .inl he, .inr (raised_raise he (by decide) nofun)]
  | decSym =>
    rcases execDecSym_next h with
      ⟨-, rfl⟩ | ⟨-, ⟨hv, rfl⟩ | ⟨-, ⟨-, rfl⟩ | ⟨-, ⟨-, rfl⟩ | ⟨v, rest, -, ⟨-, rfl⟩ | ⟨-, rfl⟩⟩⟩⟩⟩
    exacts [.inl he, .inr (raised_raise he (by decide) fun _ => congrArg some hv),
      .inr (raised_raise he (by decide) nofun), .inr (raised_raise he (by decide) nofun), .inl he, .inl he]
  | decode =>
    have hd : s.decoded.err = false := by simp [State.decoded, he]
    rcases execDecode_next h with
      ⟨-, rfl⟩ | ⟨-, ⟨hv, rfl⟩ | ⟨-, ⟨-, rfl⟩ | ⟨-, ⟨-, rfl⟩ | ⟨rest, -, rfl⟩⟩⟩⟩
    exacts [.inl he, .inr (raised_raise he (by decide) fun _ => congrArg some hv),
      .inr (raised_raise he (by decide) nofun), .inr (raised_raise hd (by decide) nofun), .inl hd]

/-- A command that enters the error state has raised one of its own errors. -/
theorem exec_enters (he : s.err = false) (h : exec i s = .next t) (ht : t.err = true) : Raised i s t :=
  (exec_raised he h).resolve_left (ne_false_of_eq_true ht)

/-- Settles O9, from the errors a command can raise. -/
theorem errorNamesTheCommand : Obligations.ErrorNamesTheCommand := by
  intro i s t he h ht
  obtain ⟨hop, e, hmem, hcode, -⟩ := exec_enters he h ht
  exact ⟨hop, e, hmem, hcode⟩

/-! ### The checks before any effect -/

/-- A legal command with a precondition flag checks it first outside the error state (R235, R240). -/
theorem exec_needsValid {flag : Bool} (he : s.err = false) (hi : WellFormed i) (hf : neededFlag s i = some flag) :
    ∃ run, exec i s = needsValid s flag (opcode i) run := by
  cases i with
  | nop | count | rdTree | wrHeader | rewind | close | rdHeader | clrerr | init => cases hf
  | encSym sym => cases hf; exact ⟨_, (unlessErr_run he).trans (withSymbol_run hi _ _)⟩
  | build | gencodes | wrTree | decSym | decode | encode => cases hf; exact ⟨_, unlessErr_run he⟩

/-- A legal command whose precondition flag is 0 raises SEQUENCE and does nothing else (R240). -/
theorem exec_sequence (he : s.err = false) (hi : WellFormed i) (hf : neededFlag s i = some false) :
    exec i s = .next (s.raise .sequence (opcode i)) := by
  obtain ⟨run, hrun⟩ := exec_needsValid he hi hf
  exact hrun.trans (if_neg Bool.false_ne_true)

/-- A legal writing command whose precondition holds checks OUT_CLOSED next (R232, R235). -/
theorem exec_needsOpen (he : s.err = false) (hi : WellFormed i) (hw : writesOutput i = true)
    (hf : neededFlag s i ≠ some false) : ∃ run, exec i s = needsOpen s (opcode i) run := by
  have passes : ∀ {flag : Bool}, some flag ≠ some false → flag = true := fun h => by simpa using h
  cases i with
  | nop | count | build | gencodes | rdTree | rewind | close | rdHeader | clrerr | init => cases hw
  | wrHeader => exact ⟨_, unlessErr_run he⟩
  | encSym sym =>
    exact ⟨_, (unlessErr_run he).trans ((withSymbol_run hi _ _).trans (needsValid_run (passes hf) _ _))⟩
  | wrTree | decSym | decode | encode => exact ⟨_, (unlessErr_run he).trans (needsValid_run (passes hf) _ _)⟩

/-- A legal writing command whose precondition holds raises OUTPUT_CLOSED on a closed output and does nothing else (R232,
R243). -/
theorem exec_outputClosed (he : s.err = false) (hi : WellFormed i) (hw : writesOutput i = true)
    (hf : neededFlag s i ≠ some false) (ho : s.outClosed = true) :
    exec i s = .next (s.raise .outputClosed (opcode i)) := by
  obtain ⟨run, hrun⟩ := exec_needsOpen he hi hw hf
  exact hrun.trans (if_pos ho)

/-- The errors have different numbers (R234). -/
theorem number_injective {e f : HccError} (h : e.number = f.number) : e = f := by
  revert h
  cases e <;> cases f <;> decide

/-- Settles O10: the check that fails is the whole command; an error with SEQUENCE's number is SEQUENCE. -/
theorem sequenceErrors : Obligations.SequenceErrors := by
  refine ⟨fun i s he hi hf => ?_, fun i s t he hf h ht hcode => ?_⟩
  · rw [exec_sequence he hi hf, raise_of_noErr he]
    rfl
  · obtain ⟨-, e, -, hnumber, hseq⟩ := exec_enters he h ht
    exact hf (hseq (number_injective (f := .sequence) (hnumber.symm.trans hcode)))

/-- Of R234's errors OUTPUT_CLOSED is one of the writing commands alone (R232). -/
theorem writesOutput_of_canRaise (h : .outputClosed ∈ canRaise i) : writesOutput i = true := by
  cases i with
  | wrHeader | wrTree | encSym | encode | decSym | decode => rfl
  | _ => simp [canRaise] at h

/-- What is not a writing command makes no write (R70, R232). -/
theorem writeWidths_of_not_writesOutput (h : writesOutput i = false) : writeWidths i = [] := by
  cases i with
  | wrHeader | wrTree | encSym | encode | decSym | decode => cases h
  | _ => rfl

/-- A command that is not a writing one, nor CLOSE, leaves the output as it is: it makes no access to it. -/
theorem exec_keeps_output (hw : writesOutput i = false) (hi : i ≠ .close) (h : exec i s = .next t) :
    t.outBits = s.outBits ∧ t.outClosed = s.outClosed := by
  have hports := commandAccesses_leadsTo h
  obtain ⟨hbits, hclosed⟩ := accesses_out s (close_not_mem (s := s) hi)
  have hwritten : (commandAccesses i s).flatMap PortAccess.written = [] := by
    rw [List.flatMap_eq_nil_iff]
    intro a ha
    cases a with
    | write n v =>
      have hn := ((commandAccesses_allowed ha).write n v rfl).1
      rw [writeWidths_of_not_writesOutput hw] at hn
      cases hn
    | _ => rfl
  rw [hwritten, List.append_nil] at hbits
  exact ⟨(congrArg Ports.outBits hports).symm.trans hbits, (congrArg Ports.outClosed hports).symm.trans hclosed⟩

/-- Settles O11: the checks in their order, and of the other commands the errors they raise and the accesses they make. -/
theorem outputClosedErrors : Obligations.OutputClosedErrors := by
  refine ⟨fun i s he hi hw hf ho => ?_, fun i s he hi _ hf _ => sequenceErrors.1 i s he hi hf,
    fun i s t hw h => ⟨fun he ht hcode => ?_, fun hi => exec_keeps_output hw hi h⟩⟩
  · rw [exec_outputClosed he hi hw hf ho, raise_of_noErr he]
    rfl
  · obtain ⟨-, e, hmem, hnumber, -⟩ := exec_enters he h ht
    obtain rfl := number_injective (f := .outputClosed) (hnumber.symm.trans hcode)
    rw [writesOutput_of_canRaise hmem] at hw
    cases hw

end Sys2Proof.Machine
end

section
/-!
PROOFS of family 60_exceptions.md, O24 and O34: what COUNT_OVERFLOW and MALFORMED_TREE leave, and how much of the input the
failing command has consumed (R132, R164, R237, R241, R244).
-/

namespace Sys2Proof.Machine

variable {s : State}

/-! ### COUNT_OVERFLOW -/

/-- The state a COUNT of bytes that do not fit leaves: as many bytes consumed as TOTAL can count (R132, R241). -/
def State.countOverflowed (s : State) : State :=
  (s.counted.inAdvanceBytes (maxCount s.params)).raise .countOverflow 0x1

/-- COUNT past its check, over bytes that do not fit (R132). -/
theorem exec_count_overflow (he : s.err = false) (hf : ¬ s.BytesFit) : exec .count s = .next s.countOverflowed := by
  have hlong : maxCount s.params < (streamBytes s.inRest).length + 1 := Nat.lt_of_not_le hf
  have hpos := one_le_maxCount s.params
  obtain ⟨-, -, -, -, -, -, hover⟩ := countLoop_start s.params (streamBytes s.inRest)
  rw [if_neg (by omega)] at hover
  have hconsumed : (streamBytes s.inRest).length - ((streamBytes s.inRest).drop (maxCount s.params)).length =
      maxCount s.params := by
    rw [List.length_drop]
    omega
  refine (unlessErr_run he).trans ?_
  simp only [hover, hconsumed]
  rfl

/-- FREQ and TOTAL where the bytes do not fit: those before the last byte read are counted (R132, R133). -/
theorem counted_overflow (hf : ¬ s.BytesFit) :
    (∀ sym (_ : sym < 256), s.counted.freq[sym].toNat =
      ((streamBytes s.inRest).take (maxCount s.params - 1)).countP fun b => b.toNat == sym) ∧
    s.counted.freq[256] = 1#32 ∧ s.counted.total.toNat = maxCount s.params ∧
    s.counted.freqTotal = s.counted.total.toNat := by
  have hlong : maxCount s.params < (streamBytes s.inRest).length + 1 := Nat.lt_of_not_le hf
  have hpos := one_le_maxCount s.params
  obtain ⟨counted, rfl, hfreq, hsentinel, htotal, hsum, -⟩ := countLoop_start s.params (streamBytes s.inRest)
  rw [List.length_take] at htotal
  exact ⟨hfreq, hsentinel, htotal.trans (by omega), hsum⟩

/-- Settles O24, from the state COUNT leaves and the counts there. -/
theorem countOverflow : Obligations.CountOverflow := by
  intro s he hlong
  have hf : ¬ s.BytesFit := Nat.not_le_of_lt hlong
  have hstate : s.countOverflowed = { s with
      freqValid := false, freq := s.counted.freq, total := s.counted.total,
      inPos := s.inPos + 8 * maxCount s.params, err := true, errorCode := 6, errorOp := 1 } :=
    raise_of_noErr (s := s.counted.inAdvanceBytes _) he _ _
  rw [exec_count_overflow he hf, hstate]
  exact ⟨_, rfl, rfl, counted_overflow hf⟩

/-! ### MALFORMED_TREE -/

/-- RD_TREE refuses an input that does not hold a tree, or one whose root is a leaf other than the sentinel's, and the
reads that remain are those after the failing one (R164, R168). -/
def TreeRefused (bits : List Bool) (rest : Option (List Bool)) : Prop :=
  parseTree 257 0 bits = .malformed rest ∨
    ∃ v after k, parseTree 257 0 bits = .tree (.leaf v) after k ∧ v ≠ eofSym ∧ rest = some after

/-- An input that does not continue with a tree of a legal shape is refused (R237). -/
theorem treeRefused_of_no_tree {bits : List Bool}
    (h : ¬ ∃ tree rest, TreeShape tree ∧ bits = tree.encoding ++ rest) : ∃ rest, TreeRefused bits rest := by
  cases hp : parseTree 257 0 bits with
  | malformed rest => exact ⟨rest, .inl hp⟩
  | tree tree rest k =>
    have hbits := (parseTree_sound hp (Nat.zero_le _)).1
    cases tree with
    | node l r => exact absurd ⟨_, rest, treeShape_of_parseTree hp rfl, hbits⟩ h
    | leaf v =>
      refine ⟨some rest, .inr ⟨v, rest, k, hp, fun hv => h ?_, rfl⟩⟩
      exact ⟨_, rest, treeShape_of_parseTree hp (by simp [HTree.badRoot, hv]), hbits⟩

/-- RD_TREE on an input it refuses (R164, R237). -/
theorem exec_rdTree_refused {rest : Option (List Bool)} (he : s.err = false) (h : TreeRefused s.inRest rest) :
    exec .rdTree s = .next (s.treeFailed rest) := by
  refine (unlessErr_run he).trans ?_
  rcases h with hp | ⟨v, after, k, hp, hv, rfl⟩
  · simp only [hp]
    rfl
  · have hbad : (HTree.leaf v).badRoot = true := bne_iff_ne.mpr hv
    simp only [hp, hbad, if_true]
    rfl

/-- All that a failing RD_TREE writes: NODE, TREE, three flags, the input position and the error (R237, R244). -/
theorem treeFailed_frame (he : s.err = false) (rest : Option (List Bool)) :
    s.treeFailed rest = { s with
      node := (s.treeFailed rest).node, root := (s.treeFailed rest).root, nodeCount := (s.treeFailed rest).nodeCount,
      inPos := (s.treeFailed rest).inPos, draw := (s.treeFailed rest).draw,
      treeValid := false, codesValid := false, eofSeen := false, err := true, errorCode := 2, errorOp := 5 } := by
  unfold State.treeFailed
  cases rest <;> rw [raise_of_noErr (by exact he)] <;> rfl

/-- Where the input stands after reads that left `rest` behind `front`. -/
theorem treeFailed_inPos_of_split (s : State) {front rest : List Bool} (hin : s.inRest = front ++ rest) :
    (s.treeFailed (some rest)).inPos = s.inPos + front.length := by
  simp only [treeFailed_inPos, hin, List.length_append, Nat.add_sub_cancel]

/-- A failing RD_TREE moves the input on, within the input (R72). -/
theorem treeFailed_within (h : s.inPos ≤ s.inEnd) (rest : Option (List Bool)) :
    s.inPos ≤ (s.treeFailed rest).inPos ∧ (s.treeFailed rest).inPos ≤ s.inEnd := by
  have hlen := inRest_length s
  rw [treeFailed_inPos]
  split <;> omega

/-- Settles O34: an input that holds no legal tree is refused, and where des() fails gives the four causes. -/
theorem rdTreeMalformed : Obligations.RdTreeMalformed := by
  intro s he hwithin hno
  obtain ⟨rest, hrefused⟩ := treeRefused_of_no_tree hno
  obtain ⟨hfrom, hto⟩ := treeFailed_within hwithin rest
  refine ⟨s.treeFailed rest, exec_rdTree_refused he hrefused, treeFailed_frame he rest, hfrom, hto, ?_⟩
  rcases hrefused with hp | ⟨v, after, k, hp, hv, rfl⟩
  · obtain ⟨items, tail, hin, ⟨m, hm⟩, hcount, hsym, hcause⟩ := parseTree_malformed hp (Nat.zero_le _) (Nat.le_refl _)
    rw [Nat.zero_add] at hcount hcause
    refine ⟨items, tail, hin, hsym, hcount, .inl ⟨⟨m, (hm 0).trans (by rw [Nat.zero_add])⟩, ?_⟩⟩
    rcases hcause with ⟨rfl, hend⟩ | ⟨v, after, hv, rfl, rfl⟩ | ⟨hfull, after, rfl, rfl⟩
    · exact .inl ⟨hend, treeFailed_inPos s none⟩
    · refine .inr (.inl ⟨v, after, hv, rfl, ?_⟩)
      rw [treeFailed_inPos_of_split s (hin.trans (List.append_assoc _ _ _).symm), List.length_append]
      rfl
    · refine .inr (.inr ⟨hfull, ⟨after, rfl⟩, ?_⟩)
      rw [treeFailed_inPos_of_split s (front := itemsBits items ++ [false]) (by simp [hin]), List.length_append]
      rfl
  · obtain ⟨hin, -, -, hsym⟩ := parseTree_sound hp (Nat.zero_le _)
    rw [← itemsBits_items] at hin
    refine ⟨[some v], after, hin, fun w hw => hsym w ((items_symbols _ w).mp hw), by simp, .inr ⟨v, rfl, hv, ?_⟩⟩
    exact treeFailed_inPos_of_split s hin

end Sys2Proof.Machine
end
